-- ==== Sys2Proof/Word.lean ====
section
/-! DEFINITION. The word types of the machine (00_scope.md R9, R11): bytes, 16-bit stream words and pixels,
32-bit addresses, counts and command operands. Every quantity is unsigned (R11). -/

namespace Sys2Proof

/-- One byte of memory, of a command, or of the wire log (R60, R33). -/
abbrev Byte := BitVec 8

/-- A 16-bit word: a stream word (`WORD_BITS`) or a pixel (`PIX_BITS`), R9. -/
abbrev U16 := BitVec 16

/-- A 32-bit word: a command operand (R111), or a register that holds an address or a count (`AW` and `COUNT_BITS` are
at most 32, R9; log entry 21). -/
abbrev U32 := BitVec 32

/-- The 17-bit output cursor `dec.cur` (R21). -/
abbrev U17 := BitVec 17

/-- `v` widened with zeros to 32 bits, `zext_32(v)` of R11. -/
def zext32 {n : Nat} (v : BitVec n) : U32 := v.setWidth 32

end Sys2Proof
end

