-- ==== Sys2Proof/Syntax.lean ====
section
/-! DEFINITION. The instructions: one constructor per row of spec/opcode_table.json (30_encoding.md R100 to R122).
The first four are the stream words DEC executes (formats H, C, P), the other eighteen the commands HOST issues
(R111). -/

namespace Sys2Proof

inductive Instr where
  /-- HDR, the header word `N` (R101, R134). -/
  | hdr (n : U16)
  /-- SKIP, a control word with `dataLength = 0` (R102, R136). -/
  | skip (runLength : Byte)
  /-- LITRUN, a control word with `dataLength ≠ 0` (R102, R137). -/
  | litrun (runLength dataLength : Byte)
  /-- PIXEL, one payload word of a LITRUN (R103, R138). -/
  | pixel (value : U16)
  /-- HOST_READ (R86). -/
  | hostRead (addr n : U32)
  /-- HOST_WRITE (R86). -/
  | hostWrite (addr n v : U32)
  /-- DECOMPRESS (R133). -/
  | decompress (inBase inLen outBase outLen : U32)
  /-- CONFIGURE (R182). -/
  | configure (c src dst esize count opts : U32)
  /-- START (R184). -/
  | start (c : U32)
  /-- WAIT (R187). -/
  | wait (c : U32)
  /-- POLL_REMAINING (R188). -/
  | pollRemaining (c : U32)
  /-- VSYNC_WAIT (R223). -/
  | vsyncWait
  /-- SCAN_START (R225). -/
  | scanStart
  /-- FLUSH_PROGRESS (R226). -/
  | flushProgress
  /-- CLEAR (R228). -/
  | clear (color : U16)
  /-- DRAW_BEGIN (R229). -/
  | drawBegin
  /-- DRAW_END (R230). -/
  | drawEnd
  /-- FLUSH (R232). -/
  | flush
  /-- FILL (R193). -/
  | fill (c dst count esize bswap : U32)
  /-- COPY (R194). -/
  | copy (c src dst count esize bswap : U32)
  /-- BULK_READ (R196): `M` words from address `A` into buffer `B`. -/
  | bulkRead (c a b m : U32)
  /-- SCANOUT_CFG (R197). -/
  | scanoutCfg
deriving DecidableEq, Repr

/-- Where an instruction stands. The three stream formats have no tag bits: "a word's format is given by its
position alone" (R106); a command stands in HOST's program. -/
inductive Position where
  /-- Stream index 0: format H. -/
  | header
  /-- After the header or after a complete record: format C. -/
  | control
  /-- One of the `dataLength` words after a LITRUN control word: format P. -/
  | payload
  /-- In HOST's program: format CMD. -/
  | command
deriving DecidableEq, Repr

/-- The position an instruction stands at. -/
def Instr.position : Instr → Position
  | .hdr _ => .header
  | .skip _ => .control
  | .litrun _ _ => .control
  | .pixel _ => .payload
  | .hostRead _ _ => .command
  | .hostWrite _ _ _ => .command
  | .decompress _ _ _ _ => .command
  | .configure _ _ _ _ _ _ => .command
  | .start _ => .command
  | .wait _ => .command
  | .pollRemaining _ => .command
  | .vsyncWait => .command
  | .scanStart => .command
  | .flushProgress => .command
  | .clear _ => .command
  | .drawBegin => .command
  | .drawEnd => .command
  | .flush => .command
  | .fill _ _ _ _ _ => .command
  | .copy _ _ _ _ _ _ => .command
  | .bulkRead _ _ _ _ => .command
  | .scanoutCfg => .command

end Sys2Proof
end

