-- ==== Sys2Proof/Decode.lean ====
section
/-! DEFINITION. The decoder, total on any bytes, and the encoder (30_encoding.md). A stream word is two bytes, low byte
first (R104); a command is an 8-bit code and its operands in R111's order, each 32 bits (`color` 16 bits), low byte
first. The operands' byte order is DEDUCED from R62, which applies to every agent (log entry 6). -/

namespace Sys2Proof

/-- What the decoder answers. -/
inductive DecodeResult where
  /-- An instruction and the bytes after it. -/
  | ok (i : Instr) (rest : List Byte)
  /-- The command code is not in the table of R111 (R299 (a)). -/
  | unknownOp (op : Byte)
  /-- The bytes end before the instruction is complete. -/
  | truncated
deriving DecidableEq, Repr

/-- Format C (R102, R105, R108): `runLength` is bits 15:8, `dataLength` bits 7:0, and `dataLength = 0` selects SKIP.
The SKIP row is tried first (R122). -/
def decodeControl (w : U16) : Instr :=
  if w &&& 0x00FF#16 = 0x0000#16 then .skip (w.extractLsb' 8 8)
  else .litrun (w.extractLsb' 8 8) (w.extractLsb' 0 8)

/-- The 16-bit word whose low byte is `lo` and high byte is `hi` (R62, R104). -/
def word16 (lo hi : Byte) : U16 := hi ++ lo

/-- The 32-bit operand whose bytes are `b0` (lowest) to `b3` (R62). -/
def word32 (b0 b1 b2 b3 : Byte) : U32 := b3 ++ b2 ++ b1 ++ b0

/-- Read one 32-bit operand off the front of the bytes and go on. -/
def operand (k : U32 → List Byte → DecodeResult) : List Byte → DecodeResult
  | b0 :: b1 :: b2 :: b3 :: rest => k (word32 b0 b1 b2 b3) rest
  | _ => .truncated

def operands1 (f : U32 → Instr) : List Byte → DecodeResult :=
  operand fun a rest => .ok (f a) rest
def operands2 (f : U32 → U32 → Instr) : List Byte → DecodeResult :=
  operand fun a => operands1 (f a)
def operands3 (f : U32 → U32 → U32 → Instr) : List Byte → DecodeResult :=
  operand fun a => operands2 (f a)
def operands4 (f : U32 → U32 → U32 → U32 → Instr) : List Byte → DecodeResult :=
  operand fun a => operands3 (f a)
def operands5 (f : U32 → U32 → U32 → U32 → U32 → Instr) : List Byte → DecodeResult :=
  operand fun a => operands4 (f a)
def operands6 (f : U32 → U32 → U32 → U32 → U32 → U32 → Instr) : List Byte → DecodeResult :=
  operand fun a => operands5 (f a)

/-- One 16-bit word read off the front of the bytes: a stream word, or the operand `color` of CLEAR. -/
def halfword (f : U16 → Instr) : List Byte → DecodeResult
  | lo :: hi :: rest => .ok (f (word16 lo hi)) rest
  | _ => .truncated

/-- The command whose code is `op`, its operands at the front of the bytes (R111). -/
def decodeCommand (op : Byte) (bs : List Byte) : DecodeResult :=
  if op = 0x01#8 then operands2 .hostRead bs
  else if op = 0x02#8 then operands3 .hostWrite bs
  else if op = 0x10#8 then operands4 .decompress bs
  else if op = 0x20#8 then operands6 .configure bs
  else if op = 0x21#8 then operands1 .start bs
  else if op = 0x22#8 then operands1 .wait bs
  else if op = 0x23#8 then operands1 .pollRemaining bs
  else if op = 0x30#8 then .ok .vsyncWait bs
  else if op = 0x31#8 then .ok .scanStart bs
  else if op = 0x32#8 then .ok .flushProgress bs
  else if op = 0x40#8 then halfword .clear bs
  else if op = 0x41#8 then .ok .drawBegin bs
  else if op = 0x42#8 then .ok .drawEnd bs
  else if op = 0x43#8 then .ok .flush bs
  else if op = 0x48#8 then operands5 .fill bs
  else if op = 0x49#8 then operands6 .copy bs
  else if op = 0x4A#8 then operands4 .bulkRead bs
  else if op = 0x4B#8 then .ok .scanoutCfg bs
  else .unknownOp op

/-- Decode the instruction that stands at position `p` at the front of the bytes (R106, R111). -/
def decode : Position → List Byte → DecodeResult
  | .header, bs => halfword .hdr bs
  | .control, bs => halfword decodeControl bs
  | .payload, bs => halfword .pixel bs
  | .command, [] => .truncated
  | .command, op :: bs => decodeCommand op bs

/-- The two bytes of a 16-bit word, low byte first (R104). -/
def bytes16 (w : U16) : List Byte := [w.extractLsb' 0 8, w.extractLsb' 8 8]

/-- The four bytes of a 32-bit operand, low byte first (R62). -/
def bytes32 (w : U32) : List Byte :=
  [w.extractLsb' 0 8, w.extractLsb' 8 8, w.extractLsb' 16 8, w.extractLsb' 24 8]

/-- `ctrl(d,r) = (r<<8)|d`, the control word with `dataLength = d` and `runLength = r` (R12, R102). -/
def ctrl (d r : Byte) : U16 := (r.setWidth 16 <<< 8) ||| d.setWidth 16

/-- The bytes of an instruction (R101 to R104, R111). -/
def encode : Instr → List Byte
  | .hdr n => bytes16 n
  | .skip r => bytes16 (ctrl 0#8 r)
  | .litrun r d => bytes16 (ctrl d r)
  | .pixel v => bytes16 v
  | .hostRead a n => 0x01#8 :: (bytes32 a ++ bytes32 n)
  | .hostWrite a n v => 0x02#8 :: (bytes32 a ++ bytes32 n ++ bytes32 v)
  | .decompress a b c d => 0x10#8 :: (bytes32 a ++ bytes32 b ++ bytes32 c ++ bytes32 d)
  | .configure a b c d e f =>
    0x20#8 :: (bytes32 a ++ bytes32 b ++ bytes32 c ++ bytes32 d ++ bytes32 e ++ bytes32 f)
  | .start c => 0x21#8 :: bytes32 c
  | .wait c => 0x22#8 :: bytes32 c
  | .pollRemaining c => 0x23#8 :: bytes32 c
  | .vsyncWait => [0x30#8]
  | .scanStart => [0x31#8]
  | .flushProgress => [0x32#8]
  | .clear color => 0x40#8 :: bytes16 color
  | .drawBegin => [0x41#8]
  | .drawEnd => [0x42#8]
  | .flush => [0x43#8]
  | .fill a b c d e => 0x48#8 :: (bytes32 a ++ bytes32 b ++ bytes32 c ++ bytes32 d ++ bytes32 e)
  | .copy a b c d e f =>
    0x49#8 :: (bytes32 a ++ bytes32 b ++ bytes32 c ++ bytes32 d ++ bytes32 e ++ bytes32 f)
  | .bulkRead a b c d => 0x4A#8 :: (bytes32 a ++ bytes32 b ++ bytes32 c ++ bytes32 d)
  | .scanoutCfg => [0x4B#8]

/-- The longest instruction in bytes: a command of six 32-bit operands (R111). -/
def maxBytes : Nat := 25

/-- The bytes of an instruction whose first bits are `w`, all later bits 0, numbered as spec/opcode_table.json
numbers them. A row of 16 bits is one stream word; a row of 8 bits is a command code, and its operand bytes are 0. -/
def tableBytes (nbits w : Nat) : List Byte :=
  if nbits = 16 then bytes16 (BitVec.ofNat 16 w)
  else BitVec.ofNat 8 w :: List.replicate (maxBytes - 1) 0#8

/-- The position a table row's word is read at: the control position for a 16-bit stream word (HDR and PIXEL are told
apart from it by position alone, R106; log entry 7), the command position for an 8-bit code. -/
def tablePosition (nbits : Nat) : Option Position :=
  if nbits = 16 then some .control else if nbits = 8 then some .command else none

/-- The instruction the decoder reads from a table row's word. -/
def decodeTableWord (nbits w : Nat) : Option Instr :=
  match tablePosition nbits with
  | none => none
  | some p =>
    match decode p (tableBytes nbits w) with
    | .ok i _ => some i
    | .unknownOp _ => none
    | .truncated => none

end Sys2Proof
end

