-- ==== Sys2Proof/Config.lean ====
section
/-! DEFINITION. The parameters of the machine (00_scope.md R9, 20_memory.md R64, 92_eei_decisions.md): the fixed
values, the OPEN ones as one record `Config` that the state carries and no step changes, the agents (R8), and the one
free value, the schedule. -/

namespace Sys2Proof

/-- `N_MAX`, the largest decompressed length (R9). -/
def nMax : Nat := 65535
/-- `DLEN_MAX`, the largest `dataLength` (R9). -/
def dlenMax : Nat := 255
/-- `RLEN_MAX`, the largest `runLength` (R9). -/
def rlenMax : Nat := 255
/-- `MASK_BITS`, the width of one row of a transparency mask (R9, R115); no block reads a mask. -/
def maskBits : Nat := 32
/-- `SCAN_CH`, the channel that streams the framebuffer out (R9). -/
def scanCh : Nat := 0
/-- `FILL_CH`, the channel CLEAR uses (R9). -/
def fillCh : Nat := 1

/-- The agents of R8: any enabled agent may take the next step. -/
inductive Agent where
  /-- The single control thread, which issues commands. -/
  | host
  /-- The decompressor, which steps only while it is busy. -/
  | dec
  /-- Transfer channel `c`, which steps only while its `remaining` is not 0. -/
  | bte (c : Nat)
  /-- The display's vsync source. -/
  | env
deriving DecidableEq, Repr, Inhabited

/-- A region of the address space (R64): its base byte address and its size in bytes. -/
structure Region where
  base : Nat
  size : Nat
deriving DecidableEq, Repr

/-- The region as a half-open byte range lies below `2^AW`, its base on a 4-byte boundary (R64). -/
abbrev Region.placed (r : Region) (addrBits : Nat) : Prop := r.base % 4 = 0 ∧ r.base + r.size ≤ 2 ^ addrBits

/-- The two regions share no byte (R64). -/
abbrev Region.apart (r t : Region) : Prop :=
  r.size = 0 ∨ t.size = 0 ∨ r.base + r.size ≤ t.base ∨ t.base + t.size ≤ r.base

/-- The parameters of R9 that are OPEN, and those that are fixed but unaudited and so stay parameters: the two lists of
92_eei_decisions.md after D44. `NUM_CH` is the length of the state's channel list. -/
structure Config where
  /-- `AW`, the address width in bits (R9, D5): addresses below `2^AW` exist (R60). -/
  addrBits : Nat
  /-- `COUNT_BITS`, the width of `count` and `remaining` (R9, D5). -/
  countBits : Nat
  /-- `WIDTH` in pixels (R9, D27). -/
  width : Nat
  /-- `HEIGHT` in pixels (R9, D27). -/
  height : Nat
  /-- `TILE_DIM`: a tile is `TILE_DIM` by `TILE_DIM` pixels (R9). -/
  tileDim : Nat
  /-- `RUN_MIN_FLUSH`, the repeat count from which the encoder ends a record (R9, R164). -/
  runMinFlush : Nat
  /-- `SCAN_ELEM_SIZE` (R9, D25). -/
  scanElemSize : Nat
  /-- `CLEAR_SWAP` (R9, D31). -/
  clearSwap : Bool
  /-- `CHAIN_NOOP` (R9, D20). -/
  chainNoop : Bool
  /-- `ASSET_BASE`, `ASSET_SIZE` (R64). -/
  asset : Region
  /-- `STAGE_BASE`, `STAGE_SIZE` (R64). -/
  stage : Region
  /-- `FB_BASE` (R64). -/
  fbBase : Nat
  /-- `FILL_BASE` (R64). -/
  fillBase : Nat
  /-- `DISPLAY_BASE` (R64). -/
  displayBase : Nat
deriving DecidableEq, Repr

/-- Pixels of the framebuffer, `WIDTH*HEIGHT` (R10). -/
def Config.pixels (k : Config) : Nat := k.width * k.height

/-- Pixels of a decompressed tile, `TILE_DIM*TILE_DIM` (R10). -/
def Config.tilePixels (k : Config) : Nat := k.tileDim * k.tileDim

/-- Bytes of a decompressed tile, two a pixel (R10). -/
def Config.tileBytes (k : Config) : Nat := 2 * k.tilePixels

/-- Bytes of a tile's transparency mask, one `MASK_BITS` word a row (R115). -/
def Config.maskBytes (k : Config) : Nat := k.tileDim * (maskBits / 8)

/-- Region `FB`: `2*WIDTH*HEIGHT` bytes (R64). -/
def Config.fb (k : Config) : Region := ⟨k.fbBase, 2 * k.pixels⟩

/-- Region `FILL_CELL`: 4 bytes (R64). -/
def Config.fillCell (k : Config) : Region := ⟨k.fillBase, 4⟩

/-- Region `DISPLAY_PORT`: 4 bytes (R64). -/
def Config.display (k : Config) : Region := ⟨k.displayBase, 4⟩

/-- The five regions, in R64's order. -/
def Config.regions (k : Config) : List Region := [k.asset, k.stage, k.fb, k.fillCell, k.display]

/-- Elements of one flush, `2*WIDTH*HEIGHT/SCAN_ELEM_SIZE` (R197). -/
def Config.scanCount (k : Config) : Nat := 2 * k.pixels / k.scanElemSize

/-- The widths: addresses and counts fit the 32-bit operands of R111 (log entry 21), the bytes of a frame fit a count
(R237), and every region lies in the address space (R64). -/
abbrev Config.widthsFit (k : Config) : Prop :=
  k.addrBits ≤ 32 ∧ k.countBits ≤ 32 ∧ 2 * k.pixels < 2 ^ k.countBits ∧ ∀ r ∈ k.regions, r.placed k.addrBits

/-- The constraints the spec puts on the parameters: R64 (alignment, no overlap, no wrap), `STAGE_SIZE` at least
2048 (R64), and `SCAN_ELEM_SIZE` 1 or 2 (R237: 4 is not admitted); with the widths. -/
abbrev Config.wf (k : Config) : Prop :=
  k.widthsFit ∧ k.regions.Pairwise Region.apart ∧ 2048 ≤ k.stage.size ∧ (k.scanElemSize = 1 ∨ k.scanElemSize = 2)

/-- The spec's example instantiation MAP-A (95_test_vectors.md section 0), which `State.reset` has. DESIGN CHOICE
(log entry 1); of the statements only "the reset state meets the invariants" and the encoder's vectors
(RUN_MIN_FLUSH) read its values. -/
def Config.mapA : Config where
  addrBits := 32
  countBits := 32
  width := 240
  height := 240
  tileDim := 32
  runMinFlush := 3
  scanElemSize := 2
  clearSwap := true
  chainNoop := false
  asset := ⟨0x1000, 0x1000⟩
  stage := ⟨0x2000, 0x2000⟩
  fbBase := 0x8000
  fillBase := 0x30000
  displayBase := 0x40000

/-- The agent that steps at turn number `t` when the state's schedule tape says nothing: a FREE VALUE (R76, "Which
agent steps next is not determined"). It has no body, so nothing can be proved of its choice (log entry 3). -/
opaque Config.freeTurn (t : Nat) : Agent

end Sys2Proof
end

