-- ==== Sys2Proof/Machine/Memory.lean ====
section
/-! DEFINITION. Memory (20_memory.md R60 to R62): a map from byte addresses to bytes, held as the list of the cells that
differ from what an unlisted address reads as, with strictly rising addresses. Multi-byte values are little-endian. -/

namespace Sys2Proof.Machine

/-- The cells of memory that do not read as `unwritten`, in rising order of address. -/
abbrev Memory := List Host.Cell

/-- What an address that the list does not hold reads as. R61 gives no value; DESIGN CHOICE, unsafe (log entry 2). -/
def unwritten : Byte := 0#8

/-- The canonical form: addresses strictly rising, and no cell that holds what an unlisted address reads as. -/
abbrev Memory.wf (m : Memory) : Prop :=
  m.Pairwise (fun x y => x.1 < y.1) ∧ ∀ x ∈ m, x.2 ≠ unwritten

/-- The byte at address `a` (R60). -/
def Memory.byte : Memory → Nat → Byte
  | [], _ => unwritten
  | (k, v) :: rest, a => if k = a then v else Memory.byte rest a

/-- Put the cell `(a, b)` in its place in the order. -/
def Memory.insertCell : Memory → Nat → Byte → Memory
  | [], a, b => [(a, b)]
  | (k, v) :: rest, a, b =>
    if a < k then (a, b) :: (k, v) :: rest else (k, v) :: Memory.insertCell rest a b

/-- Write the byte `b` at address `a`; a byte equal to `unwritten` leaves no cell (R60). -/
def Memory.setByte (m : Memory) (a : Nat) (b : Byte) : Memory :=
  let others := m.filter (fun x => x.1 != a)
  if b = unwritten then others else Memory.insertCell others a b

/-- The `n`-byte value at address `a`, byte `a` lowest (R15, R62). -/
def Memory.read (m : Memory) (a : Nat) : Nat → Nat
  | 0 => 0
  | n + 1 => (m.byte a).toNat + 256 * Memory.read m (a + 1) n

/-- Write the `n` low bytes of `v` at address `a`, the lowest byte at `a` (R15, R62). -/
def Memory.write (m : Memory) (a : Nat) : Nat → Nat → Memory
  | 0, _ => m
  | n + 1, v => Memory.write (m.setByte a (BitVec.ofNat 8 v)) (a + 1) n (v / 256)

end Sys2Proof.Machine
end

