-- ==== Sys2Proof/Machine/State.lean ====
section
/-! DEFINITION. The state of the machine (10_state.md R20 to R36), why a step can stop, and the state after reset
(R37). Plain data throughout. -/

namespace Sys2Proof.Machine

/-- Why a step faults. -/
inductive Fault where
  /-- Raised by `step` alone, when the fault register already holds a fault: "While `fault.valid = 1` no agent has an
  enabled step" (R296). Safe: the machine as specified has no step either. The instruction that raised the fault
  answered a next state with the fault register written (R294). -/
  | halted (code : Byte) (info : U32)
deriving DecidableEq, Repr

/-- Why a step is refused. -/
inductive Refusal where
  /-- Raised by no arm of `exec`: every instruction has a meaning. Safe. -/
  | notModelled (mnemonic : String)
  /-- Raised by `step` alone, when the refusal mark is set: "after it no agent has an enabled step" (R299). Safe: the
  spec gives no step. The command that was refused answered a next state with the mark set. -/
  | afterRefusal
deriving DecidableEq, Repr

/-- `dec.st`, the decompressor's control state (R22). -/
inductive DecState where
  /-- No decompression has been commanded since reset. -/
  | idle
  /-- The next DEC step reads the header word. -/
  | hdr
  /-- The next DEC step reads a control word. -/
  | ctrl
  /-- The next DEC step copies one literal. -/
  | lit
  /-- The next DEC step writes one repeat. -/
  | rep
  /-- The last commanded decompression finished without a fault. -/
  | done
deriving DecidableEq, Repr

/-- The DEC registers (R21). -/
structure Dec where
  /-- `dec.st` (R22). -/
  st : DecState
  /-- Byte address of word 0 of the stream. -/
  inBase : U32
  /-- Length of the stream in words. -/
  inLen : U32
  /-- Byte address of slot 0 of the output buffer. -/
  outBase : U32
  /-- Declared length of the output buffer in slots. -/
  outLen : U32
  /-- Index of the next stream word to read: the program counter of the stream (R23). -/
  ip : U32
  /-- The header value N. -/
  n : U16
  /-- The output cursor. -/
  cur : U17
  /-- Literals of the current record still to be copied. -/
  d : Byte
  /-- Repeats of the current record still to be written. -/
  r : Byte
  /-- The last literal copied in the current record. -/
  last : U16
deriving DecidableEq, Repr

/-- The registers of one transfer channel (R26, R27). -/
structure Channel where
  src : U32
  dst : U32
  esize : BitVec 3
  count : U32
  incRd : Bool
  incWr : Bool
  bswap : Bool
  chain : Bool
  configured : Bool
  rdPtr : U32
  wrPtr : U32
  remaining : U32
deriving DecidableEq, Repr

/-- `host.vs_phase`, the edge detector of the vsync wait (R30). -/
inductive VsPhase where
  | none
  | needLow
  | needHigh
deriving DecidableEq, Repr

/-- `host.wait`, what HOST is blocked on (R32). -/
inductive HostWait where
  | none
  | onDec
  | onCh (c : Nat)
  | onVsync
deriving DecidableEq, Repr

/-- The fault register (R31). -/
structure FaultReg where
  valid : Bool
  code : Byte
  info : U32
deriving DecidableEq, Repr

/-- The state of the machine (R20). The last six fields are the model's own: the parameters of R9 and R64, and the
inputs R20 calls HOST's program and the schedule, with the value a command returned. -/
structure State where
  /-- Memory (R60). -/
  mem : Memory
  /-- The DEC registers (R21). -/
  dec : Dec
  /-- The channels, channel `c` at index `c`; `NUM_CH` is the length (R9, R26, R27). -/
  bte : List Channel
  /-- `scan.started` (R29). -/
  scanStarted : Bool
  /-- `vs.te`, the level of the tearing-effect signal (R30). -/
  te : Bool
  /-- `host.vs_phase` (R30). -/
  vsPhase : VsPhase
  /-- `host.wait` (R32). -/
  hostWait : HostWait
  /-- `fault.valid`, `fault.code`, `fault.info` (R31). -/
  fault : FaultReg
  /-- `refused` (R31). -/
  refused : Bool
  /-- `wire`, the bytes written to the display port since reset, in order (R33). -/
  wire : List Byte
  /-- `wire_marks`, the length of `wire` at each SCAN_START (R33). -/
  wireMarks : List Nat
  /-- The OPEN parameters (R9, R64); no step changes them (log entry 1). -/
  cfg : Config
  /-- The value the latest value-returning command returned (R111, column "Returns"; log entry 4). -/
  ret : U32
  /-- The bytes of HOST's program that are at hand and not issued yet (R20, R332). The whole program, finite or infinite,
  is the `Program` of a run (log entry 5). -/
  prog : List Byte
  /-- The primitive commands of the composite command HOST is in that it has still to issue (R119; log entry 8). -/
  pending : List Instr
  /-- The schedule as far as it is given: the agent of the next turn first (R20, R76; log entry 3). -/
  tape : List Agent
  /-- How many turns have been taken; where the tape is empty, `Config.freeTurn` of it chooses (log entry 3). -/
  turns : Nat
deriving DecidableEq, Repr

/-- The DEC registers after reset: `dec.st` is `IDLE` (R37); the others are unspecified there and read 0 here (DESIGN
CHOICE, log entry 9). -/
def Dec.reset : Dec where
  st := .idle
  inBase := 0
  inLen := 0
  outBase := 0
  outLen := 0
  ip := 0
  n := 0
  cur := 0
  d := 0
  r := 0
  last := 0

/-- A channel after reset: `remaining` and `configured` are 0 (R37); the others are unspecified there and read 0 here
(DESIGN CHOICE, log entry 9). -/
def Channel.reset : Channel where
  src := 0
  dst := 0
  esize := 0
  count := 0
  incRd := false
  incWr := false
  bswap := false
  chain := false
  configured := false
  rdPtr := 0
  wrPtr := 0
  remaining := 0

/-- The reset state of R37 for given values of what it leaves open: the parameters, the number of channels, the
contents of memory, and the level of `vs.te`. -/
def State.resetWith (cfg : Config) (numCh : Nat) (mem : Memory) (te : Bool) : State where
  mem := mem
  dec := Dec.reset
  bte := List.replicate numCh Channel.reset
  scanStarted := false
  te := te
  vsPhase := .none
  hostWait := .none
  fault := ⟨false, 0, 0⟩
  refused := false
  wire := []
  wireMarks := []
  cfg := cfg
  ret := 0
  prog := []
  pending := []
  tape := []
  turns := 0

/-- The machine right after reset (R37), with the open values of log entries 1, 2 and 9: the parameters of MAP-A with
its three channels, no memory cell listed, `vs.te` low. -/
def State.reset : State := State.resetWith Config.mapA 3 [] false

end Sys2Proof.Machine
end

