-- ==== Sys2Proof/Machine/Flags.lean ====
section
/-! DEFINITION. The status conditions of 10_state.md R25, all functions of registers, and the conditions of a channel
(42_block_transfer.md R181). -/

namespace Sys2Proof.Machine

/-- `NUM_CH` (R9). -/
def State.numCh (s : State) : Nat := s.bte.length

/-- Channel `c`'s registers; an absent channel reads as one that was never configured. -/
def State.channel (s : State) (c : Nat) : Channel := s.bte.getD c Channel.reset

/-- `dec.busy`: `dec.st` is HDR, CTRL, LIT or REP (R22, R25). -/
def State.decBusy (s : State) : Bool :=
  match s.dec.st with
  | .idle => false
  | .hdr => true
  | .ctrl => true
  | .lit => true
  | .rep => true
  | .done => false

/-- `dec.done` (R25). -/
def State.decDone (s : State) : Bool := s.dec.st == .done

/-- `bte[c].busy`: `remaining` is not 0 (R25). -/
def State.channelBusy (s : State) (c : Nat) : Bool := (s.channel c).remaining != 0

/-- The condition of a channel (R181). -/
inductive ChannelCondition where
  | unconfigured
  | idle
  | running
deriving DecidableEq, Repr

/-- A channel is running when `remaining` is not 0, else idle when configured, else unconfigured (R181). -/
def Channel.condition (ch : Channel) : ChannelCondition :=
  if ch.remaining ≠ 0 then .running else if ch.configured then .idle else .unconfigured

/-- `scan.state` (R25, R220). -/
inductive ScanState where
  | idle
  | flushing
deriving DecidableEq, Repr

/-- `scan.state` is Flushing while the scanout channel's `remaining` is not 0 (R25, R220). -/
def State.scanState (s : State) : ScanState := if s.channelBusy scanCh then .flushing else .idle

/-- The pixel offset FLUSH_PROGRESS returns (R226). -/
def State.flushOffset (s : State) : Nat :=
  if s.scanStarted then
    (2 * s.cfg.pixels - (s.channel scanCh).remaining.toNat * s.cfg.scanElemSize) / 2
  else 0

/-- No agent has an enabled step once a fault or a refusal has been recorded (R296, R299). -/
def State.stopped (s : State) : Bool := s.fault.valid || s.refused

end Sys2Proof.Machine
end

