-- ==== Sys2Proof/Machine/Operands.lean ====
section
/-! DEFINITION. Operand forms: legal sizes (R113), the `opts` operand (R112, R183), byte swaps (R13, R189), region
access rights (R65), and the ranges a transfer touches (R185). -/

namespace Sys2Proof.Machine

/-- 1, 2 and 4 bytes are the legal access and element sizes (R9 `ELEM_SIZES`, R70). -/
def legalSize (n : Nat) : Bool := n == 1 || n == 2 || n == 4

/-- `a` is a multiple of the access size `n` (R71). -/
def aligned (a n : Nat) : Bool := a % n == 0

/-- The `opts` bits of CONFIGURE, in the document's order (R112). -/
def optFixedSource : U32 := 0x01
def optIncrementWrite : U32 := 0x02
def optIncrementRead : U32 := 0x04
def optByteSwap : U32 := 0x08
def optChainToSelf : U32 := 0x10

/-- `opts` is valid when bits 0 and 2 differ and every bit above 4 is 0 (R113, R183). -/
def optsValid (opts : U32) : Bool := (opts.getLsbD 0 != opts.getLsbD 2) && opts >>> 5 == 0

/-- A `bswap` operand as an option: any value but 0 asks for the swap, as the conditional `(bswap ? byteSwap : 0)` of
R193 and R194 reads (log entry 10). -/
def bswapOpt (bswap : U32) : U32 := if bswap = 0 then 0 else optByteSwap

/-- The options of FILL (R193). -/
def fillOpts (bswap : U32) : U32 := optFixedSource ||| optIncrementWrite ||| bswapOpt bswap

/-- The options of COPY (R194). -/
def copyOpts (bswap : U32) : U32 := optIncrementRead ||| optIncrementWrite ||| bswapOpt bswap

/-- The options of BULK_READ (R196). -/
def bulkReadOpts : U32 := optIncrementRead ||| optIncrementWrite

/-- The options of SCANOUT_CFG (R197). -/
def scanoutOpts : U32 := optIncrementRead

/-- `swap16` (R13). -/
def swap16 (v : U16) : U16 := ((v &&& 0xFF#16) <<< 8) ||| (v >>> 8)

/-- `byterev(v, n)` (R13): the `n` bytes of `v` in the reverse order. The cases 1 and 4 come from general knowledge
(R189; log entry 11). -/
def byterev (v : U32) (n : Nat) : U32 :=
  if n = 2 then zext32 (swap16 (v.setWidth 16))
  else if n = 4 then
    v.extractLsb' 0 8 ++ v.extractLsb' 8 8 ++ v.extractLsb' 16 8 ++ v.extractLsb' 24 8
  else v

/-- Byte `k` of `v`, byte 0 the lowest (R62). -/
def byteOf (v : U32) (k : Nat) : Byte := v.extractLsb' (8 * k) 8

/-- The `n` low bytes of `v`, lowest first: the order they go out on the wire (R68). -/
def lowBytes (v : U32) (n : Nat) : List Byte := (List.range n).map (byteOf v)

/-- The region holds all of the `len` bytes from address `a`. -/
def holds (r : Region) (a len : Nat) : Bool := decide (r.base ≤ a) && decide (a + len ≤ r.base + r.size)

/-- The range is empty or lies wholly inside one of the regions (R133, R185). -/
def admitted (rs : List Region) (a len : Nat) : Bool := len == 0 || rs.any (fun r => holds r a len)

/-- The two byte ranges share no byte (R133). -/
def shareNoByte (a alen b blen : Nat) : Bool :=
  alen == 0 || blen == 0 || decide (a + alen ≤ b) || decide (b + blen ≤ a)

/-- What HOST may read (R65). -/
def hostReadable (k : Config) : List Region := [k.asset, k.stage, k.fb, k.fillCell]
/-- What HOST may write (R65). -/
def hostWritable (k : Config) : List Region := [k.stage, k.fb, k.fillCell]
/-- Where DEC may read its stream (R65). -/
def decReadable (k : Config) : List Region := [k.asset, k.stage, k.fb]
/-- Where DEC may write its output (R65). -/
def decWritable (k : Config) : List Region := [k.stage, k.fb]
/-- Where a channel may read elements (R65, R185). -/
def bteReadable (k : Config) : List Region := [k.asset, k.stage, k.fb, k.fillCell]
/-- Where a channel may write elements (R65, R185). -/
def bteWritable (k : Config) : List Region := [k.stage, k.fb, k.display]

/-- The bytes a pointer passes over in `count` elements of `esize` bytes: all of them when it advances, one element
when it does not, none when `count` is 0 (R185). -/
def rangeLen (inc : Bool) (count esize : Nat) : Nat :=
  if count = 0 then 0 else if inc then count * esize else esize

/-- A `count` operand in a register of `COUNT_BITS` bits (R26; log entry 21). It is the operand itself where
`COUNT_BITS` is 32, the value of R9. -/
def countField (k : Config) (count : U32) : U32 := BitVec.ofNat 32 (count.toNat % 2 ^ k.countBits)

/-- Framebuffer pixel `(x, y)` is pixel index `y*WIDTH + x` (R69). -/
def pixelIndex (k : Config) (x y : Nat) : Nat := y * k.width + x

/-- The framebuffer word `FBW[i]` (R15, R63). -/
def State.fbWord (s : State) (i : Nat) : U16 := BitVec.ofNat 16 (s.mem.read (s.cfg.fbBase + 2 * i) 2)

/-- The native pixel that the framebuffer word `FBW[i]` stands for: its two bytes exchanged (R63). -/
def State.nativePixel (s : State) (i : Nat) : U16 := swap16 (s.fbWord i)

end Sys2Proof.Machine
end

