-- ==== Sys2Proof/Machine/Ops.lean ====
section
/-! DEFINITION. The operations the meanings share: raising a fault and refusing a command (60_exceptions.md R291 to
R299), reads and writes of memory and of the display port (R62, R68), the registers of a channel, the schedule (R76),
and a composite command's expansion (R119). There is no return from a fault and no handler (R297). -/

namespace Sys2Proof.Machine

/-- What a step answers. -/
abbrev Outcome := Host.Outcome State Fault Refusal

/-- The fault codes (R291). -/
inductive FaultCode where
  | streamUnderrun
  | lengthExceedsBuffer
  | outputOverrun
  | overlap
  | access
  | misaligned
  | configInvalid
  | bteBusy
  | notConfigured
  /-- A guard that none of the spec's rules raises (R291, R38). -/
  | unwrittenRead
deriving DecidableEq, Repr

/-- The 8-bit code of a fault (R291). -/
def FaultCode.code : FaultCode → Byte
  | .streamUnderrun => 0x01
  | .lengthExceedsBuffer => 0x02
  | .outputOverrun => 0x03
  | .overlap => 0x05
  | .access => 0x10
  | .misaligned => 0x11
  | .configInvalid => 0x12
  | .bteBusy => 0x13
  | .notConfigured => 0x14
  | .unwrittenRead => 0x1F

/-- Why an operation does not take effect: it raises a fault, or it is refused. -/
inductive Trap where
  | raise (f : FaultCode) (info : U32)
  | refuse
deriving DecidableEq, Repr

/-- `raise CODE(info)` (R294): the fault register is written if it holds no fault yet, and nothing else changes. -/
def State.raise (s : State) (f : FaultCode) (info : U32) : State :=
  if s.fault.valid then s else { s with fault := ⟨true, f.code, info⟩ }

/-- A refusal sets the mark and "changes nothing else" (R299). -/
def State.refuse (s : State) : State := { s with refused := true }

/-- TAKING AN EXCEPTION: the state after a fault is raised or a command refused (R294, R299). -/
def State.trap (s : State) : Trap → State
  | .raise f info => s.raise f info
  | .refuse => s.refuse

/-- What an operation gives: its new state, or the trap that discards all its assignments (R294, "faults are
precise"). -/
abbrev Attempt := Except Trap State

/-- The outcome of an operation attempted in state `s`: its new state, or `s` with the trap taken. -/
def settle (s : State) : Attempt → Outcome
  | .ok t => .next t
  | .error e => .next (s.trap e)

/-- `MemRead(a, n)` (R15). -/
def State.load (s : State) (a n : Nat) : U32 := BitVec.ofNat 32 (s.mem.read a n)

/-- `MemWrite(a, n, v)` (R15); a write to an address inside `DISPLAY_PORT` stores nothing and appends the `n` bytes of
`v` to `wire`, lowest first (R68). -/
def State.store (s : State) (a n : Nat) (v : U32) : State :=
  if holds s.cfg.display a 1 then { s with wire := s.wire ++ lowBytes v n }
  else { s with mem := s.mem.write a n v.toNat }

/-- Byte address of stream word `i`, `in_base + 2*i`, without wrap (R15, R74). -/
def Dec.inAddr (d : Dec) (i : Nat) : Nat := d.inBase.toNat + 2 * i

/-- Byte address of output slot `j`, `out_base + 2*j`, without wrap (R15, R74). -/
def Dec.outAddr (d : Dec) (j : Nat) : Nat := d.outBase.toNat + 2 * j

/-- `IN[i]` (R15). -/
def State.streamWord (s : State) (i : Nat) : U16 := BitVec.ofNat 16 (s.mem.read (s.dec.inAddr i) 2)

/-- `OUT[j]` as it stands in memory (R15). -/
def State.slot (s : State) (j : Nat) : U16 := BitVec.ofNat 16 (s.mem.read (s.dec.outAddr j) 2)

/-- `OUT[dec.cur] <- v` (R15). -/
def State.storeSlot (s : State) (v : U16) : State := s.store (s.dec.outAddr s.dec.cur.toNat) 2 (zext32 v)

/-- Write channel `c`'s registers; there is nothing to write when `c` is no channel. -/
def State.setChannel (s : State) (c : Nat) (ch : Channel) : State := { s with bte := s.bte.set c ch }

/-- The agent whose turn it is: the tape's first entry, or the free choice where the tape is empty (R76; log entry
3). -/
def State.turn (s : State) : Agent :=
  match s.tape with
  | a :: _ => a
  | [] => Config.freeTurn s.turns

/-- The turn is used up. -/
def State.passTurn (s : State) : State := { s with tape := s.tape.tail, turns := s.turns + 1 }

/-- A composite command: its first primitive command takes effect now and the others are left for HOST's next steps;
where the first traps, nothing is left (R119, R295). -/
def andThen (first : Attempt) (others : List Instr) : Attempt :=
  match first with
  | .ok t => .ok { t with pending := others ++ t.pending }
  | .error e => .error e

end Sys2Proof.Machine
end

