-- ==== Sys2Proof/Machine/Decompress.lean ====
section
/-! DEFINITION. The decompressor DEC (40_codec_decompress.md): the command DECOMPRESS and the stream instructions HDR,
SKIP, LITRUN and PIXEL (the literal step), with the repeat step of R138. A stream instruction whose DEC step is not
enabled (its `dec.st` is another) changes nothing: that step is blocked (R16). -/

namespace Sys2Proof.Machine

/-- The checks of DECOMPRESS in R133's order. -/
def decompressCheck (k : Config) (inBase inLen outBase outLen : U32) : Option Trap :=
  if !aligned inBase.toNat 2 then some (.raise .misaligned inBase)
  else if !aligned outBase.toNat 2 then some (.raise .misaligned outBase)
  else if !admitted (decReadable k) inBase.toNat (2 * inLen.toNat) then some (.raise .access inBase)
  else if !admitted (decWritable k) outBase.toNat (2 * outLen.toNat) then some (.raise .access outBase)
  else if !shareNoByte inBase.toNat (2 * inLen.toNat) outBase.toNat (2 * outLen.toNat) then
    some (.raise .overlap outBase)
  else none

/-- DECOMPRESS (R133): after the checks DEC is set to read the header and HOST is blocked on it. -/
def decompressOp (inBase inLen outBase outLen : U32) (s : State) : Attempt :=
  match decompressCheck s.cfg inBase inLen outBase outLen with
  | some e => .error e
  | none =>
    .ok { s with
      dec := { s.dec with
        inBase := inBase, inLen := inLen, outBase := outBase, outLen := outLen, ip := 0, cur := 0, st := .hdr }
      hostWait := .onDec }

/-- A command that is not admitted now is still to be issued: HOST has no enabled step but this one again (R16,
"blocked"). -/
def State.reissue (s : State) (i : Instr) : State := { s with pending := i :: s.pending }

/-- DECOMPRESS (R133), admitted when `dec.st` is IDLE or DONE; it cannot be issued while DEC is busy, "because HOST is
blocked for exactly that time". -/
def execDecompress (inBase inLen outBase outLen : U32) (s : State) : Outcome :=
  if s.decBusy then .next (s.reissue (.decompress inBase inLen outBase outLen))
  else settle s (decompressOp inBase inLen outBase outLen s)

/-- The outcome of the DEC step attempted while `dec.st` must be `st` (R134, R135, R138: "enabled when"). -/
def decStepWhen (st : DecState) (s : State) (a : Attempt) : Outcome :=
  if s.dec.st = st then settle s a else .next s

/-- The state DEC goes to at the end of a record or of a skip: DONE when the cursor has reached N, else CTRL (R136 to
R139). -/
def Dec.nextSt (d : Dec) : DecState := if d.cur.toNat = d.n.toNat then .done else .ctrl

/-- The header step (R134). -/
def hdrOp (n : U16) (s : State) : Attempt :=
  if s.dec.inLen.toNat ≤ s.dec.ip.toNat then .error (.raise .streamUnderrun s.dec.ip)
  else if s.dec.outLen.toNat < n.toNat then .error (.raise .lengthExceedsBuffer (zext32 n))
  else .ok { s with dec := { s.dec with ip := s.dec.ip + 1, n := n, st := if n = 0 then .done else .ctrl } }

/-- A control word that is a SKIP (R135, R136); no memory is written, and `dec.d` and `dec.r` are not touched. -/
def skipOp (r : Byte) (s : State) : Attempt :=
  if s.dec.inLen.toNat ≤ s.dec.ip.toNat then .error (.raise .streamUnderrun s.dec.ip)
  else if s.dec.n.toNat < s.dec.cur.toNat + r.toNat then .error (.raise .outputOverrun s.dec.ip)
  else
    let d := { s.dec with ip := s.dec.ip + 1, cur := s.dec.cur + r.setWidth 17 }
    .ok { s with dec := { d with st := d.nextSt } }

/-- A control word that is a LITRUN (R135, R137): its two checks, the underrun first, and no write. -/
def litrunOp (r d : Byte) (s : State) : Attempt :=
  if s.dec.inLen.toNat ≤ s.dec.ip.toNat then .error (.raise .streamUnderrun s.dec.ip)
  else if s.dec.inLen.toNat < s.dec.ip.toNat + 1 + d.toNat then .error (.raise .streamUnderrun s.dec.inLen)
  else if s.dec.n.toNat < s.dec.cur.toNat + d.toNat + r.toNat then .error (.raise .outputOverrun s.dec.ip)
  else .ok { s with dec := { s.dec with ip := s.dec.ip + 1, d := d, r := r, st := .lit } }

/-- The literal step (R138): the payload word `v` goes to the slot at the cursor. -/
def literalOp (v : U16) (s : State) : State :=
  let t := s.storeSlot v
  let d := { t.dec with ip := t.dec.ip + 1, cur := t.dec.cur + 1, last := v, d := t.dec.d - 1 }
  { t with dec := { d with st := if d.d = 0 then (if d.r = 0 then d.nextSt else .rep) else .lit } }

/-- The repeat step (R138): the last literal goes to the slot at the cursor once more. It has no word of its own. -/
def repeatOp (s : State) : State :=
  let t := s.storeSlot s.dec.last
  let d := { t.dec with cur := t.dec.cur + 1, r := t.dec.r - 1 }
  { t with dec := { d with st := if d.r = 0 then d.nextSt else .rep } }

/-- HDR (R134). -/
def execHdr (n : U16) (s : State) : Outcome := decStepWhen .hdr s (hdrOp n s)

/-- SKIP (R136). -/
def execSkip (r : Byte) (s : State) : Outcome := decStepWhen .ctrl s (skipOp r s)

/-- LITRUN, its control word (R137). -/
def execLitrun (r d : Byte) (s : State) : Outcome := decStepWhen .ctrl s (litrunOp r d s)

/-- PIXEL, one payload word of a LITRUN: the literal step (R138), which cannot fault. -/
def execPixel (v : U16) (s : State) : Outcome := decStepWhen .lit s (.ok (literalOp v s))

end Sys2Proof.Machine
end

