-- ==== Sys2Proof/Machine/HostAccess.lean ====
section
/-! DEFINITION. HOST_READ and HOST_WRITE, the CPU's own loads and stores (20_memory.md R86, R65, R71). -/

namespace Sys2Proof.Machine

/-- The checks of a HOST access of `n` bytes at `addr`, in R295's order: `n` legal, address aligned, access inside one
region HOST may use that way. -/
def hostAccessCheck (rs : List Region) (addr n : U32) : Option Trap :=
  if !legalSize n.toNat then some (.raise .configInvalid addr)
  else if !aligned addr.toNat n.toNat then some (.raise .misaligned addr)
  else if !admitted rs addr.toNat n.toNat then some (.raise .access addr)
  else none

/-- HOST_READ (R86): returns `MemRead(addr, n)`. -/
def hostReadOp (addr n : U32) (s : State) : Attempt :=
  match hostAccessCheck (hostReadable s.cfg) addr n with
  | some e => .error e
  | none => .ok { s with ret := s.load addr.toNat n.toNat }

/-- HOST_WRITE (R86): performs `MemWrite(addr, n, v)`. -/
def hostWriteOp (addr n v : U32) (s : State) : Attempt :=
  match hostAccessCheck (hostWritable s.cfg) addr n with
  | some e => .error e
  | none => .ok (s.store addr.toNat n.toNat v)

/-- HOST_READ (R86). -/
def execHostRead (addr n : U32) (s : State) : Outcome := settle s (hostReadOp addr n s)

/-- HOST_WRITE (R86). -/
def execHostWrite (addr n v : U32) (s : State) : Outcome := settle s (hostWriteOp addr n v s)

end Sys2Proof.Machine
end

