-- ==== Sys2Proof/Machine/Transfer.lean ====
section
/-! DEFINITION. The block-transfer engine BTE (42_block_transfer.md): CONFIGURE, START, WAIT, POLL_REMAINING, the
element step of a channel, and the composites FILL, COPY, BULK_READ, SCANOUT_CFG, each the sequence of primitive
commands of its rule (R192, R119). -/

namespace Sys2Proof.Machine

/-- The checks of CONFIGURE, in the order of R182 and R295. `scan` says that the command is a part of SCAN_START
(R234). -/
def configureCheck (scan : Bool) (c src dst esize opts : U32) (s : State) : Option Trap :=
  if s.numCh ≤ c.toNat then some (.raise .configInvalid c)
  else if !legalSize esize.toNat then some (.raise .configInvalid c)
  else if !optsValid opts then some (.raise .configInvalid c)
  else if c.toNat = scanCh ∧ scan = false then some .refuse
  else if (s.channel c.toNat).remaining ≠ 0 then some (.raise .bteBusy c)
  else if !aligned src.toNat esize.toNat then some (.raise .misaligned src)
  else if !aligned dst.toNat esize.toNat then some (.raise .misaligned dst)
  else none

/-- The registers CONFIGURE writes (R182); `remaining`, `rd_ptr` and `wr_ptr` are not touched. -/
def Channel.configure (ch : Channel) (src dst esize count opts : U32) : Channel :=
  { ch with
    src := src, dst := dst, esize := esize.setWidth 3, count := count,
    incRd := opts.getLsbD 2, incWr := opts.getLsbD 1, bswap := opts.getLsbD 3, chain := opts.getLsbD 4,
    configured := true }

/-- CONFIGURE (R182). -/
def configureOp (scan : Bool) (c src dst esize count opts : U32) (s : State) : Attempt :=
  match configureCheck scan c src dst esize opts s with
  | some e => .error e
  | none => .ok (s.setChannel c.toNat ((s.channel c.toNat).configure src dst esize (countField s.cfg count) opts))

/-- The checks of START, in the order of R184 and R295. -/
def startCheck (scan : Bool) (c : U32) (s : State) : Option Trap :=
  let ch := s.channel c.toNat
  if s.numCh ≤ c.toNat then some (.raise .configInvalid c)
  else if c.toNat = scanCh ∧ scan = false then some .refuse
  else if ch.configured = false then some (.raise .notConfigured c)
  else if ch.remaining ≠ 0 then some (.raise .bteBusy c)
  else if ch.chain = true ∧ s.cfg.chainNoop = false then some .refuse
  else if !admitted (bteReadable s.cfg) ch.src.toNat (rangeLen ch.incRd ch.count.toNat ch.esize.toNat) then
    some (.raise .access ch.src)
  else if !admitted (bteWritable s.cfg) ch.dst.toNat (rangeLen ch.incWr ch.count.toNat ch.esize.toNat) then
    some (.raise .access ch.dst)
  else none

/-- The run registers START loads (R184). -/
def Channel.load (ch : Channel) : Channel := { ch with rdPtr := ch.src, wrPtr := ch.dst, remaining := ch.count }

/-- START (R184). -/
def startOp (scan : Bool) (c : U32) (s : State) : Attempt :=
  match startCheck scan c s with
  | some e => .error e
  | none => .ok (s.setChannel c.toNat (s.channel c.toNat).load)

/-- WAIT (R187): it returns in its first step when `remaining` is already 0, else HOST blocks on the channel. -/
def waitOp (c : U32) (s : State) : Attempt :=
  if s.numCh ≤ c.toNat then .error (.raise .configInvalid c)
  else if (s.channel c.toNat).remaining = 0 then .ok { s with hostWait := .none }
  else .ok { s with hostWait := .onCh c.toNat }

/-- POLL_REMAINING (R188): returns `remaining` and changes nothing. -/
def pollOp (c : U32) (s : State) : Attempt :=
  if s.numCh ≤ c.toNat then .error (.raise .configInvalid c)
  else .ok { s with ret := (s.channel c.toNat).remaining }

/-- The channel's registers after one element (R186). -/
def Channel.advance (ch : Channel) : Channel :=
  { ch with
    rdPtr := if ch.incRd then ch.rdPtr + zext32 ch.esize else ch.rdPtr
    wrPtr := if ch.incWr then ch.wrPtr + zext32 ch.esize else ch.wrPtr
    remaining := ch.remaining - 1 }

/-- The value a channel writes for the value it read: its bytes reversed when `bswap` is set (R186, R189). -/
def Channel.transform (ch : Channel) (v : U32) : U32 := if ch.bswap then byterev v ch.esize.toNat else v

/-- The element step of channel `c` (R186): one read, one write, three register updates, indivisible. -/
def elementOp (c : Nat) (s : State) : State :=
  let ch := s.channel c
  let v := s.load ch.rdPtr.toNat ch.esize.toNat
  (s.store ch.wrPtr.toNat ch.esize.toNat (ch.transform v)).setChannel c ch.advance

/-- The step of agent BTE[c], enabled while `remaining` is not 0 (R186); where it is not enabled nothing changes. -/
def elementStep (c : Nat) (s : State) : State := if s.channelBusy c then elementOp c s else s

/-- SCANOUT_CFG (R197): the framebuffer, incrementing, to the display port, fixed, no swap. -/
def scanoutCfgOp (scan : Bool) (s : State) : Attempt :=
  configureOp scan (BitVec.ofNat 32 scanCh) (BitVec.ofNat 32 s.cfg.fbBase) (BitVec.ofNat 32 s.cfg.displayBase)
    (BitVec.ofNat 32 s.cfg.scanElemSize) (BitVec.ofNat 32 s.cfg.scanCount) scanoutOpts s

/-- CONFIGURE issued by HOST directly (R182). -/
def execConfigure (c src dst esize count opts : U32) (s : State) : Outcome :=
  settle s (configureOp false c src dst esize count opts s)

/-- START issued by HOST directly (R184). -/
def execStart (c : U32) (s : State) : Outcome := settle s (startOp false c s)

/-- WAIT (R187). -/
def execWait (c : U32) (s : State) : Outcome := settle s (waitOp c s)

/-- POLL_REMAINING (R188). -/
def execPollRemaining (c : U32) (s : State) : Outcome := settle s (pollOp c s)

/-- FILL (R193): CONFIGURE from `FILL_CELL`, fixed source, then START. -/
def execFill (c dst count esize bswap : U32) (s : State) : Outcome :=
  settle s
    (andThen (configureOp false c (BitVec.ofNat 32 s.cfg.fillBase) dst esize count (fillOpts bswap) s) [.start c])

/-- COPY (R194): CONFIGURE, both sides incrementing, then START. -/
def execCopy (c src dst count esize bswap : U32) (s : State) : Outcome :=
  settle s (andThen (configureOp false c src dst esize count (copyOpts bswap) s) [.start c])

/-- BULK_READ (R196): CONFIGURE for `m` 16-bit words from `a` to `b`, no swap, then START. -/
def execBulkRead (c a b m : U32) (s : State) : Outcome :=
  settle s (andThen (configureOp false c a b 2 m bulkReadOpts s) [.start c])

/-- SCANOUT_CFG issued by HOST directly (R197): its one part is a CONFIGURE naming `SCAN_CH` outside SCAN_START, which
is refused (R234, R299 (b)). Its effect is given by SCAN_START. -/
def execScanoutCfg (s : State) : Outcome := settle s (scanoutCfgOp false s)

end Sys2Proof.Machine
end

