-- ==== Sys2Proof/Machine/Scanout.lean ====
section
/-! DEFINITION. The scanout pipeline SCAN and its vsync arbiter (43_scanout.md): VSYNC_WAIT, SCAN_START,
FLUSH_PROGRESS, the composites CLEAR, DRAW_BEGIN, DRAW_END and FLUSH, the two sampling steps of the wait, and the step
of ENV. -/

namespace Sys2Proof.Machine

/-- VSYNC_WAIT begins (R223): HOST is blocked, and the wait has not yet sampled the signal low. -/
def vsyncWaitOp (s : State) : Attempt := .ok { s with hostWait := .onVsync, vsPhase := .needLow }

/-- A HOST step inside VSYNC_WAIT (R223): step A on a low sample, step B, the return, on a high sample that follows
one; in any other case HOST has no enabled step and nothing changes. -/
def vsyncSample (s : State) : State :=
  match s.vsPhase with
  | .none => s
  | .needLow => if s.te then s else { s with vsPhase := .needHigh }
  | .needHigh => if s.te then { s with vsPhase := .none, hostWait := .none } else s

/-- The step of ENV (R222). -/
def envStep (s : State) : State := { s with te := !s.te }

/-- SCAN_START, one HOST step (R225): SCANOUT_CFG, START of the scanout channel, then `scan.started` and
`wire_marks`. -/
def scanStartOp (s : State) : Attempt :=
  match scanoutCfgOp true s with
  | .error e => .error e
  | .ok t =>
    match startOp true (BitVec.ofNat 32 scanCh) t with
    | .error e => .error e
    | .ok u => .ok { u with scanStarted := true, wireMarks := u.wireMarks ++ [u.wire.length] }

/-- FLUSH_PROGRESS (R226). -/
def flushProgressOp (s : State) : Attempt := .ok { s with ret := BitVec.ofNat 32 s.flushOffset }

/-- The `bswap` operand of CLEAR's fill (R228). -/
def clearSwapOperand (k : Config) : U32 := if k.clearSwap then 1 else 0

/-- What CLEAR issues after its first WAIT (R228). -/
def clearTail (k : Config) (color : U16) : List Instr :=
  [.hostWrite (BitVec.ofNat 32 k.fillBase) 2 (zext32 color),
    .fill (BitVec.ofNat 32 fillCh) (BitVec.ofNat 32 k.fbBase) (BitVec.ofNat 32 k.pixels) 2 (clearSwapOperand k),
    .wait (BitVec.ofNat 32 fillCh)]

/-- VSYNC_WAIT (R223). -/
def execVsyncWait (s : State) : Outcome := settle s (vsyncWaitOp s)

/-- SCAN_START (R225). -/
def execScanStart (s : State) : Outcome := settle s (scanStartOp s)

/-- FLUSH_PROGRESS (R226). -/
def execFlushProgress (s : State) : Outcome := settle s (flushProgressOp s)

/-- CLEAR (R228): WAIT(FILL_CH), HOST_WRITE of the colour to `FILL_CELL`, FILL of the framebuffer, WAIT(FILL_CH). -/
def execClear (color : U16) (s : State) : Outcome :=
  settle s (andThen (waitOp (BitVec.ofNat 32 fillCh) s) (clearTail s.cfg color))

/-- DRAW_BEGIN (R229): WAIT(SCAN_CH). -/
def execDrawBegin (s : State) : Outcome := settle s (waitOp (BitVec.ofNat 32 scanCh) s)

/-- DRAW_END (R230): VSYNC_WAIT, then SCAN_START. -/
def execDrawEnd (s : State) : Outcome := settle s (andThen (vsyncWaitOp s) [.scanStart])

/-- FLUSH (R232): VSYNC_WAIT, SCAN_START, WAIT(SCAN_CH). -/
def execFlush (s : State) : Outcome :=
  settle s (andThen (vsyncWaitOp s) [.scanStart, .wait (BitVec.ofNat 32 scanCh)])

end Sys2Proof.Machine
end

