-- ==== Sys2Proof/Machine/Dispatch.lean ====
section
/-! DEFINITION. One arm per constructor of Instr: the meaning of an instruction (every one has its own). -/

namespace Sys2Proof.Machine

/-- The meaning of instruction `i` in state `s`. -/
def exec (i : Instr) (s : State) : Host.Outcome State Fault Refusal :=
  match i with
  | .hdr n => Sys2Proof.Machine.execHdr n s
  | .skip r => Sys2Proof.Machine.execSkip r s
  | .litrun r d => Sys2Proof.Machine.execLitrun r d s
  | .pixel v => Sys2Proof.Machine.execPixel v s
  | .hostRead addr n => Sys2Proof.Machine.execHostRead addr n s
  | .hostWrite addr n v => Sys2Proof.Machine.execHostWrite addr n v s
  | .decompress inBase inLen outBase outLen => Sys2Proof.Machine.execDecompress inBase inLen outBase outLen s
  | .configure c src dst esize count opts => Sys2Proof.Machine.execConfigure c src dst esize count opts s
  | .start c => Sys2Proof.Machine.execStart c s
  | .wait c => Sys2Proof.Machine.execWait c s
  | .pollRemaining c => Sys2Proof.Machine.execPollRemaining c s
  | .vsyncWait => Sys2Proof.Machine.execVsyncWait s
  | .scanStart => Sys2Proof.Machine.execScanStart s
  | .flushProgress => Sys2Proof.Machine.execFlushProgress s
  | .clear color => Sys2Proof.Machine.execClear color s
  | .drawBegin => Sys2Proof.Machine.execDrawBegin s
  | .drawEnd => Sys2Proof.Machine.execDrawEnd s
  | .flush => Sys2Proof.Machine.execFlush s
  | .fill c dst count esize bswap => Sys2Proof.Machine.execFill c dst count esize bswap s
  | .copy c src dst count esize bswap => Sys2Proof.Machine.execCopy c src dst count esize bswap s
  | .bulkRead c a b m => Sys2Proof.Machine.execBulkRead c a b m s
  | .scanoutCfg => Sys2Proof.Machine.execScanoutCfg s

end Sys2Proof.Machine
end

