-- ==== Sys2Proof/Machine/Agents.lean ====
section
/-! DEFINITION. The step of each agent (00_scope.md R8) around `exec`: where HOST and DEC fetch their next instruction,
the return of a blocked HOST command (R141, R187, R223), and where a table row's word stands to be fetched. An agent
that has no enabled step leaves the state as it is when its turn comes (log entry 3). -/

namespace Sys2Proof.Machine

/-- What HOST finds when it goes to issue its next command. -/
inductive HostFetch where
  /-- A command, and the state with the command taken off the program. -/
  | command (i : Instr) (s : State)
  /-- A command code outside the table (R299 (a)), and the state with the program's rest. -/
  | unknown (s : State)
  /-- The program holds no whole command: HOST has nothing to issue. -/
  | nothing
deriving DecidableEq, Repr

/-- HOST's next command: the next part of the composite it is in (R119), else the next command of its program. -/
def State.hostFetch (s : State) : HostFetch :=
  match s.pending with
  | i :: rest => .command i { s with pending := rest }
  | [] =>
    match decode .command s.prog with
    | .ok i rest => .command i { s with prog := rest }
    | .unknownOp _ => .unknown { s with prog := s.prog.tail }
    | .truncated => .nothing

/-- HOST issues its next command; a code outside the table is refused (R299 (a)). -/
def hostIssue (s : State) : Outcome :=
  match s.hostFetch with
  | .command i t => exec i t
  | .unknown t => .next t.refuse
  | .nothing => .next s

/-- A HOST step: the return of the command HOST is blocked in where its condition holds (R141, R187, R223), a new
command where HOST is not blocked. -/
def hostStep (s : State) : Outcome :=
  match s.hostWait with
  | .none => hostIssue s
  | .onDec => .next (if s.dec.st = .done then { s with hostWait := .none } else s)
  | .onCh c => .next (if (s.channel c).remaining = 0 then { s with hostWait := .none } else s)
  | .onVsync => .next (vsyncSample s)

/-- The position of the stream word DEC reads next, where its next step reads one (R22, R106). -/
def DecState.position : DecState → Option Position
  | .idle => none
  | .hdr => some .header
  | .ctrl => some .control
  | .lit => some .payload
  | .rep => none
  | .done => none

/-- A header or control word is needed at an index at or past the end of the stream (R134, R135). -/
def State.streamEnded (s : State) : Bool :=
  (s.dec.st == .hdr || s.dec.st == .ctrl) && decide (s.dec.inLen.toNat ≤ s.dec.ip.toNat)

/-- The instruction DEC fetches: the stream word at index `dec.ip`, two bytes from memory, decoded by its position
(R23, R81, R106). -/
def State.decFetch (s : State) : Option Instr :=
  match s.dec.st.position with
  | none => none
  | some p =>
    match decode p [s.mem.byte (s.dec.inAddr s.dec.ip.toNat), s.mem.byte (s.dec.inAddr s.dec.ip.toNat + 1)] with
    | .ok i _ => some i
    | .unknownOp _ => none
    | .truncated => none

/-- A DEC step (R134 to R138): the missing word of a stream that ended, the instruction fetched, or the repeat step,
which reads no word. -/
def decStep (s : State) : Outcome :=
  if s.streamEnded then .next (s.trap (.raise .streamUnderrun s.dec.ip))
  else
    match s.decFetch with
    | some i => exec i s
    | none => .next (if s.dec.st = .rep then repeatOp s else s)

/-- The step of agent `a` (R8). -/
def agentStep (a : Agent) (s : State) : Outcome :=
  match a with
  | .host => hostStep s
  | .dec => decStep s
  | .bte c => .next (elementStep c s)
  | .env => .next (envStep s)

/-- `s` with a stream word `w` where DEC fetches its next control word: DEC mid-stream at word 0 of a 256-word stream in
the staging region, with 510 slots of output in the framebuffer, the most one record needs (R137). -/
def State.withStreamWord (s : State) (w : Nat) : State :=
  { s with
    mem := s.mem.write s.cfg.stage.base 2 (w % 2 ^ 16)
    dec := { s.dec with
      st := .ctrl, inBase := BitVec.ofNat 32 s.cfg.stage.base, inLen := 256,
      outBase := BitVec.ofNat 32 s.cfg.fbBase, outLen := 510, ip := 0, n := 510, cur := 0 }
    hostWait := .onDec
    tape := .dec :: s.tape }

/-- `s` with a command's bytes at the front of HOST's program, HOST free to issue it. -/
def State.withCommand (s : State) (bs : List Byte) : State :=
  { s with prog := bs, pending := [], hostWait := .none, vsPhase := .none, tape := .host :: s.tape }

/-- `s` with a table row's word where the next step fetches its instruction, the machine not stopped. -/
def State.placeTableWord (s : State) (nbits w : Nat) : State :=
  let t := { s with fault := { s.fault with valid := false }, refused := false }
  if nbits = 16 then t.withStreamWord w
  else t.withCommand (tableBytes nbits w)

end Sys2Proof.Machine
end

