-- ==== Sys2Proof/Machine/Step.lean ====
section
/-! DEFINITION. One step of the machine: the agent whose turn it is steps (R76), unless a fault or a refusal has stopped
the machine (R296, R299). -/

namespace Sys2Proof.Machine

/-- One step. A machine whose fault register is valid, or whose refusal mark is set, has no step of any agent; else the
agent whose turn it is takes one, and the turn is used up. -/
def step (s : State) : Host.Outcome State Fault Refusal :=
  if s.fault.valid then .fault (.halted s.fault.code s.fault.info)
  else if s.refused then .refused .afterRefusal
  else agentStep s.turn s.passTurn

/-- `s` with the instruction of a table row's word where the very next step fetches it (log entry 7): a 16-bit stream
word stands where DEC reads its next control word, an 8-bit command code at the front of HOST's program, and the turn
is that agent's. -/
def State.withFetchWord (s : State) (nbits w : Nat) : State := s.placeTableWord nbits w

end Sys2Proof.Machine
end

