-- ==== Sys2Proof/Machine/Fairness.lean ====
section
/-! DEFINITION. The inputs of a run given for ever: the schedule and HOST's program, which R20 makes parameters of the
step relation and no state; the run they give; and the assumptions on runs the spec names: weak fairness (20_memory.md
R85) and `VSYNC_LIVE` (43_scanout.md R224). No step builds an assumption in (log entry 3); a statement that something
returns takes it as a premise (log entry 22). -/

namespace Sys2Proof.Machine

/-- A schedule: the agent of every turn (R20, R76). -/
abbrev Schedule := Nat → Agent

/-- HOST's program (R20, R332): the bytes of its first command, of its second, and so on for ever. -/
abbrev Program := Nat → List Byte

/-- The finite program of these commands: no bytes come after the last. -/
def Program.ofList (commands : List (List Byte)) : Program := fun n => commands.getD n []

/-- The bytes of one command: of an instruction of R111's table, or of a code outside it (R299 (a)). -/
def WholeCommand (bs : List Byte) : Prop :=
  (∃ i, decode .command bs = .ok i []) ∨ ∃ op, bs = [op] ∧ decode .command bs = .unknownOp op

/-- The program is "a given finite or infinite sequence of commands" (R332): one whole command after another, for ever
or up to an end after which nothing comes. -/
def Program.isSequence (p : Program) : Prop := ∀ n, WholeCommand (p n) ∨ ∀ m, n ≤ m → p m = []

/-- The state after a turn of agent `a` before which the bytes `bs` join HOST's program: the machine's step with that
turn; a stopped machine stays as it is (R296, R299). -/
def State.afterTurn (a : Agent) (bs : List Byte) (s : State) : State :=
  match step { s with tape := [a], prog := s.prog ++ bs } with
  | .next t => t
  | .fault _ => s
  | .refused _ => s

/-- The state after the first `n` turns of the schedule `f` from `s`, HOST's program being the commands `s` holds and
then those of `p` (R20, R332). Command `k` of `p` joins the queue at turn `k`: HOST issues one command a turn at most,
so it has each at hand when it comes to issue it (log entry 5). -/
def State.runTo (s : State) (f : Schedule) (p : Program) : Nat → State
  | 0 => s
  | n + 1 => (s.runTo f p n).afterTurn (f n) (p n)

/-- In the run from `s`, HOST comes to be blocked on nothing, with no fault and no refusal recorded: the command it was
blocked in has returned (R85, R300). -/
def State.hostReturns (s : State) (f : Schedule) (p : Program) : Prop :=
  ∃ n, (s.runTo f p n).stopped = false ∧ (s.runTo f p n).hostWait = .none

/-- Weak fairness of the run from `s` (R85). In a run that stops, nothing is asked of the turns after it. -/
structure WeaklyFair (f : Schedule) (p : Program) (s : State) : Prop where
  /-- "a channel whose `remaining` is not 0 eventually takes a step". -/
  channels : ∀ n c, (s.runTo f p n).stopped = false → ((s.runTo f p n).channel c).remaining ≠ 0 →
    ∃ m, n ≤ m ∧ f m = .bte c
  /-- "DEC when busy eventually takes a step". -/
  dec : ∀ n, (s.runTo f p n).stopped = false → (s.runTo f p n).decBusy = true → ∃ m, n ≤ m ∧ f m = .dec
  /-- "ENV eventually produces a low level and then a high level of `vs.te` after any point". -/
  env : ∀ n, (∃ m, (s.runTo f p m).stopped = true) ∨
    ∃ low high, n ≤ low ∧ low < high ∧ (s.runTo f p low).te = false ∧ (s.runTo f p high).te = true

/-- HOST is scheduled again and again. R85 does not list HOST; the return of a wait is a HOST step, so the returns R85
speaks of need it (DEDUCED, log entry 22). -/
def HostTurns (f : Schedule) : Prop := ∀ n, ∃ m, n ≤ m ∧ f m = .host

/-- Step A of the vsync wait is enabled (R223). -/
abbrev State.stepAEnabled (s : State) : Prop :=
  s.stopped = false ∧ s.hostWait = .onVsync ∧ s.vsPhase = .needLow ∧ s.te = false

/-- Step B of the vsync wait is enabled (R223). -/
abbrev State.stepBEnabled (s : State) : Prop :=
  s.stopped = false ∧ s.hostWait = .onVsync ∧ s.vsPhase = .needHigh ∧ s.te = true

/-- `VSYNC_LIVE` of the run from `s` (R224), said of every moment of a wait, and so of a run that starts inside one: a
wait that needs step A finds it enabled at a turn of HOST, and one that has taken it finds step B so. After the return
nothing is asked. That this is R224's "every VSYNC_WAIT that begins eventually finds step A and later step B enabled at
a moment HOST is scheduled" is proved in Laws/Fairness.lean (`vsyncLive_iff`). -/
structure VsyncLive (f : Schedule) (p : Program) (s : State) : Prop where
  stepA : ∀ n, (s.runTo f p n).hostWait = .onVsync → (s.runTo f p n).vsPhase = .needLow →
    ∃ a, n ≤ a ∧ f a = .host ∧ (s.runTo f p a).stepAEnabled
  stepB : ∀ n, (s.runTo f p n).hostWait = .onVsync → (s.runTo f p n).vsPhase = .needHigh →
    ∃ b, n ≤ b ∧ f b = .host ∧ (s.runTo f p b).stepBEnabled

end Sys2Proof.Machine
end

