-- ==== Sys2Proof/Machine/Listing.lean ====
section
/-! DEFINITION. The spec's own textual forms, as data: one line of a stream listing and the words it assembles to, with
the assembly errors of 30_encoding.md R117, the mnemonics of R111 (lower case, R118), and the colour fields of a native
pixel, which no rule reads (R19). -/

namespace Sys2Proof.Machine

/-- One line of a stream listing (R117). -/
inductive Line where
  /-- `hdr N`. -/
  | hdr (n : Nat)
  /-- `lit d, r : v0 v1 ...`. -/
  | lit (d r : Nat) (values : List U16)
  /-- `skip r`. -/
  | skip (r : Nat)
deriving DecidableEq, Repr

/-- The words of a line, or none where the line is an assembly error: a value that does not fit its field, a `d` outside
1 to 255, or a literal list of a length other than `d` (R117). -/
def Line.words : Line → Option (List U16)
  | .hdr n => if n < 2 ^ 16 then some [BitVec.ofNat 16 n] else none
  | .lit d r values =>
    if 1 ≤ d ∧ d ≤ 255 ∧ r ≤ 255 ∧ values.length = d then
      some (ctrl (BitVec.ofNat 8 d) (BitVec.ofNat 8 r) :: values)
    else none
  | .skip r => if r ≤ 255 then some [ctrl 0 (BitVec.ofNat 8 r)] else none

/-- The words of a listing, or none where one of its lines is an error (R117). -/
def assemble : List Line → Option (List U16)
  | [] => some []
  | l :: rest =>
    match l.words, assemble rest with
    | some ws, some more => some (ws ++ more)
    | _, _ => none

/-- The word an instruction is written with in a listing (R117, R118); a payload word has none, it is one of the
values of its `lit` line. -/
def mnemonic : Instr → String
  | .hdr _ => "hdr"
  | .skip _ => "skip"
  | .litrun _ _ => "lit"
  | .pixel _ => ""
  | .hostRead _ _ => "host_read"
  | .hostWrite _ _ _ => "host_write"
  | .decompress _ _ _ _ => "decompress"
  | .configure _ _ _ _ _ _ => "configure"
  | .start _ => "start"
  | .wait _ => "wait"
  | .pollRemaining _ => "poll_remaining"
  | .vsyncWait => "vsync_wait"
  | .scanStart => "scan_start"
  | .flushProgress => "flush_progress"
  | .clear _ => "clear"
  | .drawBegin => "draw_begin"
  | .drawEnd => "draw_end"
  | .flush => "flush"
  | .fill _ _ _ _ _ => "fill"
  | .copy _ _ _ _ _ _ => "copy"
  | .bulkRead _ _ _ _ => "bulk_read"
  | .scanoutCfg => "scanout_cfg"

/-- The colour fields of a native pixel, 5-6-5 (R19; from general knowledge, log entry 11). -/
def pixelRed (p : U16) : BitVec 5 := p.extractLsb' 11 5
def pixelGreen (p : U16) : BitVec 6 := p.extractLsb' 5 6
def pixelBlue (p : U16) : BitVec 5 := p.extractLsb' 0 5

end Sys2Proof.Machine
end

