-- ==== Sys2Proof/Machine/Reference.lean ====
section
/-! DEFINITION. The two functions the spec states the codec through, on lists of 16-bit words: `Decompress` (R132), the
normative statement of what DEC computes, with the well-formed streams of R131, and the reference encoder `Compress`
(R160 to R165), which is no agent and no command. -/

namespace Sys2Proof.Machine

/-- `dataLength` and `runLength` of a control word (R102). -/
def ctrlDataLength (w : U16) : Byte := w.extractLsb' 0 8
def ctrlRunLength (w : U16) : Byte := w.extractLsb' 8 8

/-- `xs` with `vs` written over it from index `j` on; what would fall past the end is dropped. -/
def overwrite {α : Type} (xs : List α) (j : Nat) (vs : List α) : List α :=
  xs.take j ++ (vs.take (xs.length - j)) ++ xs.drop (j + vs.length)

/-- The slots a LITRUN record writes: its literals, then the last literal `r` more times (R137). -/
def recordSlots (lits : List U16) (r : Nat) : List U16 := lits ++ List.replicate r (lits.getLastD 0)

/-- A fault of `Decompress`: its code and its info (R132, R291). -/
abbrev StreamFault := FaultCode × U32

/-- The record loop of `Decompress` (R132) on stream `S` for header `n`, from stream index `ip` and cursor `cur`.
`fuel` bounds the records: each takes at least one word, so a loop that starts with `fuel` at least `|S| - ip` never
runs out before the stream does. -/
def decompressLoop (S : List U16) (n : Nat) : Nat → Nat → Nat → List U16 → Except StreamFault (List U16)
  | 0, ip, cur, O => if n ≤ cur then .ok O else .error (.streamUnderrun, BitVec.ofNat 32 ip)
  | fuel + 1, ip, cur, O =>
    if n ≤ cur then .ok O
    else if S.length ≤ ip then .error (.streamUnderrun, BitVec.ofNat 32 ip)
    else
      let w := S.getD ip 0
      let d := (ctrlDataLength w).toNat
      let r := (ctrlRunLength w).toNat
      if d = 0 then
        if n < cur + r then .error (.outputOverrun, BitVec.ofNat 32 ip)
        else decompressLoop S n fuel (ip + 1) (cur + r) O
      else if S.length < ip + 1 + d then .error (.streamUnderrun, BitVec.ofNat 32 S.length)
      else if n < cur + d + r then .error (.outputOverrun, BitVec.ofNat 32 ip)
      else
        decompressLoop S n fuel (ip + 1 + d) (cur + d + r)
          (overwrite O cur (recordSlots ((S.drop (ip + 1)).take d) r))

/-- `Decompress(S, O)` (R132). -/
def decompressRef (S O : List U16) : Except StreamFault (List U16) :=
  match S with
  | [] => .error (.streamUnderrun, 0)
  | n :: _ =>
    if O.length < n.toNat then .error (.lengthExceedsBuffer, zext32 n)
    else decompressLoop S n.toNat S.length 1 0 O

/-- The records of a well-formed stream (R131 (c)), from stream index `ip` and cursor `cur`; `fuel` as above. -/
def wellFormedRecords (S : List U16) (n : Nat) : Nat → Nat → Nat → Bool
  | 0, _, cur => cur == n
  | fuel + 1, ip, cur =>
    if n ≤ cur then cur == n
    else if S.length ≤ ip then false
    else
      let d := (ctrlDataLength (S.getD ip 0)).toNat
      let r := (ctrlRunLength (S.getD ip 0)).toNat
      if d = 0 then decide (cur + r ≤ n) && wellFormedRecords S n fuel (ip + 1) (cur + r)
      else
        decide (ip + 1 + d ≤ S.length) && decide (cur + d + r ≤ n) &&
          wellFormedRecords S n fuel (ip + 1 + d) (cur + d + r)

/-- `S` is well-formed for an output buffer of `M` slots (R131). -/
def wellFormedStream (S : List U16) (M : Nat) : Bool :=
  match S with
  | [] => false
  | n :: _ => decide (n.toNat ≤ M) && wellFormedRecords S n.toNat S.length 1 0

/-- The control words a decoder meets (R106, R139), from stream index `ip` and cursor `cur`; `fuel` as above. -/
def controlWordsFrom (S : List U16) (n : Nat) : Nat → Nat → Nat → List U16
  | 0, _, _ => []
  | fuel + 1, ip, cur =>
    if n ≤ cur ∨ S.length ≤ ip then []
    else
      let w := S.getD ip 0
      w :: controlWordsFrom S n fuel (ip + 1 + (ctrlDataLength w).toNat)
        (cur + (ctrlDataLength w).toNat + (ctrlRunLength w).toNat)

/-- The control words of a stream (R100). -/
def controlWords (S : List U16) : List U16 := controlWordsFrom S (S.getD 0 0).toNat S.length 1 0

/-- The state of the encoder's single pass: the words emitted, the pending literal run, the trailing repeat count
(R162). -/
structure Encoder where
  out : List U16
  lit : List U16
  rep : Nat
deriving DecidableEq, Repr

/-- `emit(lit, rep)`: the control word, then the literals (R162). -/
def Encoder.emit (e : Encoder) : List U16 :=
  e.out ++ [ctrl (BitVec.ofNat 8 e.lit.length) (BitVec.ofNat 8 e.rep)] ++ e.lit

/-- One pixel of the pass (R162 to R164), with the parameter `RUN_MIN_FLUSH` of `k`. -/
def Encoder.push (k : Config) (e : Encoder) (v : U16) : Encoder :=
  match e.lit.getLast? with
  | none => ⟨e.out, [v], 0⟩
  | some last =>
    if v = last then
      if e.rep < rlenMax then ⟨e.out, e.lit, e.rep + 1⟩ else ⟨e.emit, [v], 0⟩
    else if k.runMinFlush ≤ e.rep ∨ dlenMax ≤ e.lit.length + e.rep then ⟨e.emit, [v], 0⟩
    else ⟨e.out, e.lit ++ List.replicate e.rep last ++ [v], 0⟩

/-- The end of input (R165). -/
def Encoder.finish (e : Encoder) : List U16 := if e.lit = [] then e.out else e.emit

/-- `Compress(X)` (R162) under the parameters `k`, on its domain, at most 65535 pixels; no value outside it (R161,
93_implementation_defined.md U8). -/
def compress (k : Config) (X : List U16) : Option (List U16) :=
  if nMax < X.length then none
  else some (X.foldl (Encoder.push k) ⟨[BitVec.ofNat 16 X.length], [], 0⟩).finish

end Sys2Proof.Machine
end

