-- ==== Sys2Proof/Safety.lean ====
section
/-! DEFINITION. What counts as a safe state, and the invariants of the machine, in the terms the statements use
(60_exceptions.md R317, 40_codec_decompress.md R143, 42_block_transfer.md R201, 43_scanout.md R235 to R237). -/

namespace Sys2Proof.Machine

/-- "Safety ("nothing went wrong") is `fault.valid = 0 and refused = 0`" (R317). -/
abbrev State.safe (s : State) : Prop := s.fault.valid = false ∧ s.refused = false

/-- A step, or a run, answered the next state `t`. -/
abbrev Answers (o : Outcome) (t : State) : Prop := o = .next t

/-- The invariant of a decompression (R143), with the checks DECOMPRESS made of its ranges (R133). -/
abbrev DecInv (s : State) : Prop :=
  (s.dec.st ≠ .idle → decompressCheck s.cfg s.dec.inBase s.dec.inLen s.dec.outBase s.dec.outLen = none) ∧
    (s.dec.st = .hdr → s.dec.ip = 0 ∧ s.dec.cur = 0) ∧
    (s.dec.st = .ctrl →
      s.dec.cur.toNat < s.dec.n.toNat ∧ s.dec.ip.toNat ≤ s.dec.inLen.toNat ∧ s.dec.n.toNat ≤ s.dec.outLen.toNat) ∧
    (s.dec.st = .lit →
      1 ≤ s.dec.d.toNat ∧ s.dec.ip.toNat + s.dec.d.toNat ≤ s.dec.inLen.toNat ∧
        s.dec.cur.toNat + s.dec.d.toNat + s.dec.r.toNat ≤ s.dec.n.toNat ∧ s.dec.n.toNat ≤ s.dec.outLen.toNat) ∧
    (s.dec.st = .rep →
      1 ≤ s.dec.r.toNat ∧ s.dec.ip.toNat ≤ s.dec.inLen.toNat ∧
        s.dec.cur.toNat + s.dec.r.toNat ≤ s.dec.n.toNat ∧ s.dec.n.toNat ≤ s.dec.outLen.toNat) ∧
    (s.dec.st = .done →
      s.dec.cur.toNat = s.dec.n.toNat ∧ s.dec.ip.toNat ≤ s.dec.inLen.toNat ∧ s.dec.n.toNat ≤ s.dec.outLen.toNat)

/-- The invariant of one channel: only a configured channel runs, a configured channel has a legal element size and
aligned bases (R26), and what a running channel has still to read and to write is aligned and lies in regions it may
use (R71, R185, R201). -/
abbrev ChannelInv (k : Config) (ch : Channel) : Prop :=
  (ch.remaining ≠ 0 → ch.configured = true) ∧
    (ch.configured = true →
      legalSize ch.esize.toNat = true ∧ aligned ch.src.toNat ch.esize.toNat = true ∧
        aligned ch.dst.toNat ch.esize.toNat = true) ∧
    (ch.remaining ≠ 0 →
      aligned ch.rdPtr.toNat ch.esize.toNat = true ∧ aligned ch.wrPtr.toNat ch.esize.toNat = true ∧
        admitted (bteReadable k) ch.rdPtr.toNat (rangeLen ch.incRd ch.remaining.toNat ch.esize.toNat) = true ∧
        admitted (bteWritable k) ch.wrPtr.toNat (rangeLen ch.incWr ch.remaining.toNat ch.esize.toNat) = true)

/-- Every channel keeps its invariant. -/
abbrev ChannelsInv (s : State) : Prop := ∀ ch ∈ s.bte, ChannelInv s.cfg ch

/-- The scanout channel carries flushes only (R234): before the first SCAN_START it does not run, what it has still to
send is never more than the framebuffer (R237), and while it runs it reads the framebuffer upward, unswapped, into the
display port, its read pointer standing where the bytes still to be sent begin (R197, R236). -/
abbrev ScanInv (s : State) : Prop :=
  (s.scanStarted = false → (s.channel scanCh).remaining = 0) ∧
    (s.channel scanCh).remaining.toNat * s.cfg.scanElemSize ≤ 2 * s.cfg.pixels ∧
    ((s.channel scanCh).remaining ≠ 0 →
      (s.channel scanCh).esize.toNat = s.cfg.scanElemSize ∧ (s.channel scanCh).incRd = true ∧
        (s.channel scanCh).incWr = false ∧ (s.channel scanCh).bswap = false ∧
        (s.channel scanCh).wrPtr.toNat = s.cfg.displayBase ∧
        (s.channel scanCh).rdPtr.toNat + (s.channel scanCh).remaining.toNat * s.cfg.scanElemSize =
          s.cfg.fbBase + 2 * s.cfg.pixels)

/-- The channel HOST waits on, where it waits on one, is a channel. -/
def HostWait.channelBelow (w : HostWait) (n : Nat) : Bool :=
  match w with
  | .none => true
  | .onDec => true
  | .onCh c => decide (c < n)
  | .onVsync => true

/-- HOST is blocked on DEC for exactly the time DEC is busy and until it has seen it done (R133, R141), and the edge
detector of the vsync wait is active exactly while HOST is in that wait (R30, R223). -/
abbrev HostInv (s : State) : Prop :=
  (s.decBusy = true → s.hostWait = .onDec) ∧ (s.hostWait = .onDec → s.dec.st ≠ .idle) ∧
    (s.hostWait = .onVsync ↔ s.vsPhase ≠ .none) ∧ s.hostWait.channelBelow s.numCh = true

/-- The flush marks are lengths the wire log had, in order (R33). -/
abbrev WireInv (s : State) : Prop :=
  s.wireMarks.Pairwise (· ≤ ·) ∧ ∀ m ∈ s.wireMarks, m ≤ s.wire.length

/-- The fault codes a rule of the spec raises (R291; `UNWRITTEN_READ` is raised by none). -/
def raisedCodes : List Byte := [0x01, 0x02, 0x03, 0x05, 0x10, 0x11, 0x12, 0x13, 0x14]

/-- A recorded fault has a code of R291. -/
abbrev FaultInv (s : State) : Prop := s.fault.valid = true → s.fault.code ∈ raisedCodes

/-- The parameters satisfy the spec's constraints (R9, R64): the regions, and at least two channels. -/
abbrev ParamsInv (s : State) : Prop := s.cfg.wf ∧ 2 ≤ s.numCh

/-- All invariants together. -/
structure State.Inv (s : State) : Prop where
  mem : s.mem.wf
  params : ParamsInv s
  dec : DecInv s
  channels : ChannelsInv s
  scan : ScanInv s
  host : HostInv s
  wire : WireInv s
  fault : FaultInv s

/-- Address `a` lies in region `r`. -/
abbrev inRegion (r : Region) (a : Nat) : Prop := r.base ≤ a ∧ a < r.base + r.size

/-- The `len` bytes from address `a` lie wholly inside one of the regions (R65). -/
abbrev Inside (rs : List Region) (a len : Nat) : Prop := ∃ r ∈ rs, r.base ≤ a ∧ a + len ≤ r.base + r.size

/-- The range is empty or inside one of the regions (R133, R185). -/
abbrev EmptyOrInside (rs : List Region) (a len : Nat) : Prop := len = 0 ∨ Inside rs a len

/-- 1, 2 and 4 are the legal sizes (R113). -/
abbrev SizeOk (n : Nat) : Prop := n = 1 ∨ n = 2 ∨ n = 4

/-- Bits 0 and 2 of `opts` differ and no bit above 4 is set (R113, R183). -/
abbrev OptsOk (opts : U32) : Prop := opts.getLsbD 0 ≠ opts.getLsbD 2 ∧ opts.toNat < 32

/-- Two byte ranges have a byte in common (R133). -/
abbrev ShareByte (a alen b blen : Nat) : Prop := 0 < alen ∧ 0 < blen ∧ a < b + blen ∧ b < a + alen

/-- The bytes of memory after a write of the `n` low bytes of `v` at `a`: those bytes there, every other byte as it was
(R62). -/
abbrev WritesOnly (m m' : Memory) (a n : Nat) (v : U32) : Prop :=
  ∀ x, m'.byte x = if a ≤ x ∧ x < a + n then byteOf v (x - a) else m.byte x

/-- The registers of a channel after CONFIGURE with options that ask for no chain, and START (R182, R184). -/
def startedChannel (src dst : U32) (esize : BitVec 3) (count : U32) (incRd incWr bswap : Bool) : Channel where
  src := src
  dst := dst
  esize := esize
  count := count
  incRd := incRd
  incWr := incWr
  bswap := bswap
  chain := false
  configured := true
  rdPtr := src
  wrPtr := dst
  remaining := count

/-- The stream DEC was given, as it stands in memory (R130). -/
def State.inputWords (s : State) : List U16 := (List.range s.dec.inLen.toNat).map s.streamWord

/-- DEC's output buffer as it stands in memory (R130). -/
def State.outputWords (s : State) : List U16 := (List.range s.dec.outLen.toNat).map s.slot

/-- The bytes of the framebuffer in address order (R236). -/
def State.fbBytes (s : State) : List Byte :=
  (List.range (2 * s.cfg.pixels)).map fun k => s.mem.byte (s.cfg.fbBase + k)

/-- The next element of channel `c`: the byte address it is read from, the byte address it is written to, its size
(R186). -/
abbrev State.readAt (s : State) (c : Nat) : Nat := (s.channel c).rdPtr.toNat
abbrev State.writeAt (s : State) (c : Nat) : Nat := (s.channel c).wrPtr.toNat
abbrev State.elemSize (s : State) (c : Nat) : Nat := (s.channel c).esize.toNat

/-- `s` with its next turns given to these agents in order (R76). -/
def State.scheduled (s : State) (agents : List Agent) : State := { s with tape := agents ++ s.tape }

/-- `s` with HOST free and about to issue these commands (R32, R119). -/
def State.issuing (s : State) (cmds : List Instr) : State := { s with hostWait := .none, pending := cmds }

end Sys2Proof.Machine
end

