-- ==== Sys2Proof/WellFormed.lean ====
section
/-! DEFINITION. Which instructions have an encoding. The operand widths are in the types; the one constraint left is
LITRUN's `dataLength ≠ 0` (R108, R137). Illegal command operands are not ill-formed: such a command is issued and
faults (R113). -/

namespace Sys2Proof

/-- The instruction is one the encoding can express (R108): LITRUN's `dataLength` is 1 to 255, the value 0 being SKIP.
-/
def Instr.wellFormed : Instr → Bool
  | .litrun _ d => d != 0#8
  | .hdr _ => true
  | .skip _ => true
  | .pixel _ => true
  | .hostRead _ _ => true
  | .hostWrite _ _ _ => true
  | .decompress _ _ _ _ => true
  | .configure _ _ _ _ _ _ => true
  | .start _ => true
  | .wait _ => true
  | .pollRemaining _ => true
  | .vsyncWait => true
  | .scanStart => true
  | .flushProgress => true
  | .clear _ => true
  | .drawBegin => true
  | .drawEnd => true
  | .flush => true
  | .fill _ _ _ _ _ => true
  | .copy _ _ _ _ _ _ => true
  | .bulkRead _ _ _ _ => true
  | .scanoutCfg => true

end Sys2Proof
end

