-- ==== Sys2Proof/Certificates/Slice0/Obligations.lean ====
section
/-! DEFINITION. The statements for the provers: one `def Obligations.<Name> : Prop` each, listed in OBLIGATIONS.json.
Each docstring names the rule of spec/ it formalises, and says so where a statement rests on the model's own choice.
-/

open Sys2Proof Sys2Proof.Machine

/-! ## Encoding -/

/-- Decode and encode agree (R101 to R104, R106, R111): every well-formed instruction, at the position it stands at, is
read back from its encoding, with the bytes after it left. The operand byte order is the model's reading (log entry
6). -/
def Obligations.DecodeInvertsEncode : Prop :=
  ∀ (i : Instr) (rest : List Byte), i.wellFormed = true → decode i.position (encode i ++ rest) = .ok i rest

/-- Each encoding has one meaning (R106, R108, R111): bytes the decoder accepts are the encoding of the well-formed
instruction it answers, of that position, followed by the bytes it left. -/
def Obligations.EncodeInvertsDecode : Prop :=
  ∀ (p : Position) (bs : List Byte) (i : Instr) (rest : List Byte), decode p bs = .ok i rest →
    i.position = p ∧ i.wellFormed = true ∧ bs = encode i ++ rest

/-- R101 to R103, R108: the header and payload words are read whole; a control word whose bits 7:0 are 0 is SKIP, any
other is LITRUN; `runLength` is bits 15:8 and `dataLength` bits 7:0. -/
def Obligations.StreamWordsDecodeByPosition : Prop :=
  ∀ (w : U16) (rest : List Byte),
    decode .header (bytes16 w ++ rest) = .ok (.hdr w) rest ∧
    decode .payload (bytes16 w ++ rest) = .ok (.pixel w) rest ∧
    (w.extractLsb' 0 8 = 0 → decode .control (bytes16 w ++ rest) = .ok (.skip (w.extractLsb' 8 8)) rest) ∧
    (w.extractLsb' 0 8 ≠ 0 →
      decode .control (bytes16 w ++ rest) = .ok (.litrun (w.extractLsb' 8 8) (w.extractLsb' 0 8)) rest)

/-- R121, the worked encodings: five control words, the words of one stream, and its bytes in memory. -/
def Obligations.WorkedEncodings : Prop :=
  ctrl 1 3 = 0x0301#16 ∧ ctrl 4 0 = 0x0004#16 ∧ ctrl 1 255 = 0xFF01#16 ∧ ctrl 1 0 = 0x0001#16 ∧
  ctrl 0 16 = 0x1000#16 ∧
  assemble [.hdr 8, .lit 1 3 [0xAA], .lit 1 3 [0xBB]] = some [0x0008, 0x0301, 0x00AA, 0x0301, 0x00BB] ∧
  [(0x0008 : U16), 0x0301, 0x00AA, 0x0301, 0x00BB].flatMap bytes16 =
    [0x08, 0x00, 0x01, 0x03, 0xAA, 0x00, 0x01, 0x03, 0xBB, 0x00]

/-- Words written out from the spec's encodings decode to the instructions they stand for: R102's control words, and
commands of R111 with their codes and operands (the operands' byte order is the model's reading, log entry 6). -/
def Obligations.WrittenWordsDecode : Prop :=
  decode .control [0x02, 0x03] = .ok (.litrun 3 2) [] ∧ decode .control [0x00, 0x10] = .ok (.skip 16) [] ∧
  decode .header [0x08, 0x00] = .ok (.hdr 8) [] ∧ decode .payload [0x00, 0xF8] = .ok (.pixel 0xF800) [] ∧
  decode .command [0x22, 0x02, 0x00, 0x00, 0x00] = .ok (.wait 2) [] ∧
  decode .command [0x01, 0x06, 0x20, 0x00, 0x00, 0x02, 0x00, 0x00, 0x00] = .ok (.hostRead 0x2006 2) [] ∧
  decode .command [0x40, 0x00, 0xF8, 0x43] = .ok (.clear 0xF800) [0x43] ∧
  decode .command [0x43] = .ok .flush [] ∧ decode .command [0x11] = .unknownOp 0x11

/-! ## The machine around the instructions -/

/-- HOST's step runs the command it fetches: the first command of its program where no composite command is under way,
the next part of the composite where one is. The step is `exec` of it with the turn used up and the command taken off.
(HOST's program and the parts still to be issued are the model's fields, log entries 5 and 8.) -/
def Obligations.HostStepRunsTheFetchedCommand : Prop :=
  ∀ (s : State) (i : Instr), s.safe → s.turn = .host → s.hostWait = .none →
    (∀ rest, s.pending = [] → decode .command s.prog = .ok i rest →
      step s = exec i { s.passTurn with prog := rest }) ∧
    (∀ rest, s.pending = i :: rest → step s = exec i { s.passTurn with pending := rest })

/-- DEC's step runs the stream word at `dec.ip` (R23, R81, R106): when DEC reads a word next and the stream has not
ended, the step is `exec` of the instruction that word decodes to at its position, with the turn used up. A step that
needs a header or control word at an index at or past the stream's end raises `STREAM_UNDERRUN` with that index (R134,
R135), and nothing else changes but that the turn is used up. -/
def Obligations.DecStepRunsTheFetchedWord : Prop :=
  (∀ s : State, s.safe → s.turn = .dec → (s.dec.st = .hdr ∨ s.dec.st = .ctrl) →
    s.dec.inLen.toNat ≤ s.dec.ip.toNat →
    step s = .next { s.passTurn with fault := ⟨true, 0x01, s.dec.ip⟩ }) ∧
  ∀ (s : State) (p : Position) (i : Instr), s.safe → s.turn = .dec → s.dec.st.position = some p →
    (p = .payload ∨ s.dec.ip.toNat < s.dec.inLen.toNat) →
    decode p [s.mem.byte (s.dec.inAddr s.dec.ip.toNat), s.mem.byte (s.dec.inAddr s.dec.ip.toNat + 1)] = .ok i [] →
    step s = exec i s.passTurn

/-- R299 (a): a command code outside the table is refused; the mark is set, the code is off HOST's program, and nothing
else changes. -/
def Obligations.UnknownCommandIsRefused : Prop :=
  ∀ (s : State) (op : Byte), s.safe → s.turn = .host → s.hostWait = .none → s.pending = [] →
    decode .command s.prog = .unknownOp op →
    step s = .next { s.passTurn with prog := s.prog.tail, refused := true }

/-- R296, R299: while `fault.valid` is 1, or the refusal mark is set, the machine has no step. -/
def Obligations.StoppedMachineHasNoStep : Prop :=
  ∀ s : State,
    (s.fault.valid = true → step s = .fault (.halted s.fault.code s.fault.info)) ∧
    (s.fault.valid = false → s.refused = true → step s = .refused .afterRefusal)

/-- R16, R22, R186, R187, R223, R300: the turn of an agent that has no enabled step changes nothing but the turn: DEC
idle or done, a channel with nothing remaining, HOST blocked on a condition that does not hold, HOST free with no
whole command to issue. (That such a turn is used up is the model's form of the schedule, log entry 3; the program's
end is the model's, log entry 5.) -/
def Obligations.BlockedAgentsChangeNothing : Prop :=
  ∀ s : State, s.safe →
    (s.turn = .dec → (s.dec.st = .idle ∨ s.dec.st = .done) → step s = .next s.passTurn) ∧
    (∀ c, s.turn = .bte c → (s.channel c).remaining = 0 → step s = .next s.passTurn) ∧
    (s.turn = .host → s.hostWait = .onDec → s.dec.st ≠ .done → step s = .next s.passTurn) ∧
    (∀ c, s.turn = .host → s.hostWait = .onCh c → (s.channel c).remaining ≠ 0 → step s = .next s.passTurn) ∧
    (s.turn = .host → s.hostWait = .onVsync → s.vsPhase = .needLow → s.te = true → step s = .next s.passTurn) ∧
    (s.turn = .host → s.hostWait = .onVsync → s.vsPhase = .needHigh → s.te = false → step s = .next s.passTurn) ∧
    (s.turn = .host → s.hostWait = .none → s.pending = [] → decode .command s.prog = .truncated →
      step s = .next s.passTurn)

/-- R222: ENV's step toggles `vs.te` and does nothing else. -/
def Obligations.EnvTogglesTheSignal : Prop :=
  ∀ s : State, s.safe → s.turn = .env → step s = .next { s.passTurn with te := !s.te }

/-- Every instruction has a meaning in every state: none stops the machine by an outcome of its own. A fault (R294)
and a refusal (R299) are next states with the register, or the mark, written. (That they are next states is the
model's form, log entry 12.) -/
def Obligations.EveryInstructionAnswersNext : Prop := ∀ (i : Instr) (s : State), ∃ t, exec i s = .next t

/-- R294: `raise` writes the fault register if it holds no fault, and nothing else; and faults are precise: a state
after an instruction that raised one equals the state before it except for the fault register. -/
def Obligations.FaultsArePrecise : Prop :=
  (∀ (s : State) (f : FaultCode) (info : U32),
    (s.fault.valid = false → s.raise f info = { s with fault := ⟨true, f.code, info⟩ }) ∧
    (s.fault.valid = true → s.raise f info = s)) ∧
  (∀ (i : Instr) (s t : State), exec i s = .next t → t.fault ≠ s.fault →
    s.fault.valid = false ∧ t.fault.valid = true ∧ t = { s with fault := t.fault })

/-- R299: an instruction that is refused sets the mark and changes nothing else. -/
def Obligations.RefusalsArePrecise : Prop :=
  ∀ (i : Instr) (s t : State), exec i s = .next t → t.refused ≠ s.refused → t = { s with refused := true }

/-- R37 (the spec's own choice, 92_eei_decisions.md D35), for every value of what it leaves open: DEC idle, every
channel unconfigured with nothing remaining, SCAN never started, HOST in no wait, no fault and no refusal, the wire
empty, FLUSH_PROGRESS 0. -/
def Obligations.ResetLeavesTheSpecifiedState : Prop :=
  (∃ k n m te, State.reset = State.resetWith k n m te) ∧
  ∀ (k : Config) (n : Nat) (m : Memory) (te : Bool), ∃ s : State, s = State.resetWith k n m te ∧
    s.dec.st = .idle ∧ (∀ c, (s.channel c).remaining = 0 ∧ (s.channel c).configured = false) ∧
    s.scanStarted = false ∧ s.scanState = .idle ∧ s.vsPhase = .none ∧ s.hostWait = .none ∧
    s.fault.valid = false ∧ s.refused = false ∧ s.wire = [] ∧ s.wireMarks = [] ∧ s.flushOffset = 0

/-- The invariants hold at reset, for every choice of the parameters that the spec admits and every memory in canonical
form. (The parameters of `State.reset` and the registers R37 leaves open are the model's choice, log entries 1 and
9.) -/
def Obligations.ResetMeetsTheInvariants : Prop :=
  State.reset.Inv ∧
  ∀ (k : Config) (n : Nat) (m : Memory) (te : Bool), k.wf → 2 ≤ n → m.wf → (State.resetWith k n m te).Inv

/-! ## The decompressor -/

/-- R133: DECOMPRESS, its checks in order and its effect. -/
def Obligations.DecompressCommand : Prop :=
  ∀ (a al b bl : U32) (s : State), (s.dec.st = .idle ∨ s.dec.st = .done) →
    (a.toNat % 2 = 0 → b.toNat % 2 = 0 →
      EmptyOrInside [s.cfg.asset, s.cfg.stage, s.cfg.fb] a.toNat (2 * al.toNat) →
      EmptyOrInside [s.cfg.stage, s.cfg.fb] b.toNat (2 * bl.toNat) →
      ¬ShareByte a.toNat (2 * al.toNat) b.toNat (2 * bl.toNat) →
      exec (.decompress a al b bl) s =
        .next { s with
          dec := { s.dec with inBase := a, inLen := al, outBase := b, outLen := bl, ip := 0, cur := 0, st := .hdr }
          hostWait := .onDec }) ∧
    (a.toNat % 2 ≠ 0 → exec (.decompress a al b bl) s = .next (s.raise .misaligned a)) ∧
    (a.toNat % 2 = 0 → b.toNat % 2 ≠ 0 → exec (.decompress a al b bl) s = .next (s.raise .misaligned b)) ∧
    (a.toNat % 2 = 0 → b.toNat % 2 = 0 →
      ¬EmptyOrInside [s.cfg.asset, s.cfg.stage, s.cfg.fb] a.toNat (2 * al.toNat) →
      exec (.decompress a al b bl) s = .next (s.raise .access a)) ∧
    (a.toNat % 2 = 0 → b.toNat % 2 = 0 →
      EmptyOrInside [s.cfg.asset, s.cfg.stage, s.cfg.fb] a.toNat (2 * al.toNat) →
      ¬EmptyOrInside [s.cfg.stage, s.cfg.fb] b.toNat (2 * bl.toNat) →
      exec (.decompress a al b bl) s = .next (s.raise .access b)) ∧
    (a.toNat % 2 = 0 → b.toNat % 2 = 0 →
      EmptyOrInside [s.cfg.asset, s.cfg.stage, s.cfg.fb] a.toNat (2 * al.toNat) →
      EmptyOrInside [s.cfg.stage, s.cfg.fb] b.toNat (2 * bl.toNat) →
      ShareByte a.toNat (2 * al.toNat) b.toNat (2 * bl.toNat) →
      exec (.decompress a al b bl) s = .next (s.raise .overlap b))

/-- R134: the header step. -/
def Obligations.HeaderStep : Prop :=
  ∀ (n : U16) (s : State), s.dec.st = .hdr →
    (s.dec.ip.toNat < s.dec.inLen.toNat → n.toNat ≤ s.dec.outLen.toNat →
      exec (.hdr n) s =
        .next { s with dec := { s.dec with ip := s.dec.ip + 1, n := n, st := if n = 0 then .done else .ctrl } }) ∧
    (s.dec.inLen.toNat ≤ s.dec.ip.toNat → exec (.hdr n) s = .next (s.raise .streamUnderrun s.dec.ip)) ∧
    (s.dec.ip.toNat < s.dec.inLen.toNat → s.dec.outLen.toNat < n.toNat →
      exec (.hdr n) s = .next (s.raise .lengthExceedsBuffer (zext32 n)))

/-- R135, R136: a control word that is a SKIP moves the cursor and writes no memory; `dec.d` and `dec.r` keep their
values. -/
def Obligations.SkipStep : Prop :=
  ∀ (r : Byte) (s : State), s.dec.st = .ctrl →
    (s.dec.ip.toNat < s.dec.inLen.toNat → s.dec.cur.toNat + r.toNat ≤ s.dec.n.toNat →
      exec (.skip r) s =
        .next { s with
          dec := { s.dec with
            ip := s.dec.ip + 1, cur := s.dec.cur + r.setWidth 17,
            st := if s.dec.cur.toNat + r.toNat = s.dec.n.toNat then .done else .ctrl } }) ∧
    (s.dec.inLen.toNat ≤ s.dec.ip.toNat → exec (.skip r) s = .next (s.raise .streamUnderrun s.dec.ip)) ∧
    (s.dec.ip.toNat < s.dec.inLen.toNat → s.dec.n.toNat < s.dec.cur.toNat + r.toNat →
      exec (.skip r) s = .next (s.raise .outputOverrun s.dec.ip))

/-- R135, R137: the control word of a LITRUN: two checks, the payload underrun before the overrun, and no write of any
slot. -/
def Obligations.LitrunControlStep : Prop :=
  ∀ (r d : Byte) (s : State), s.dec.st = .ctrl → d ≠ 0 →
    (s.dec.ip.toNat + 1 + d.toNat ≤ s.dec.inLen.toNat → s.dec.cur.toNat + d.toNat + r.toNat ≤ s.dec.n.toNat →
      exec (.litrun r d) s = .next { s with dec := { s.dec with ip := s.dec.ip + 1, d := d, r := r, st := .lit } }) ∧
    (s.dec.inLen.toNat ≤ s.dec.ip.toNat → exec (.litrun r d) s = .next (s.raise .streamUnderrun s.dec.ip)) ∧
    (s.dec.ip.toNat < s.dec.inLen.toNat → s.dec.inLen.toNat < s.dec.ip.toNat + 1 + d.toNat →
      exec (.litrun r d) s = .next (s.raise .streamUnderrun s.dec.inLen)) ∧
    (s.dec.ip.toNat + 1 + d.toNat ≤ s.dec.inLen.toNat → s.dec.n.toNat < s.dec.cur.toNat + d.toNat + r.toNat →
      exec (.litrun r d) s = .next (s.raise .outputOverrun s.dec.ip))

/-- R138, the literal step: the payload word goes to the two bytes of the slot at the cursor, low byte first, and to no
other byte. In the states a decompression reaches (`DecInv`, which every step keeps) it cannot fault. -/
def Obligations.LiteralStep : Prop :=
  ∀ (v : U16) (s : State), s.dec.st = .lit → DecInv s → s.cfg.wf →
    ∃ t, exec (.pixel v) s = .next t ∧
      WritesOnly s.mem t.mem (s.dec.outAddr s.dec.cur.toNat) 2 (zext32 v) ∧
      t = { s with
        mem := t.mem
        dec := { s.dec with
          ip := s.dec.ip + 1, cur := s.dec.cur + 1, last := v, d := s.dec.d - 1,
          st :=
            if s.dec.d ≠ 1 then .lit
            else if s.dec.r ≠ 0 then .rep
            else if s.dec.cur.toNat + 1 = s.dec.n.toNat then .done else .ctrl } }

/-- R138, the repeat step: the last literal goes to the two bytes of the slot at the cursor, and to no other byte; no
stream word is read. -/
def Obligations.RepeatStep : Prop :=
  ∀ s : State, s.safe → s.turn = .dec → s.dec.st = .rep → DecInv s → s.cfg.wf →
    ∃ t, step s = .next t ∧
      WritesOnly s.mem t.mem (s.dec.outAddr s.dec.cur.toNat) 2 (zext32 s.dec.last) ∧
      t = { s.passTurn with
        mem := t.mem
        dec := { s.dec with
          cur := s.dec.cur + 1, r := s.dec.r - 1,
          st :=
            if s.dec.r ≠ 1 then .rep else if s.dec.cur.toNat + 1 = s.dec.n.toNat then .done else .ctrl } }

/-- R141: when `dec.st` is DONE, HOST's blocked DECOMPRESS returns, and nothing else changes. R85, R300: in every weakly
fair run in which HOST has turns again and again, a HOST blocked in a DECOMPRESS comes to be blocked on nothing, with
nothing stopped, "unless a fault intervenes". (That HOST must be given turns is DEDUCED, log entry 22.) -/
def Obligations.DecompressReturnsWhenDone : Prop :=
  (∀ s : State, s.safe → s.turn = .host → s.hostWait = .onDec → s.dec.st = .done →
    step s = .next { s.passTurn with hostWait := .none }) ∧
  (∀ (f : Schedule) (p : Program) (s : State), s.safe → HostInv s → DecInv s → WeaklyFair f p s → HostTurns f →
    s.hostWait = .onDec → s.hostReturns f p ∨ ∃ n, (s.runTo f p n).fault.valid = true)

/-- R143: every step of any agent keeps the invariant of a decompression, in the states where HOST is blocked while DEC
is busy (`HostInv`, which every step keeps). -/
def Obligations.StepKeepsDecInvariant : Prop :=
  ∀ s t : State, HostInv s → DecInv s → step s = .next t → DecInv t

/-- R142: the steps compute the function. From a decompression just admitted, DEC's steps alone lead to DONE with the
output buffer as `Decompress` gives it and every other byte of memory as it was, where `Decompress` gives a buffer, and
to the fault that `Decompress` gives where it gives one. -/
def Obligations.DecStepsComputeDecompress : Prop :=
  ∀ s : State, s.safe → s.cfg.wf → DecInv s → s.dec.st = .hdr →
    (∀ O, decompressRef s.inputWords s.outputWords = .ok O →
      ∃ k t, core.run k (s.scheduled (List.replicate k .dec)) = .next t ∧ t.dec.st = .done ∧ t.outputWords = O ∧
        t.safe ∧ t.tape = s.tape ∧
        ∀ x, (x < s.dec.outBase.toNat ∨ s.dec.outBase.toNat + 2 * s.dec.outLen.toNat ≤ x) →
          t.mem.byte x = s.mem.byte x) ∧
    (∀ f info, decompressRef s.inputWords s.outputWords = .error (f, info) →
      ∃ k t, core.run k (s.scheduled (List.replicate k .dec)) = .next t ∧ t.fault = ⟨true, f.code, info⟩)

/-- R144, R134: `Decompress` keeps the buffer's length and every slot from index N on. -/
def Obligations.DecompressKeepsTheTail : Prop :=
  ∀ S O O' : List U16, decompressRef S O = .ok O' →
    O'.length = O.length ∧ ∀ j, (S.getD 0 0).toNat ≤ j → O'[j]? = O[j]?

/-- R131, R132: a stream is well-formed for a buffer exactly when `Decompress` does not fault on it. -/
def Obligations.WellFormedExactlyWhenNoFault : Prop :=
  ∀ S O : List U16, wellFormedStream S O.length = true ↔ ∃ O', decompressRef S O = .ok O'

/-! ## The reference encoder -/

/-- R145: the round trip, whatever the parameter `RUN_MIN_FLUSH`. `Compress` is defined on every sequence of at most
65535 pixels, and decompressing its output into any buffer long enough does not fault and gives the pixels back. -/
def Obligations.RoundTrip : Prop :=
  ∀ (k : Config) (X O : List U16), X.length ≤ 65535 → X.length ≤ O.length →
    ∃ S O', compress k X = some S ∧ decompressRef S O = .ok O' ∧ O'.take X.length = X

/-- R168, the bound: `Compress` writes at most `2*|X| + 1` words. -/
def Obligations.CompressBound : Prop :=
  ∀ (k : Config) (X S : List U16), compress k X = some S → S.length ≤ 2 * X.length + 1

/-- R167: `Compress` never emits a control word with `dataLength = 0`, so no SKIP. -/
def Obligations.CompressEmitsNoSkip : Prop :=
  ∀ (k : Config) (X S : List U16), compress k X = some S → ∀ w ∈ controlWords S, ctrlDataLength w ≠ 0

/-- R171: the document's five vectors, with `RUN_MIN_FLUSH` 3, the value of R9 (which MAP-A has). -/
def Obligations.CompressVectors : Prop :=
  Config.mapA.runMinFlush = 3 ∧
  compress Config.mapA [] = some [0] ∧
  compress Config.mapA [0xaa, 0xaa, 0xaa, 0xaa, 0xbb, 0xbb, 0xbb, 0xbb] =
    some [8, ctrl 1 3, 0xaa, ctrl 1 3, 0xbb] ∧
  compress Config.mapA [0xaa, 0xbb, 0xcc, 0xdd] = some [4, ctrl 4 0, 0xaa, 0xbb, 0xcc, 0xdd] ∧
  compress Config.mapA (List.replicate 256 0xaa) = some [256, ctrl 1 255, 0xaa] ∧
  compress Config.mapA (List.replicate 257 0xaa) = some [257, ctrl 1 255, 0xaa, ctrl 1 0, 0xaa]

/-! ## HOST's accesses -/

/-- R86, R65, R71, R113: HOST_READ returns the `n`-byte value at the address and changes nothing else; its checks in
order. (`ret`, where the returned value stands, is the model's field, log entry 4.) -/
def Obligations.HostRead : Prop :=
  ∀ (addr n : U32) (s : State),
    (SizeOk n.toNat → addr.toNat % n.toNat = 0 →
      Inside [s.cfg.asset, s.cfg.stage, s.cfg.fb, s.cfg.fillCell] addr.toNat n.toNat →
      exec (.hostRead addr n) s = .next { s with ret := BitVec.ofNat 32 (s.mem.read addr.toNat n.toNat) }) ∧
    (¬SizeOk n.toNat → exec (.hostRead addr n) s = .next (s.raise .configInvalid addr)) ∧
    (SizeOk n.toNat → addr.toNat % n.toNat ≠ 0 → exec (.hostRead addr n) s = .next (s.raise .misaligned addr)) ∧
    (SizeOk n.toNat → addr.toNat % n.toNat = 0 →
      ¬Inside [s.cfg.asset, s.cfg.stage, s.cfg.fb, s.cfg.fillCell] addr.toNat n.toNat →
      exec (.hostRead addr n) s = .next (s.raise .access addr))

/-- R86, R62, R65, R71, R113: HOST_WRITE writes the `n` low bytes of `v`, the lowest at the address, and no other byte;
its checks in order. -/
def Obligations.HostWrite : Prop :=
  ∀ (addr n v : U32) (s : State), s.cfg.wf →
    (SizeOk n.toNat → addr.toNat % n.toNat = 0 →
      Inside [s.cfg.stage, s.cfg.fb, s.cfg.fillCell] addr.toNat n.toNat →
      ∃ t, exec (.hostWrite addr n v) s = .next t ∧ WritesOnly s.mem t.mem addr.toNat n.toNat v ∧
        t = { s with mem := t.mem }) ∧
    (¬SizeOk n.toNat → exec (.hostWrite addr n v) s = .next (s.raise .configInvalid addr)) ∧
    (SizeOk n.toNat → addr.toNat % n.toNat ≠ 0 → exec (.hostWrite addr n v) s = .next (s.raise .misaligned addr)) ∧
    (SizeOk n.toNat → addr.toNat % n.toNat = 0 →
      ¬Inside [s.cfg.stage, s.cfg.fb, s.cfg.fillCell] addr.toNat n.toNat →
      exec (.hostWrite addr n v) s = .next (s.raise .access addr))

/-! ## The block-transfer engine -/

/-- R182, R183: CONFIGURE issued by HOST: the registers it writes, and its checks in order. (`countField` is the `count`
operand itself where `COUNT_BITS` is 32, the value of R9; its form for a narrower register is the model's, log entry
21.) -/
def Obligations.ConfigureCommand : Prop :=
  ∀ (c src dst esize count opts : U32) (s : State),
    (c.toNat < s.numCh → SizeOk esize.toNat → OptsOk opts → c.toNat ≠ scanCh →
      (s.channel c.toNat).remaining = 0 → src.toNat % esize.toNat = 0 → dst.toNat % esize.toNat = 0 →
      exec (.configure c src dst esize count opts) s =
        .next { s with
          bte := s.bte.set c.toNat { s.channel c.toNat with
            src := src, dst := dst, esize := esize.setWidth 3, count := countField s.cfg count,
            incRd := opts.getLsbD 2, incWr := opts.getLsbD 1, bswap := opts.getLsbD 3, chain := opts.getLsbD 4,
            configured := true } }) ∧
    (s.cfg.countBits = 32 → countField s.cfg count = count) ∧
    ((s.numCh ≤ c.toNat ∨ ¬SizeOk esize.toNat ∨ ¬OptsOk opts) →
      exec (.configure c src dst esize count opts) s = .next (s.raise .configInvalid c)) ∧
    (c.toNat < s.numCh → SizeOk esize.toNat → OptsOk opts → c.toNat ≠ scanCh →
      (s.channel c.toNat).remaining ≠ 0 →
      exec (.configure c src dst esize count opts) s = .next (s.raise .bteBusy c)) ∧
    (c.toNat < s.numCh → SizeOk esize.toNat → OptsOk opts → c.toNat ≠ scanCh →
      (s.channel c.toNat).remaining = 0 → src.toNat % esize.toNat ≠ 0 →
      exec (.configure c src dst esize count opts) s = .next (s.raise .misaligned src)) ∧
    (c.toNat < s.numCh → SizeOk esize.toNat → OptsOk opts → c.toNat ≠ scanCh →
      (s.channel c.toNat).remaining = 0 → src.toNat % esize.toNat = 0 → dst.toNat % esize.toNat ≠ 0 →
      exec (.configure c src dst esize count opts) s = .next (s.raise .misaligned dst))

/-- R184, R185: START issued by HOST: the run registers it loads, and its checks in order, the chain option among them
(R190). -/
def Obligations.StartCommand : Prop :=
  (∀ (c : U32) (s : State), s.numCh ≤ c.toNat → exec (.start c) s = .next (s.raise .configInvalid c)) ∧
  ∀ (c : U32) (s : State) (ch : Channel), ch = s.channel c.toNat → c.toNat < s.numCh → c.toNat ≠ scanCh →
    (ch.configured = true → ch.remaining = 0 → (ch.chain = true → s.cfg.chainNoop = true) →
      EmptyOrInside [s.cfg.asset, s.cfg.stage, s.cfg.fb, s.cfg.fillCell] ch.src.toNat
        (rangeLen ch.incRd ch.count.toNat ch.esize.toNat) →
      EmptyOrInside [s.cfg.stage, s.cfg.fb, s.cfg.display] ch.dst.toNat
        (rangeLen ch.incWr ch.count.toNat ch.esize.toNat) →
      exec (.start c) s =
        .next { s with
          bte := s.bte.set c.toNat { ch with rdPtr := ch.src, wrPtr := ch.dst, remaining := ch.count } }) ∧
    (ch.configured = false → exec (.start c) s = .next (s.raise .notConfigured c)) ∧
    (ch.configured = true → ch.remaining ≠ 0 → exec (.start c) s = .next (s.raise .bteBusy c)) ∧
    (ch.configured = true → ch.remaining = 0 → ch.chain = true → s.cfg.chainNoop = false →
      exec (.start c) s = .next { s with refused := true }) ∧
    (ch.configured = true → ch.remaining = 0 → (ch.chain = true → s.cfg.chainNoop = true) →
      ¬EmptyOrInside [s.cfg.asset, s.cfg.stage, s.cfg.fb, s.cfg.fillCell] ch.src.toNat
        (rangeLen ch.incRd ch.count.toNat ch.esize.toNat) →
      exec (.start c) s = .next (s.raise .access ch.src)) ∧
    (ch.configured = true → ch.remaining = 0 → (ch.chain = true → s.cfg.chainNoop = true) →
      EmptyOrInside [s.cfg.asset, s.cfg.stage, s.cfg.fb, s.cfg.fillCell] ch.src.toNat
        (rangeLen ch.incRd ch.count.toNat ch.esize.toNat) →
      ¬EmptyOrInside [s.cfg.stage, s.cfg.fb, s.cfg.display] ch.dst.toNat
        (rangeLen ch.incWr ch.count.toNat ch.esize.toNat) →
      exec (.start c) s = .next (s.raise .access ch.dst))

/-- R234, R299 (b): CONFIGURE and START naming `SCAN_CH`, issued by HOST directly, are refused: the mark is set and
nothing else changes. (The other checks of CONFIGURE come first, R295.) That SCANOUT_CFG issued by HOST directly is
refused too is DEDUCED (log entry 15): by R197 and R119 it is one CONFIGURE naming `SCAN_CH`, and neither R234 nor
R299 names it. -/
def Obligations.ScanChannelIsReserved : Prop :=
  ∀ s : State, scanCh < s.numCh →
    (∀ c src dst esize count opts : U32, c.toNat = scanCh → SizeOk esize.toNat → OptsOk opts →
      exec (.configure c src dst esize count opts) s = .next { s with refused := true }) ∧
    (∀ c : U32, c.toNat = scanCh → exec (.start c) s = .next { s with refused := true }) ∧
    (s.cfg.wf → exec .scanoutCfg s = .next { s with refused := true })

/-- R187: WAIT returns in its first step when nothing remains, else HOST blocks on the channel and returns in a step
taken when `remaining` is 0. No register of the channel changes. Naming no channel it faults. "Under the fairness of
20_memory.md rule R85 it always returns" (R300): in every weakly fair run in which HOST has turns again and again, a
HOST blocked in a WAIT comes to be blocked on nothing, with nothing stopped. (That HOST must be given turns is
DEDUCED, log entry 22.) -/
def Obligations.WaitBlocksUntilNothingRemains : Prop :=
  (∀ (c : U32) (s : State), s.numCh ≤ c.toNat → exec (.wait c) s = .next (s.raise .configInvalid c)) ∧
  (∀ (c : U32) (s : State), c.toNat < s.numCh →
    ((s.channel c.toNat).remaining = 0 → exec (.wait c) s = .next { s with hostWait := .none }) ∧
    ((s.channel c.toNat).remaining ≠ 0 → exec (.wait c) s = .next { s with hostWait := .onCh c.toNat })) ∧
  (∀ (s : State) (c : Nat), s.safe → s.turn = .host → s.hostWait = .onCh c → (s.channel c).remaining = 0 →
    step s = .next { s.passTurn with hostWait := .none }) ∧
  (∀ (f : Schedule) (p : Program) (s : State) (c : Nat), s.safe → HostInv s → WeaklyFair f p s → HostTurns f →
    s.hostWait = .onCh c → s.hostReturns f p)

/-- R188: POLL_REMAINING returns `remaining` and changes nothing else; naming no channel it faults. (`ret`, where the
returned value stands, is the model's field, log entry 4.) -/
def Obligations.PollReturnsRemaining : Prop :=
  (∀ (c : U32) (s : State), s.numCh ≤ c.toNat → exec (.pollRemaining c) s = .next (s.raise .configInvalid c)) ∧
  ∀ (c : U32) (s : State), c.toNat < s.numCh →
    exec (.pollRemaining c) s = .next { s with ret := (s.channel c.toNat).remaining }

/-- R186, R189, R68: the element step of a running channel, one indivisible step by the spec's own choice (D2, D8).
The swapped value at element sizes 1 and 4 is the spec's general knowledge, PRESUMED here (log entry 11). To memory it
writes the element's bytes and no others; to the display port it appends them to the wire, lowest first. The pointers
that increment advance by the element size, one less remains, and nothing else changes. -/
def Obligations.ElementStep : Prop :=
  ∀ (s : State) (c : Nat) (ch ch' : Channel) (v : U32), s.safe → s.turn = .bte c → ch = s.channel c →
    ch.remaining ≠ 0 →
    ch' = { ch with
      rdPtr := if ch.incRd then ch.rdPtr + zext32 ch.esize else ch.rdPtr
      wrPtr := if ch.incWr then ch.wrPtr + zext32 ch.esize else ch.wrPtr
      remaining := ch.remaining - 1 } →
    v = (if ch.bswap then byterev (s.load ch.rdPtr.toNat ch.esize.toNat) ch.esize.toNat
      else s.load ch.rdPtr.toNat ch.esize.toNat) →
    (¬inRegion s.cfg.display ch.wrPtr.toNat →
      ∃ t, step s = .next t ∧ WritesOnly s.mem t.mem ch.wrPtr.toNat ch.esize.toNat v ∧
        t = { s.passTurn with mem := t.mem, bte := s.bte.set c ch' }) ∧
    (inRegion s.cfg.display ch.wrPtr.toNat →
      step s = .next { s.passTurn with
        wire := s.wire ++ lowBytes v ch.esize.toNat, bte := s.bte.set c ch' })

/-- R13, R189: the byte swap has no effect at size 1, exchanges the two bytes at size 2, reverses the four at size 4,
and applied twice gives the original value. (Sizes 1 and 4 are the spec's own general knowledge, log entry 11.) -/
def Obligations.ByteSwapIsAnInvolution : Prop :=
  (∀ v : U32, byterev v 1 = v) ∧
  (∀ v : U32, byteOf (byterev v 2) 0 = byteOf v 1 ∧ byteOf (byterev v 2) 1 = byteOf v 0) ∧
  (∀ (v : U32) (k : Nat), k < 4 → byteOf (byterev v 4) k = byteOf v (3 - k)) ∧
  (∀ (v : U32) (n : Nat), SizeOk n → v.toNat < 256 ^ n → byterev (byterev v n) n = v)

/-- R193, R194, R196, R119: FILL, COPY and BULK_READ are CONFIGURE then START. Issued on an idle channel other than
`SCAN_CH` with aligned addresses and ranges the engine may use, the first HOST step configures the channel and leaves
the START, and the second starts it. Nothing else changes. Their traps are those of CONFIGURE and START ("Faults:
those of CONFIGURE and START"; R295; R234 for `SCAN_CH`): in the first step CONFIGURE's, in its order, and no START is
left; in the second START's, on a channel that is configured and not started. (That any `bswap` but 0 asks for the
swap, and the list of parts left, are the model's, log entries 8 and 10; `n` is the `count` operand in its register,
log entry 21.) -/
def Obligations.TransferCompositesConfigureAndStart : Prop :=
  (∀ (s : State) (c src dst count n esize bswap : U32), n = countField s.cfg count → s.safe → s.cfg.wf →
      c.toNat < s.numCh → c.toNat ≠ scanCh →
      (s.channel c.toNat).remaining = 0 → SizeOk esize.toNat → dst.toNat % esize.toNat = 0 →
      EmptyOrInside [s.cfg.stage, s.cfg.fb, s.cfg.display] dst.toNat (n.toNat * esize.toNat) →
      ((exec (.fill c dst count esize bswap) s = .next { s with
          pending := .start c :: s.pending
          bte := s.bte.set c.toNat { s.channel c.toNat with
            src := BitVec.ofNat 32 s.cfg.fillBase, dst := dst, esize := esize.setWidth 3, count := n,
            incRd := false, incWr := true, bswap := decide (bswap ≠ 0), chain := false, configured := true } }) ∧
        core.run 2 ((s.issuing [.fill c dst count esize bswap]).scheduled [.host, .host]) =
          .next { s.issuing [] with
            turns := s.turns + 2
            bte := s.bte.set c.toNat
              (startedChannel (BitVec.ofNat 32 s.cfg.fillBase) dst (esize.setWidth 3) n false true
                (decide (bswap ≠ 0))) }) ∧
      (src.toNat % esize.toNat = 0 →
        EmptyOrInside [s.cfg.asset, s.cfg.stage, s.cfg.fb, s.cfg.fillCell] src.toNat (n.toNat * esize.toNat) →
        (exec (.copy c src dst count esize bswap) s = .next { s with
          pending := .start c :: s.pending
          bte := s.bte.set c.toNat { s.channel c.toNat with
            src := src, dst := dst, esize := esize.setWidth 3, count := n,
            incRd := true, incWr := true, bswap := decide (bswap ≠ 0), chain := false, configured := true } }) ∧
        core.run 2 ((s.issuing [.copy c src dst count esize bswap]).scheduled [.host, .host]) =
          .next { s.issuing [] with
            turns := s.turns + 2
            bte := s.bte.set c.toNat
              (startedChannel src dst (esize.setWidth 3) n true true (decide (bswap ≠ 0))) }) ∧
      (src.toNat % 2 = 0 → esize = 2 →
        EmptyOrInside [s.cfg.asset, s.cfg.stage, s.cfg.fb, s.cfg.fillCell] src.toNat (n.toNat * 2) →
        (exec (.bulkRead c src dst count) s = .next { s with
          pending := .start c :: s.pending
          bte := s.bte.set c.toNat { s.channel c.toNat with
            src := src, dst := dst, esize := 2, count := n,
            incRd := true, incWr := true, bswap := false, chain := false, configured := true } }) ∧
        core.run 2 ((s.issuing [.bulkRead c src dst count]).scheduled [.host, .host]) =
          .next { s.issuing [] with
            turns := s.turns + 2
            bte := s.bte.set c.toNat (startedChannel src dst 2 n true true false) })) ∧
  ∀ (s : State) (i : Instr) (c src dst count n esize bswap : U32) (incRd swap : Bool), n = countField s.cfg count →
    (i = .fill c dst count esize bswap ∧ src = BitVec.ofNat 32 s.cfg.fillBase ∧ incRd = false ∧
        swap = decide (bswap ≠ 0)) ∨
      (i = .copy c src dst count esize bswap ∧ incRd = true ∧ swap = decide (bswap ≠ 0)) ∨
      (i = .bulkRead c src dst count ∧ esize = 2 ∧ incRd = true ∧ swap = false) →
    ((s.numCh ≤ c.toNat ∨ ¬SizeOk esize.toNat) → exec i s = .next (s.raise .configInvalid c)) ∧
    (c.toNat < s.numCh → SizeOk esize.toNat → c.toNat = scanCh → exec i s = .next { s with refused := true }) ∧
    (c.toNat < s.numCh → SizeOk esize.toNat → c.toNat ≠ scanCh →
      ((s.channel c.toNat).remaining ≠ 0 → exec i s = .next (s.raise .bteBusy c)) ∧
      ((s.channel c.toNat).remaining = 0 → src.toNat % esize.toNat ≠ 0 →
        exec i s = .next (s.raise .misaligned src)) ∧
      ((s.channel c.toNat).remaining = 0 → src.toNat % esize.toNat = 0 → dst.toNat % esize.toNat ≠ 0 →
        exec i s = .next (s.raise .misaligned dst)) ∧
      (s.safe → (s.channel c.toNat).remaining = 0 → src.toNat % esize.toNat = 0 → dst.toNat % esize.toNat = 0 →
        ∀ u, u = { s.issuing [] with
            turns := s.turns + 2
            bte := s.bte.set c.toNat { s.channel c.toNat with
              src := src, dst := dst, esize := esize.setWidth 3, count := n,
              incRd := incRd, incWr := true, bswap := swap, chain := false, configured := true } } →
          (¬EmptyOrInside [s.cfg.asset, s.cfg.stage, s.cfg.fb, s.cfg.fillCell] src.toNat
              (rangeLen incRd n.toNat esize.toNat) →
            core.run 2 ((s.issuing [i]).scheduled [.host, .host]) = .next { u with fault := ⟨true, 0x10, src⟩ }) ∧
          (EmptyOrInside [s.cfg.asset, s.cfg.stage, s.cfg.fb, s.cfg.fillCell] src.toNat
              (rangeLen incRd n.toNat esize.toNat) →
            ¬EmptyOrInside [s.cfg.stage, s.cfg.fb, s.cfg.display] dst.toNat (n.toNat * esize.toNat) →
            core.run 2 ((s.issuing [i]).scheduled [.host, .host]) = .next { u with fault := ⟨true, 0x10, dst⟩ })))

/-- R201: every step keeps the channels' invariant: what a running channel has still to read and to write stays aligned
and inside one region it may use, so its element step cannot fault. -/
def Obligations.StepKeepsChannelInvariant : Prop :=
  ∀ s t : State, s.cfg.wf → ChannelsInv s → step s = .next t → ChannelsInv t

/-- R203, R77 (a), (b): a transfer just started, whose channel alone steps until nothing remains. To memory, with
ranges that share no byte: every destination element holds the source element where the destination increments, and
the one destination element holds the last source element where it does not; every other byte and the wire are as they
were. To the display port: the wire has grown by the elements in order, each low byte first, and memory is as it was.
An element is byte-reversed when `bswap` is set; at element sizes 1 and 4 that reversal is the spec's general
knowledge, PRESUMED here (log entry 11). -/
def Obligations.TransferMovesEveryElement : Prop :=
  ∀ (s : State) (c : Nat) (ch : Channel) (element : Nat → U32), s.safe → s.cfg.wf → ch = s.channel c →
    ChannelInv s.cfg ch → ch.remaining = ch.count → ch.rdPtr = ch.src → ch.wrPtr = ch.dst →
    (∀ k, element k =
      ch.transform (s.load (ch.src.toNat + if ch.incRd then k * ch.esize.toNat else 0) ch.esize.toNat)) →
    ∃ t, core.run ch.count.toNat (s.scheduled (List.replicate ch.count.toNat (.bte c))) = .next t ∧
      (t.channel c).remaining = 0 ∧ t.safe ∧ t.tape = s.tape ∧
      ((ch.count ≠ 0 →
          Inside [s.cfg.stage, s.cfg.fb] ch.dst.toNat (rangeLen ch.incWr ch.count.toNat ch.esize.toNat)) →
        ¬ShareByte ch.src.toNat (rangeLen ch.incRd ch.count.toNat ch.esize.toNat) ch.dst.toNat
          (rangeLen ch.incWr ch.count.toNat ch.esize.toNat) →
        t.wire = s.wire ∧
        (ch.incWr = true → ∀ k, k < ch.count.toNat →
          t.load (ch.dst.toNat + k * ch.esize.toNat) ch.esize.toNat = element k) ∧
        (ch.incWr = false → ch.count ≠ 0 →
          t.load ch.dst.toNat ch.esize.toNat = element (ch.count.toNat - 1)) ∧
        (∀ x, (x < ch.dst.toNat ∨ ch.dst.toNat + rangeLen ch.incWr ch.count.toNat ch.esize.toNat ≤ x) →
          t.mem.byte x = s.mem.byte x)) ∧
      ((ch.count ≠ 0 →
          Inside [s.cfg.display] ch.dst.toNat (rangeLen ch.incWr ch.count.toNat ch.esize.toNat)) →
        t.mem = s.mem ∧
        t.wire = s.wire ++ (List.range ch.count.toNat).flatMap fun k => lowBytes (element k) ch.esize.toNat)

/-- R202: two channels whose next elements touch no common byte, one of them going to memory, may step in either order:
the two orders give the same state. -/
def Obligations.DisjointChannelsCommute : Prop :=
  ∀ (s : State) (c d : Nat), s.mem.wf → c ≠ d →
    ¬ShareByte (s.writeAt c) (s.elemSize c) (s.writeAt d) (s.elemSize d) →
    ¬ShareByte (s.writeAt c) (s.elemSize c) (s.readAt d) (s.elemSize d) →
    ¬ShareByte (s.readAt c) (s.elemSize c) (s.writeAt d) (s.elemSize d) →
    ¬(inRegion s.cfg.display (s.writeAt c) ∧ inRegion s.cfg.display (s.writeAt d)) →
    elementStep c (elementStep d s) = elementStep d (elementStep c s)

/-! ## The scanout pipeline -/

/-- R223: VSYNC_WAIT begins by blocking HOST with no low sample yet; a HOST step on a low sample is step A, a HOST
step on a high sample after it is step B, the return. It touches no memory and no channel. R224, R85: in every run of
which `VSYNC_LIVE` holds (every wait finds step A and later step B enabled at a turn of HOST), whatever HOST's
program, a HOST blocked in the wait comes to be blocked on nothing, with nothing stopped. (That R85's words on ENV
alone do not give this, HOST having to sample the levels, is DEDUCED, log entry 22.) -/
def Obligations.VsyncWaitSeesARisingEdge : Prop :=
  (∀ s : State, exec .vsyncWait s = .next { s with hostWait := .onVsync, vsPhase := .needLow }) ∧
  (∀ s : State, s.safe → s.turn = .host → s.hostWait = .onVsync →
    (s.vsPhase = .needLow → s.te = false → step s = .next { s.passTurn with vsPhase := .needHigh }) ∧
    (s.vsPhase = .needHigh → s.te = true →
      step s = .next { s.passTurn with vsPhase := .none, hostWait := .none })) ∧
  (∀ (f : Schedule) (p : Program) (s : State), s.safe → HostInv s → s.hostWait = .onVsync → VsyncLive f p s →
    s.hostReturns f p)

/-- R225, R197: SCAN_START on an idle scanout channel configures it from the framebuffer, incrementing, to the display
port, fixed, starts it, sets `scan.started` and marks the wire; on a running one it faults with `BTE_BUSY` and changes
nothing else. -/
def Obligations.ScanStartBeginsAFlush : Prop :=
  ∀ s : State, s.cfg.wf → scanCh < s.numCh →
    ((s.channel scanCh).remaining = 0 →
      exec .scanStart s = .next { s with
        bte := s.bte.set scanCh
          (startedChannel (BitVec.ofNat 32 s.cfg.fbBase) (BitVec.ofNat 32 s.cfg.displayBase)
            (BitVec.ofNat 3 s.cfg.scanElemSize) (BitVec.ofNat 32 (2 * s.cfg.pixels / s.cfg.scanElemSize))
            true false false)
        scanStarted := true
        wireMarks := s.wireMarks ++ [s.wire.length] }) ∧
    ((s.channel scanCh).remaining ≠ 0 → exec .scanStart s = .next (s.raise .bteBusy (BitVec.ofNat 32 scanCh)))

/-- R226: FLUSH_PROGRESS returns 0 before the first SCAN_START, and then the pixels of the current or latest flush that
have been sent; it changes nothing else. (`ret`, where the returned value stands, is the model's field, log entry
4.) -/
def Obligations.FlushProgressReturnsTheOffset : Prop :=
  ∀ s : State,
    (s.scanStarted = false → exec .flushProgress s = .next { s with ret := 0 }) ∧
    (s.scanStarted = true → exec .flushProgress s =
      .next { s with
        ret := BitVec.ofNat 32
          ((2 * (s.cfg.width * s.cfg.height) - (s.channel scanCh).remaining.toNat * s.cfg.scanElemSize) / 2) })

/-- R227: within one flush the progress never goes down; it is reset to 0 only in a step that marks the wire, as
SCAN_START does (R225). -/
def Obligations.ProgressIsMonotone : Prop :=
  ∀ s t : State, s.cfg.wf → step s = .next t →
    (t.wireMarks = s.wireMarks ∧ s.flushOffset ≤ t.flushOffset) ∨
      (t.wireMarks = s.wireMarks ++ [s.wire.length] ∧ t.scanStarted = true ∧ t.flushOffset = 0)

/-- R234, R237, R235: every step keeps the scanout channel's invariant. -/
def Obligations.StepKeepsScanInvariant : Prop :=
  ∀ s t : State, s.cfg.wf → ScanInv s → step s = .next t → ScanInv t

/-- R233, R235: a step that takes the scanout from Idle to Flushing is HOST's, HOST fetched SCAN_START for it (by itself
or as a part of a composite), and it marks the wire. -/
def Obligations.FlushesBeginInScanStartOnly : Prop :=
  ∀ s t : State, step s = .next t → s.scanState = .idle → t.scanState = .flushing →
    s.turn = .host ∧ s.hostWait = .none ∧ (∃ u, s.passTurn.hostFetch = .command .scanStart u) ∧
      t.scanStarted = true ∧ t.wireMarks = s.wireMarks ++ [s.wire.length]

/-- R228 to R232, R119: what CLEAR, DRAW_BEGIN, DRAW_END and FLUSH do in the HOST step that issues them: the first
part takes effect and the other parts are left, in the order of their rules. (The list of parts left is the model's
field, log entry 8.) -/
def Obligations.ScanCompositesExpand : Prop :=
  ∀ s : State,
    (∀ color : U16, fillCh < s.numCh →
      exec (.clear color) s = .next { s with
        hostWait := if (s.channel fillCh).remaining = 0 then .none else .onCh fillCh
        pending :=
          [.hostWrite (BitVec.ofNat 32 s.cfg.fillBase) 2 (zext32 color),
            .fill (BitVec.ofNat 32 fillCh) (BitVec.ofNat 32 s.cfg.fbBase)
              (BitVec.ofNat 32 (s.cfg.width * s.cfg.height)) 2 (if s.cfg.clearSwap then 1 else 0),
            .wait (BitVec.ofNat 32 fillCh)] ++ s.pending }) ∧
    (scanCh < s.numCh →
      exec .drawBegin s = .next { s with
        hostWait := if (s.channel scanCh).remaining = 0 then .none else .onCh scanCh }) ∧
    exec .drawEnd s = .next { s with
      hostWait := .onVsync, vsPhase := .needLow, pending := .scanStart :: s.pending } ∧
    exec .flush s = .next { s with
      hostWait := .onVsync, vsPhase := .needLow
      pending := .scanStart :: .wait (BitVec.ofNat 32 scanCh) :: s.pending }

/-- R228, a whole CLEAR: issued with its channel idle and left to run (HOST issues its four parts, the channel moves its
elements, HOST returns), it leaves in every framebuffer word the colour, swapped where `CLEAR_SWAP` is true, and every
byte outside `FB` and `FILL_CELL` as it was. -/
def Obligations.ClearFillsTheFramebuffer : Prop :=
  ∀ (s : State) (color : U16), s.safe → s.cfg.wf → fillCh < s.numCh → (s.channel fillCh).remaining = 0 →
    ∃ t, core.run (s.cfg.pixels + 5)
        ((s.issuing [.clear color]).scheduled
          ([.host, .host, .host, .host] ++ List.replicate s.cfg.pixels (.bte fillCh) ++ [.host])) = .next t ∧
      t.safe ∧ t.hostWait = .none ∧ t.pending = [] ∧ t.tape = s.tape ∧
      (∀ i, i < s.cfg.pixels → t.fbWord i = if s.cfg.clearSwap then swap16 color else color) ∧
      (∀ x, ¬inRegion s.cfg.fb x → ¬inRegion s.cfg.fillCell x → t.mem.byte x = s.mem.byte x)

/-- R232, R236, a whole FLUSH: issued with the scanout idle while the signal is low, with HOST sampling it low, then the
signal rising, HOST sampling it high and starting the scan, the channel moving its elements, and HOST returning: the
wire has grown by exactly the bytes of the framebuffer in address order, memory is unchanged, and the progress is
`WIDTH*HEIGHT`. -/
def Obligations.FlushSendsTheFramebuffer : Prop :=
  ∀ s : State, s.safe → s.cfg.wf → scanCh < s.numCh → (s.channel scanCh).remaining = 0 → s.te = false →
    ∃ t, core.run (s.cfg.scanCount + 6)
        ((s.issuing [.flush]).scheduled
          ([.host, .host, .env, .host, .host] ++ List.replicate s.cfg.scanCount (.bte scanCh) ++ [.host])) =
          .next t ∧
      t.safe ∧ t.hostWait = .none ∧ t.pending = [] ∧ t.tape = s.tape ∧ t.mem = s.mem ∧
      t.wire = s.wire ++ s.fbBytes ∧ t.wireMarks = s.wireMarks ++ [s.wire.length] ∧
      t.scanState = .idle ∧ t.flushOffset = s.cfg.pixels

/-- R230, R231, a whole DRAW_END: HOST samples the signal low, then high, and then starts the scan and goes on without
waiting for it: nothing has been sent yet, memory is unchanged, and the progress is 0. -/
def Obligations.DrawEndStartsAFlushAfterTheEdge : Prop :=
  ∀ s : State, s.safe → s.cfg.wf → scanCh < s.numCh → (s.channel scanCh).remaining = 0 → s.te = false →
    0 < s.cfg.pixels →
    ∃ t, core.run 5 ((s.issuing [.drawEnd]).scheduled [.host, .host, .env, .host, .host]) = .next t ∧
      t.safe ∧ t.hostWait = .none ∧ t.pending = [] ∧ t.tape = s.tape ∧ t.mem = s.mem ∧ t.wire = s.wire ∧
      t.wireMarks = s.wireMarks ++ [s.wire.length] ∧ t.scanState = .flushing ∧ t.flushOffset = 0 ∧ t.te = true

/-- R344, R236: writes behind the cursor. Two memories that differ only in framebuffer pixels below the progress of the
flush in flight send the same bytes in the rest of that flush. -/
def Obligations.WritesBehindTheCursorAreNotSent : Prop :=
  ∀ (s : State) (m : Memory) (k : Nat), s.safe → s.cfg.wf → ScanInv s →
    (∀ x, (x < s.cfg.fbBase ∨ s.cfg.fbBase + 2 * s.flushOffset ≤ x) → m.byte x = s.mem.byte x) →
    ∃ t t', core.run k (s.scheduled (List.replicate k (.bte scanCh))) = .next t ∧
      core.run k ({ s with mem := m }.scheduled (List.replicate k (.bte scanCh))) = .next t' ∧ t'.wire = t.wire

/-! ## The whole machine -/

/-- Every step keeps memory in its canonical form (the form is the model's, log entry 2). -/
def Obligations.StepKeepsMemoryForm : Prop := ∀ s t : State, s.mem.wf → step s = .next t → t.mem.wf

/-- R65, R40: a step of any agent changes bytes of `STAGE`, `FB` and `FILL_CELL` only; the contents of `ASSET` never
change. -/
def Obligations.OnlyWritableRegionsChange : Prop :=
  ∀ (s t : State) (x : Nat), s.Inv → step s = .next t →
    (t.mem.byte x ≠ s.mem.byte x → inRegion s.cfg.stage x ∨ inRegion s.cfg.fb x ∨ inRegion s.cfg.fillCell x) ∧
    (inRegion s.cfg.asset x → t.mem.byte x = s.mem.byte x)

/-- R32, R133, R223: every step keeps HOST's wait true to what it waits for. -/
def Obligations.StepKeepsHostInvariant : Prop := ∀ s t : State, HostInv s → step s = .next t → HostInv t

/-- R33: every step keeps the flush marks in order and within the wire log, and the wire log and the marks only grow. -/
def Obligations.WireOnlyGrows : Prop :=
  ∀ s t : State, WireInv s → step s = .next t →
    WireInv t ∧ (∃ sent, t.wire = s.wire ++ sent) ∧ (∃ marks, t.wireMarks = s.wireMarks ++ marks)

/-- R9, R20, R291: no step changes a parameter or the number of channels, and a fault that a step records has a code
that R291 says a rule raises. -/
def Obligations.ParametersAndFaultCodesStayLegal : Prop :=
  ∀ s t : State, step s = .next t → t.cfg = s.cfg ∧ t.numCh = s.numCh ∧ (FaultInv s → FaultInv t)
end

