-- ==== Sys2Proof/Laws/Memory.lean ====
section
/-! SUPPORT. The laws of memory: a read after a write to the same place gives the value written, a write leaves every
other byte alone, and every operation keeps the canonical form. -/

namespace Sys2Proof.Machine

theorem Memory.byte_insertCell (m : Memory) (a : Nat) (b : Byte) (x : Nat) (h : ∀ c ∈ m, c.1 ≠ a) :
    (m.insertCell a b).byte x = if x = a then b else m.byte x := by
  induction m with
  | nil =>
    by_cases hx : x = a
    · subst hx; simp [Memory.insertCell, Memory.byte]
    · simp [Memory.insertCell, Memory.byte, hx, Ne.symm hx]
  | cons c rest ih =>
    obtain ⟨k, v⟩ := c
    have hk : k ≠ a := h (k, v) (by simp)
    have ih := ih fun c hc => h c (by simp [hc])
    unfold Memory.insertCell
    split
    · by_cases hx : x = a
      · subst hx; simp [Memory.byte]
      · simp [Memory.byte, hx, Ne.symm hx]
    · by_cases hx : x = a
      · subst hx; simp [Memory.byte, hk, ih]
      · simp [Memory.byte, hx, ih]

theorem Memory.byte_filter_ne (m : Memory) (a x : Nat) :
    Memory.byte (m.filter fun c => c.1 != a) x = if x = a then unwritten else m.byte x := by
  induction m with
  | nil => simp [Memory.byte]
  | cons c rest ih =>
    obtain ⟨k, v⟩ := c
    by_cases hk : k = a
    · subst hk
      by_cases hx : x = k
      · subst hx; simp [ih]
      · simp [Memory.byte, ih, hx, Ne.symm hx]
    · by_cases hx : x = a
      · subst hx; simp [Memory.byte, hk, ih]
      · simp [Memory.byte, hk, ih, hx]

/-- Reading a byte after a byte write: the byte written at its address, the old byte everywhere else. -/
@[simp] theorem Memory.byte_setByte (m : Memory) (a : Nat) (b : Byte) (x : Nat) :
    (m.setByte a b).byte x = if x = a then b else m.byte x := by
  unfold Memory.setByte
  split
  · next h => rw [Memory.byte_filter_ne, h]
  · rw [Memory.byte_insertCell, Memory.byte_filter_ne]
    · split <;> simp_all
    · intro c hc; simpa using (List.mem_filter.mp hc).2

theorem Memory.mem_insertCell (m : Memory) (a : Nat) (b : Byte) (c : Host.Cell) :
    c ∈ m.insertCell a b ↔ c = (a, b) ∨ c ∈ m := by
  induction m with
  | nil => simp [Memory.insertCell]
  | cons d rest ih =>
    obtain ⟨k, v⟩ := d
    unfold Memory.insertCell
    split
    · simp
    · simp only [List.mem_cons, ih]; tauto

theorem Memory.insertCell_sorted (m : Memory) (a : Nat) (b : Byte) (h : m.Pairwise fun x y => x.1 < y.1)
    (ha : ∀ c ∈ m, c.1 ≠ a) : (m.insertCell a b).Pairwise fun x y => x.1 < y.1 := by
  induction m with
  | nil => simp [Memory.insertCell]
  | cons d rest ih =>
    obtain ⟨k, v⟩ := d
    obtain ⟨h1, h2⟩ := List.pairwise_cons.mp h
    unfold Memory.insertCell
    split
    · next hlt =>
      refine List.pairwise_cons.mpr ⟨fun c hc => ?_, h⟩
      rcases List.mem_cons.mp hc with rfl | hc
      · exact hlt
      · exact lt_trans hlt (h1 c hc)
    · next hle =>
      have hk : k ≠ a := ha (k, v) (by simp)
      refine List.pairwise_cons.mpr ⟨fun c hc => ?_, ih h2 fun c hc => ha c (by simp [hc])⟩
      rcases (Memory.mem_insertCell rest a b c).mp hc with rfl | hc
      · show k < a; omega
      · exact h1 c hc

/-- A byte write keeps the canonical form. -/
theorem Memory.setByte_wf (m : Memory) (a : Nat) (b : Byte) (h : m.wf) : (m.setByte a b).wf := by
  have hs : (m.filter fun c => c.1 != a).Pairwise fun x y => x.1 < y.1 := h.1.filter _
  have hv : ∀ c ∈ m.filter fun c => c.1 != a, c.2 ≠ unwritten := fun c hc => h.2 c (List.mem_filter.mp hc).1
  unfold Memory.setByte
  split
  · exact ⟨hs, hv⟩
  · next hb =>
    refine ⟨Memory.insertCell_sorted _ a b hs fun c hc => by simpa using (List.mem_filter.mp hc).2, fun c hc => ?_⟩
    rcases (Memory.mem_insertCell _ a b c).mp hc with rfl | hc
    · exact hb
    · exact hv c hc

/-- A write keeps the canonical form. -/
theorem Memory.write_wf (m : Memory) (a n v : Nat) (h : m.wf) : (m.write a n v).wf := by
  induction n generalizing m a v with
  | zero => exact h
  | succ n ih => exact ih _ _ _ (Memory.setByte_wf m a _ h)

/-- Every byte after a write of `n` bytes of `v` at `a`: byte `x - a` of `v` inside, the old byte outside. -/
theorem Memory.byte_write (m : Memory) (a n v x : Nat) :
    (m.write a n v).byte x =
      if a ≤ x ∧ x < a + n then BitVec.ofNat 8 (v / 256 ^ (x - a)) else m.byte x := by
  induction n generalizing m a v with
  | zero => simp [Memory.write]
  | succ n ih =>
    rw [Memory.write, ih, Memory.byte_setByte]
    rcases Nat.lt_trichotomy x a with hx | rfl | hx
    · rw [if_neg (by omega), if_neg (by omega), if_neg (by omega)]
    · simp
    · rw [if_neg (by omega : ¬ x = a)]
      by_cases hin : x < a + (n + 1)
      · rw [if_pos (by omega), if_pos (by omega), Nat.div_div_eq_div_mul, ← Nat.pow_succ']
        congr 3; omega
      · rw [if_neg (by omega), if_neg (by omega)]

/-- A byte outside the bytes written reads as before. -/
theorem Memory.byte_write_outside (m : Memory) (a n v x : Nat) (h : x < a ∨ a + n ≤ x) :
    (m.write a n v).byte x = m.byte x := by
  rw [Memory.byte_write, if_neg (by omega)]

/-- A read depends on the bytes it covers and on no other. -/
theorem Memory.read_congr (m m' : Memory) (a n : Nat)
    (h : ∀ x, a ≤ x → x < a + n → m.byte x = m'.byte x) : m.read a n = m'.read a n := by
  induction n generalizing a with
  | zero => rfl
  | succ n ih =>
    rw [Memory.read, Memory.read, h a (by omega) (by omega), ih (a + 1) fun x h1 h2 => h x (by omega) (by omega)]

/-- An `n`-byte value is below `256 ^ n`. -/
theorem Memory.read_lt (m : Memory) (a n : Nat) : m.read a n < 256 ^ n := by
  induction n generalizing a with
  | zero => simp [Memory.read]
  | succ n ih =>
    have h1 := ih (a + 1)
    have h2 : (m.byte a).toNat < 256 := (m.byte a).isLt
    rw [Memory.read, Nat.pow_succ]; omega

/-- A read after a write to the same place gives the `n` low bytes written. -/
theorem Memory.read_write (m : Memory) (a n v : Nat) : (m.write a n v).read a n = v % 256 ^ n := by
  induction n generalizing m a v with
  | zero => simp [Memory.read, Nat.mod_one]
  | succ n ih =>
    have hb : ((m.write a (n + 1) v).byte a).toNat = v % 256 := by
      rw [Memory.byte_write, if_pos (by omega)]; simp
    rw [Memory.read, hb, Memory.write, ih, Nat.pow_succ', Nat.mod_mul]

/-- A write elsewhere leaves a read as it is. -/
theorem Memory.read_write_apart (m : Memory) (a n v b k : Nat) (h : b + k ≤ a ∨ a + n ≤ b) :
    (m.write a n v).read b k = m.read b k :=
  Memory.read_congr _ _ _ _ fun x h1 h2 => Memory.byte_write_outside m a n v x (by omega)

/-- Below the first cell every address reads as unwritten. -/
theorem Memory.byte_below (m : Memory) (x : Nat) (h : ∀ c ∈ m, x < c.1) : m.byte x = unwritten := by
  induction m with
  | nil => rfl
  | cons c rest ih =>
    obtain ⟨k, v⟩ := c
    have hk : x < k := h (k, v) (by simp)
    rw [Memory.byte, if_neg (by omega)]
    exact ih fun c hc => h c (by simp [hc])

/-- Memories in canonical form that read alike at every address are equal. -/
theorem Memory.ext_byte (m m' : Memory) (hm : m.wf) (hm' : m'.wf) (h : ∀ x, m.byte x = m'.byte x) : m = m' := by
  induction m generalizing m' with
  | nil =>
    cases m' with
    | nil => rfl
    | cons d q => exact absurd (by simpa [Memory.byte] using (h d.1).symm) (hm'.2 d (by simp))
  | cons c r ih =>
    have first : ∀ (d : Host.Cell) (q : Memory), Memory.byte (d :: q) d.1 = d.2 := fun d q => by simp [Memory.byte]
    cases m' with
    | nil => exact absurd (by simpa [Memory.byte] using h c.1) (hm.2 c (by simp))
    | cons d q =>
      have hc := List.pairwise_cons.mp hm.1
      have hd := List.pairwise_cons.mp hm'.1
      have hk : c.1 = d.1 := by
        rcases Nat.lt_trichotomy c.1 d.1 with hlt | heq | hlt
        · have := h c.1
          rw [first, Memory.byte_below (d :: q) c.1] at this
          · exact absurd this (hm.2 c (by simp))
          · intro e he
            rcases List.mem_cons.mp he with rfl | he
            · exact hlt
            · exact lt_trans hlt (hd.1 e he)
        · exact heq
        · have := h d.1
          rw [first, Memory.byte_below (c :: r) d.1] at this
          · exact absurd this.symm (hm'.2 d (by simp))
          · intro e he
            rcases List.mem_cons.mp he with rfl | he
            · exact hlt
            · exact lt_trans hlt (hc.1 e he)
      have hv : c.2 = d.2 := by rw [← first c r, ← first d q, ← hk]; exact h c.1
      obtain rfl : c = d := Prod.ext hk hv
      congr 1
      refine ih q ⟨hc.2, fun e he => hm.2 e (by simp [he])⟩ ⟨hd.2, fun e he => hm'.2 e (by simp [he])⟩ fun x => ?_
      by_cases hx : c.1 = x
      · subst hx
        rw [Memory.byte_below r _ hc.1, Memory.byte_below q _ hd.1]
      · simpa [Memory.byte, hx] using h x

end Sys2Proof.Machine
end

