-- ==== Sys2Proof/Laws/State.lean ====
section
/-! SUPPORT. One lemma per field per update of the state, so that no later proof unfolds a record update. -/

namespace Sys2Proof.Machine

/-! Raising a fault (R294). -/

@[simp] theorem State.raise_mem (s : State) (f : FaultCode) (info : U32) : (s.raise f info).mem = s.mem := by unfold State.raise; split <;> rfl
@[simp] theorem State.raise_dec (s : State) (f : FaultCode) (info : U32) : (s.raise f info).dec = s.dec := by unfold State.raise; split <;> rfl
@[simp] theorem State.raise_bte (s : State) (f : FaultCode) (info : U32) : (s.raise f info).bte = s.bte := by unfold State.raise; split <;> rfl
@[simp] theorem State.raise_scanStarted (s : State) (f : FaultCode) (info : U32) : (s.raise f info).scanStarted = s.scanStarted := by unfold State.raise; split <;> rfl
@[simp] theorem State.raise_te (s : State) (f : FaultCode) (info : U32) : (s.raise f info).te = s.te := by unfold State.raise; split <;> rfl
@[simp] theorem State.raise_vsPhase (s : State) (f : FaultCode) (info : U32) : (s.raise f info).vsPhase = s.vsPhase := by unfold State.raise; split <;> rfl
@[simp] theorem State.raise_hostWait (s : State) (f : FaultCode) (info : U32) : (s.raise f info).hostWait = s.hostWait := by unfold State.raise; split <;> rfl
@[simp] theorem State.raise_refused (s : State) (f : FaultCode) (info : U32) : (s.raise f info).refused = s.refused := by unfold State.raise; split <;> rfl
@[simp] theorem State.raise_wire (s : State) (f : FaultCode) (info : U32) : (s.raise f info).wire = s.wire := by unfold State.raise; split <;> rfl
@[simp] theorem State.raise_wireMarks (s : State) (f : FaultCode) (info : U32) : (s.raise f info).wireMarks = s.wireMarks := by unfold State.raise; split <;> rfl
@[simp] theorem State.raise_cfg (s : State) (f : FaultCode) (info : U32) : (s.raise f info).cfg = s.cfg := by unfold State.raise; split <;> rfl
@[simp] theorem State.raise_ret (s : State) (f : FaultCode) (info : U32) : (s.raise f info).ret = s.ret := by unfold State.raise; split <;> rfl
@[simp] theorem State.raise_prog (s : State) (f : FaultCode) (info : U32) : (s.raise f info).prog = s.prog := by unfold State.raise; split <;> rfl
@[simp] theorem State.raise_pending (s : State) (f : FaultCode) (info : U32) : (s.raise f info).pending = s.pending := by unfold State.raise; split <;> rfl
@[simp] theorem State.raise_tape (s : State) (f : FaultCode) (info : U32) : (s.raise f info).tape = s.tape := by unfold State.raise; split <;> rfl
@[simp] theorem State.raise_turns (s : State) (f : FaultCode) (info : U32) : (s.raise f info).turns = s.turns := by unfold State.raise; split <;> rfl

@[simp] theorem State.raise_fault (s : State) (f : FaultCode) (info : U32) :
    (s.raise f info).fault = if s.fault.valid then s.fault else ⟨true, f.code, info⟩ := by
  unfold State.raise; split <;> rfl

/-! Refusing a command (R299). -/

@[simp] theorem State.refuse_mem (s : State) : (s.refuse).mem = s.mem := rfl
@[simp] theorem State.refuse_dec (s : State) : (s.refuse).dec = s.dec := rfl
@[simp] theorem State.refuse_bte (s : State) : (s.refuse).bte = s.bte := rfl
@[simp] theorem State.refuse_scanStarted (s : State) : (s.refuse).scanStarted = s.scanStarted := rfl
@[simp] theorem State.refuse_te (s : State) : (s.refuse).te = s.te := rfl
@[simp] theorem State.refuse_vsPhase (s : State) : (s.refuse).vsPhase = s.vsPhase := rfl
@[simp] theorem State.refuse_hostWait (s : State) : (s.refuse).hostWait = s.hostWait := rfl
@[simp] theorem State.refuse_fault (s : State) : (s.refuse).fault = s.fault := rfl
@[simp] theorem State.refuse_wire (s : State) : (s.refuse).wire = s.wire := rfl
@[simp] theorem State.refuse_wireMarks (s : State) : (s.refuse).wireMarks = s.wireMarks := rfl
@[simp] theorem State.refuse_cfg (s : State) : (s.refuse).cfg = s.cfg := rfl
@[simp] theorem State.refuse_ret (s : State) : (s.refuse).ret = s.ret := rfl
@[simp] theorem State.refuse_prog (s : State) : (s.refuse).prog = s.prog := rfl
@[simp] theorem State.refuse_pending (s : State) : (s.refuse).pending = s.pending := rfl
@[simp] theorem State.refuse_tape (s : State) : (s.refuse).tape = s.tape := rfl
@[simp] theorem State.refuse_turns (s : State) : (s.refuse).turns = s.turns := rfl

@[simp] theorem State.refuse_refused (s : State) : s.refuse.refused = true := rfl

/-! Taking a trap. -/

@[simp] theorem State.trap_mem (s : State) (e : Trap) : (s.trap e).mem = s.mem := by cases e <;> simp [State.trap]
@[simp] theorem State.trap_dec (s : State) (e : Trap) : (s.trap e).dec = s.dec := by cases e <;> simp [State.trap]
@[simp] theorem State.trap_bte (s : State) (e : Trap) : (s.trap e).bte = s.bte := by cases e <;> simp [State.trap]
@[simp] theorem State.trap_scanStarted (s : State) (e : Trap) : (s.trap e).scanStarted = s.scanStarted := by cases e <;> simp [State.trap]
@[simp] theorem State.trap_te (s : State) (e : Trap) : (s.trap e).te = s.te := by cases e <;> simp [State.trap]
@[simp] theorem State.trap_vsPhase (s : State) (e : Trap) : (s.trap e).vsPhase = s.vsPhase := by cases e <;> simp [State.trap]
@[simp] theorem State.trap_hostWait (s : State) (e : Trap) : (s.trap e).hostWait = s.hostWait := by cases e <;> simp [State.trap]
@[simp] theorem State.trap_wire (s : State) (e : Trap) : (s.trap e).wire = s.wire := by cases e <;> simp [State.trap]
@[simp] theorem State.trap_wireMarks (s : State) (e : Trap) : (s.trap e).wireMarks = s.wireMarks := by cases e <;> simp [State.trap]
@[simp] theorem State.trap_cfg (s : State) (e : Trap) : (s.trap e).cfg = s.cfg := by cases e <;> simp [State.trap]
@[simp] theorem State.trap_ret (s : State) (e : Trap) : (s.trap e).ret = s.ret := by cases e <;> simp [State.trap]
@[simp] theorem State.trap_prog (s : State) (e : Trap) : (s.trap e).prog = s.prog := by cases e <;> simp [State.trap]
@[simp] theorem State.trap_pending (s : State) (e : Trap) : (s.trap e).pending = s.pending := by cases e <;> simp [State.trap]
@[simp] theorem State.trap_tape (s : State) (e : Trap) : (s.trap e).tape = s.tape := by cases e <;> simp [State.trap]
@[simp] theorem State.trap_turns (s : State) (e : Trap) : (s.trap e).turns = s.turns := by cases e <;> simp [State.trap]

/-! Using up a turn (R76). -/

@[simp] theorem State.passTurn_mem (s : State) : (s.passTurn).mem = s.mem := rfl
@[simp] theorem State.passTurn_dec (s : State) : (s.passTurn).dec = s.dec := rfl
@[simp] theorem State.passTurn_bte (s : State) : (s.passTurn).bte = s.bte := rfl
@[simp] theorem State.passTurn_scanStarted (s : State) : (s.passTurn).scanStarted = s.scanStarted := rfl
@[simp] theorem State.passTurn_te (s : State) : (s.passTurn).te = s.te := rfl
@[simp] theorem State.passTurn_vsPhase (s : State) : (s.passTurn).vsPhase = s.vsPhase := rfl
@[simp] theorem State.passTurn_hostWait (s : State) : (s.passTurn).hostWait = s.hostWait := rfl
@[simp] theorem State.passTurn_fault (s : State) : (s.passTurn).fault = s.fault := rfl
@[simp] theorem State.passTurn_refused (s : State) : (s.passTurn).refused = s.refused := rfl
@[simp] theorem State.passTurn_wire (s : State) : (s.passTurn).wire = s.wire := rfl
@[simp] theorem State.passTurn_wireMarks (s : State) : (s.passTurn).wireMarks = s.wireMarks := rfl
@[simp] theorem State.passTurn_cfg (s : State) : (s.passTurn).cfg = s.cfg := rfl
@[simp] theorem State.passTurn_ret (s : State) : (s.passTurn).ret = s.ret := rfl
@[simp] theorem State.passTurn_prog (s : State) : (s.passTurn).prog = s.prog := rfl
@[simp] theorem State.passTurn_pending (s : State) : (s.passTurn).pending = s.pending := rfl

@[simp] theorem State.passTurn_tape (s : State) : s.passTurn.tape = s.tape.tail := rfl
@[simp] theorem State.passTurn_turns (s : State) : s.passTurn.turns = s.turns + 1 := rfl

/-! Writing a channel's registers. -/

@[simp] theorem State.setChannel_mem (s : State) (c : Nat) (ch : Channel) : (s.setChannel c ch).mem = s.mem := rfl
@[simp] theorem State.setChannel_dec (s : State) (c : Nat) (ch : Channel) : (s.setChannel c ch).dec = s.dec := rfl
@[simp] theorem State.setChannel_scanStarted (s : State) (c : Nat) (ch : Channel) : (s.setChannel c ch).scanStarted = s.scanStarted := rfl
@[simp] theorem State.setChannel_te (s : State) (c : Nat) (ch : Channel) : (s.setChannel c ch).te = s.te := rfl
@[simp] theorem State.setChannel_vsPhase (s : State) (c : Nat) (ch : Channel) : (s.setChannel c ch).vsPhase = s.vsPhase := rfl
@[simp] theorem State.setChannel_hostWait (s : State) (c : Nat) (ch : Channel) : (s.setChannel c ch).hostWait = s.hostWait := rfl
@[simp] theorem State.setChannel_fault (s : State) (c : Nat) (ch : Channel) : (s.setChannel c ch).fault = s.fault := rfl
@[simp] theorem State.setChannel_refused (s : State) (c : Nat) (ch : Channel) : (s.setChannel c ch).refused = s.refused := rfl
@[simp] theorem State.setChannel_wire (s : State) (c : Nat) (ch : Channel) : (s.setChannel c ch).wire = s.wire := rfl
@[simp] theorem State.setChannel_wireMarks (s : State) (c : Nat) (ch : Channel) : (s.setChannel c ch).wireMarks = s.wireMarks := rfl
@[simp] theorem State.setChannel_cfg (s : State) (c : Nat) (ch : Channel) : (s.setChannel c ch).cfg = s.cfg := rfl
@[simp] theorem State.setChannel_ret (s : State) (c : Nat) (ch : Channel) : (s.setChannel c ch).ret = s.ret := rfl
@[simp] theorem State.setChannel_prog (s : State) (c : Nat) (ch : Channel) : (s.setChannel c ch).prog = s.prog := rfl
@[simp] theorem State.setChannel_pending (s : State) (c : Nat) (ch : Channel) : (s.setChannel c ch).pending = s.pending := rfl
@[simp] theorem State.setChannel_tape (s : State) (c : Nat) (ch : Channel) : (s.setChannel c ch).tape = s.tape := rfl
@[simp] theorem State.setChannel_turns (s : State) (c : Nat) (ch : Channel) : (s.setChannel c ch).turns = s.turns := rfl

@[simp] theorem State.setChannel_bte (s : State) (c : Nat) (ch : Channel) :
    (s.setChannel c ch).bte = s.bte.set c ch := rfl

/-! A write of memory or of the display port (R68). -/

@[simp] theorem State.store_dec (s : State) (a n : Nat) (v : U32) : (s.store a n v).dec = s.dec := by unfold State.store; split <;> rfl
@[simp] theorem State.store_bte (s : State) (a n : Nat) (v : U32) : (s.store a n v).bte = s.bte := by unfold State.store; split <;> rfl
@[simp] theorem State.store_scanStarted (s : State) (a n : Nat) (v : U32) : (s.store a n v).scanStarted = s.scanStarted := by unfold State.store; split <;> rfl
@[simp] theorem State.store_te (s : State) (a n : Nat) (v : U32) : (s.store a n v).te = s.te := by unfold State.store; split <;> rfl
@[simp] theorem State.store_vsPhase (s : State) (a n : Nat) (v : U32) : (s.store a n v).vsPhase = s.vsPhase := by unfold State.store; split <;> rfl
@[simp] theorem State.store_hostWait (s : State) (a n : Nat) (v : U32) : (s.store a n v).hostWait = s.hostWait := by unfold State.store; split <;> rfl
@[simp] theorem State.store_fault (s : State) (a n : Nat) (v : U32) : (s.store a n v).fault = s.fault := by unfold State.store; split <;> rfl
@[simp] theorem State.store_refused (s : State) (a n : Nat) (v : U32) : (s.store a n v).refused = s.refused := by unfold State.store; split <;> rfl
@[simp] theorem State.store_wireMarks (s : State) (a n : Nat) (v : U32) : (s.store a n v).wireMarks = s.wireMarks := by unfold State.store; split <;> rfl
@[simp] theorem State.store_cfg (s : State) (a n : Nat) (v : U32) : (s.store a n v).cfg = s.cfg := by unfold State.store; split <;> rfl
@[simp] theorem State.store_ret (s : State) (a n : Nat) (v : U32) : (s.store a n v).ret = s.ret := by unfold State.store; split <;> rfl
@[simp] theorem State.store_prog (s : State) (a n : Nat) (v : U32) : (s.store a n v).prog = s.prog := by unfold State.store; split <;> rfl
@[simp] theorem State.store_pending (s : State) (a n : Nat) (v : U32) : (s.store a n v).pending = s.pending := by unfold State.store; split <;> rfl
@[simp] theorem State.store_tape (s : State) (a n : Nat) (v : U32) : (s.store a n v).tape = s.tape := by unfold State.store; split <;> rfl
@[simp] theorem State.store_turns (s : State) (a n : Nat) (v : U32) : (s.store a n v).turns = s.turns := by unfold State.store; split <;> rfl

/-! A write of the slot at the cursor. -/

@[simp] theorem State.storeSlot_dec (s : State) (v : U16) : (s.storeSlot v).dec = s.dec := by simp [State.storeSlot]
@[simp] theorem State.storeSlot_bte (s : State) (v : U16) : (s.storeSlot v).bte = s.bte := by simp [State.storeSlot]
@[simp] theorem State.storeSlot_scanStarted (s : State) (v : U16) : (s.storeSlot v).scanStarted = s.scanStarted := by simp [State.storeSlot]
@[simp] theorem State.storeSlot_te (s : State) (v : U16) : (s.storeSlot v).te = s.te := by simp [State.storeSlot]
@[simp] theorem State.storeSlot_vsPhase (s : State) (v : U16) : (s.storeSlot v).vsPhase = s.vsPhase := by simp [State.storeSlot]
@[simp] theorem State.storeSlot_hostWait (s : State) (v : U16) : (s.storeSlot v).hostWait = s.hostWait := by simp [State.storeSlot]
@[simp] theorem State.storeSlot_fault (s : State) (v : U16) : (s.storeSlot v).fault = s.fault := by simp [State.storeSlot]
@[simp] theorem State.storeSlot_refused (s : State) (v : U16) : (s.storeSlot v).refused = s.refused := by simp [State.storeSlot]
@[simp] theorem State.storeSlot_wireMarks (s : State) (v : U16) : (s.storeSlot v).wireMarks = s.wireMarks := by simp [State.storeSlot]
@[simp] theorem State.storeSlot_cfg (s : State) (v : U16) : (s.storeSlot v).cfg = s.cfg := by simp [State.storeSlot]
@[simp] theorem State.storeSlot_ret (s : State) (v : U16) : (s.storeSlot v).ret = s.ret := by simp [State.storeSlot]
@[simp] theorem State.storeSlot_prog (s : State) (v : U16) : (s.storeSlot v).prog = s.prog := by simp [State.storeSlot]
@[simp] theorem State.storeSlot_pending (s : State) (v : U16) : (s.storeSlot v).pending = s.pending := by simp [State.storeSlot]
@[simp] theorem State.storeSlot_tape (s : State) (v : U16) : (s.storeSlot v).tape = s.tape := by simp [State.storeSlot]
@[simp] theorem State.storeSlot_turns (s : State) (v : U16) : (s.storeSlot v).turns = s.turns := by simp [State.storeSlot]

/-! A command still to be issued. -/

@[simp] theorem State.reissue_mem (s : State) (i : Instr) : (s.reissue i).mem = s.mem := rfl
@[simp] theorem State.reissue_dec (s : State) (i : Instr) : (s.reissue i).dec = s.dec := rfl
@[simp] theorem State.reissue_bte (s : State) (i : Instr) : (s.reissue i).bte = s.bte := rfl
@[simp] theorem State.reissue_scanStarted (s : State) (i : Instr) : (s.reissue i).scanStarted = s.scanStarted := rfl
@[simp] theorem State.reissue_te (s : State) (i : Instr) : (s.reissue i).te = s.te := rfl
@[simp] theorem State.reissue_vsPhase (s : State) (i : Instr) : (s.reissue i).vsPhase = s.vsPhase := rfl
@[simp] theorem State.reissue_hostWait (s : State) (i : Instr) : (s.reissue i).hostWait = s.hostWait := rfl
@[simp] theorem State.reissue_fault (s : State) (i : Instr) : (s.reissue i).fault = s.fault := rfl
@[simp] theorem State.reissue_refused (s : State) (i : Instr) : (s.reissue i).refused = s.refused := rfl
@[simp] theorem State.reissue_wire (s : State) (i : Instr) : (s.reissue i).wire = s.wire := rfl
@[simp] theorem State.reissue_wireMarks (s : State) (i : Instr) : (s.reissue i).wireMarks = s.wireMarks := rfl
@[simp] theorem State.reissue_cfg (s : State) (i : Instr) : (s.reissue i).cfg = s.cfg := rfl
@[simp] theorem State.reissue_ret (s : State) (i : Instr) : (s.reissue i).ret = s.ret := rfl
@[simp] theorem State.reissue_prog (s : State) (i : Instr) : (s.reissue i).prog = s.prog := rfl
@[simp] theorem State.reissue_tape (s : State) (i : Instr) : (s.reissue i).tape = s.tape := rfl
@[simp] theorem State.reissue_turns (s : State) (i : Instr) : (s.reissue i).turns = s.turns := rfl

@[simp] theorem State.reissue_pending (s : State) (i : Instr) : (s.reissue i).pending = i :: s.pending := rfl

/-! A given schedule. -/

@[simp] theorem State.scheduled_mem (s : State) (l : List Agent) : (s.scheduled l).mem = s.mem := rfl
@[simp] theorem State.scheduled_dec (s : State) (l : List Agent) : (s.scheduled l).dec = s.dec := rfl
@[simp] theorem State.scheduled_bte (s : State) (l : List Agent) : (s.scheduled l).bte = s.bte := rfl
@[simp] theorem State.scheduled_scanStarted (s : State) (l : List Agent) : (s.scheduled l).scanStarted = s.scanStarted := rfl
@[simp] theorem State.scheduled_te (s : State) (l : List Agent) : (s.scheduled l).te = s.te := rfl
@[simp] theorem State.scheduled_vsPhase (s : State) (l : List Agent) : (s.scheduled l).vsPhase = s.vsPhase := rfl
@[simp] theorem State.scheduled_hostWait (s : State) (l : List Agent) : (s.scheduled l).hostWait = s.hostWait := rfl
@[simp] theorem State.scheduled_fault (s : State) (l : List Agent) : (s.scheduled l).fault = s.fault := rfl
@[simp] theorem State.scheduled_refused (s : State) (l : List Agent) : (s.scheduled l).refused = s.refused := rfl
@[simp] theorem State.scheduled_wire (s : State) (l : List Agent) : (s.scheduled l).wire = s.wire := rfl
@[simp] theorem State.scheduled_wireMarks (s : State) (l : List Agent) : (s.scheduled l).wireMarks = s.wireMarks := rfl
@[simp] theorem State.scheduled_cfg (s : State) (l : List Agent) : (s.scheduled l).cfg = s.cfg := rfl
@[simp] theorem State.scheduled_ret (s : State) (l : List Agent) : (s.scheduled l).ret = s.ret := rfl
@[simp] theorem State.scheduled_prog (s : State) (l : List Agent) : (s.scheduled l).prog = s.prog := rfl
@[simp] theorem State.scheduled_pending (s : State) (l : List Agent) : (s.scheduled l).pending = s.pending := rfl
@[simp] theorem State.scheduled_turns (s : State) (l : List Agent) : (s.scheduled l).turns = s.turns := rfl

@[simp] theorem State.scheduled_tape (s : State) (l : List Agent) : (s.scheduled l).tape = l ++ s.tape := rfl

/-! HOST about to issue commands. -/

@[simp] theorem State.issuing_mem (s : State) (l : List Instr) : (s.issuing l).mem = s.mem := rfl
@[simp] theorem State.issuing_dec (s : State) (l : List Instr) : (s.issuing l).dec = s.dec := rfl
@[simp] theorem State.issuing_bte (s : State) (l : List Instr) : (s.issuing l).bte = s.bte := rfl
@[simp] theorem State.issuing_scanStarted (s : State) (l : List Instr) : (s.issuing l).scanStarted = s.scanStarted := rfl
@[simp] theorem State.issuing_te (s : State) (l : List Instr) : (s.issuing l).te = s.te := rfl
@[simp] theorem State.issuing_vsPhase (s : State) (l : List Instr) : (s.issuing l).vsPhase = s.vsPhase := rfl
@[simp] theorem State.issuing_fault (s : State) (l : List Instr) : (s.issuing l).fault = s.fault := rfl
@[simp] theorem State.issuing_refused (s : State) (l : List Instr) : (s.issuing l).refused = s.refused := rfl
@[simp] theorem State.issuing_wire (s : State) (l : List Instr) : (s.issuing l).wire = s.wire := rfl
@[simp] theorem State.issuing_wireMarks (s : State) (l : List Instr) : (s.issuing l).wireMarks = s.wireMarks := rfl
@[simp] theorem State.issuing_cfg (s : State) (l : List Instr) : (s.issuing l).cfg = s.cfg := rfl
@[simp] theorem State.issuing_ret (s : State) (l : List Instr) : (s.issuing l).ret = s.ret := rfl
@[simp] theorem State.issuing_prog (s : State) (l : List Instr) : (s.issuing l).prog = s.prog := rfl
@[simp] theorem State.issuing_tape (s : State) (l : List Instr) : (s.issuing l).tape = s.tape := rfl
@[simp] theorem State.issuing_turns (s : State) (l : List Instr) : (s.issuing l).turns = s.turns := rfl

@[simp] theorem State.issuing_hostWait (s : State) (l : List Instr) : (s.issuing l).hostWait = .none := rfl
@[simp] theorem State.issuing_pending (s : State) (l : List Instr) : (s.issuing l).pending = l := rfl

end Sys2Proof.Machine
end

