-- ==== Sys2Proof/Laws/Ops.lean ====
section
/-! SUPPORT. What each shared operation can do, said once: the provers cite these instead of unfolding the
operations. -/

namespace Sys2Proof.Machine

/-! Settling an attempt. -/

@[simp] theorem settle_ok (s t : State) : settle s (.ok t) = .next t := rfl

@[simp] theorem settle_error (s : State) (e : Trap) : settle s (.error e) = .next (s.trap e) := rfl

@[simp] theorem trap_raise (s : State) (f : FaultCode) (info : U32) : s.trap (.raise f info) = s.raise f info := rfl

@[simp] theorem trap_refuse (s : State) : s.trap .refuse = s.refuse := rfl

/-- An attempt settled in `s` answers its own state, or `s` with a trap taken. -/
theorem settle_eq_next {s t : State} {a : Attempt} :
    settle s a = .next t ↔ a = .ok t ∨ ∃ e, a = .error e ∧ t = s.trap e := by
  cases a <;> simp [settle, eq_comm]

/-- A composite's first part took effect and the others were left, or it trapped. -/
theorem andThen_eq_ok {a : Attempt} {is : List Instr} {t : State} :
    andThen a is = .ok t ↔ ∃ u, a = .ok u ∧ t = { u with pending := is ++ u.pending } := by
  cases a <;> simp [andThen, eq_comm]

/-! Channels. -/

/-- Reading a channel after writing one. -/
@[simp] theorem State.channel_setChannel (s : State) (c d : Nat) (ch : Channel) :
    (s.setChannel c ch).channel d = if d = c ∧ c < s.numCh then ch else s.channel d := by
  unfold State.channel State.numCh
  rw [State.setChannel_bte, List.getD_eq_getElem?_getD, List.getD_eq_getElem?_getD, List.getElem?_set]
  by_cases h : c = d
  · subst h
    by_cases hc : c < s.bte.length <;> simp [hc]
  · simp [h, Ne.symm h]

@[simp] theorem State.numCh_setChannel (s : State) (c : Nat) (ch : Channel) :
    (s.setChannel c ch).numCh = s.numCh := by
  simp [State.numCh]

/-! Memory and the display port. -/

/-- A store outside the display port is a write of memory and of nothing else. -/
theorem State.store_memory (s : State) (a n : Nat) (v : U32) (h : holds s.cfg.display a 1 = false) :
    s.store a n v = { s with mem := s.mem.write a n v.toNat } := by
  simp [State.store, h]

/-- A store inside the display port appends to the wire and stores nothing (R68). -/
theorem State.store_display (s : State) (a n : Nat) (v : U32) (h : holds s.cfg.display a 1 = true) :
    s.store a n v = { s with wire := s.wire ++ lowBytes v n } := by
  simp [State.store, h]

/-- Every byte of memory after a store. -/
theorem State.byte_store (s : State) (a n : Nat) (v : U32) (x : Nat) :
    (s.store a n v).mem.byte x =
      if holds s.cfg.display a 1 = false ∧ a ≤ x ∧ x < a + n then BitVec.ofNat 8 (v.toNat / 256 ^ (x - a))
      else s.mem.byte x := by
  cases h : holds s.cfg.display a 1
  · rw [State.store_memory _ _ _ _ h]; simp [Memory.byte_write]
  · rw [State.store_display _ _ _ _ h]; simp

/-- A byte of a value, by division and by its place in the word. -/
theorem ofNat_div_eq_byteOf (v : U32) (k : Nat) : BitVec.ofNat 8 (v.toNat / 256 ^ k) = byteOf v k := by
  apply BitVec.eq_of_toNat_eq
  simp [byteOf, BitVec.extractLsb', Nat.shiftRight_eq_div_pow, Nat.pow_mul]

/-- A store outside the display port writes its own bytes and no other. -/
theorem State.store_writesOnly (s : State) (a n : Nat) (v : U32) (h : holds s.cfg.display a 1 = false) :
    WritesOnly s.mem (s.store a n v).mem a n v := by
  intro x
  rw [State.byte_store]
  simp only [h, true_and, ofNat_div_eq_byteOf]

/-- A store keeps the canonical form of memory. -/
theorem State.store_wf (s : State) (a n : Nat) (v : U32) (h : s.mem.wf) : (s.store a n v).mem.wf := by
  unfold State.store
  split
  · exact h
  · exact Memory.write_wf _ _ _ _ h

/-- The wire only grows in a store. -/
theorem State.store_wire (s : State) (a n : Nat) (v : U32) :
    (s.store a n v).wire = s.wire ++ if holds s.cfg.display a 1 then lowBytes v n else [] := by
  unfold State.store
  split <;> simp_all

/-! The `count` register. -/

/-- The `count` register holds the operand where the operand fits `COUNT_BITS` bits. -/
theorem countField_eq_self {k : Config} {count : U32} (h : count.toNat < 2 ^ k.countBits) :
    countField k count = count := by
  rw [countField, Nat.mod_eq_of_lt h, BitVec.ofNat_toNat, BitVec.setWidth_eq]

/-- The elements of one flush fit the `count` register, under the spec's constraints on the parameters. -/
theorem countField_scanCount {k : Config} (h : k.wf) :
    countField k (BitVec.ofNat 32 k.scanCount) = BitVec.ofNat 32 k.scanCount := by
  apply countField_eq_self
  have hc : k.scanCount ≤ 2 * k.pixels := Nat.div_le_self _ _
  have hp := h.1.2.2.1
  exact lt_of_le_of_lt (Nat.mod_le _ _) (lt_of_le_of_lt hc hp)

/-! The checks. -/

/-- A check in a list of checks passes when its condition fails and the rest of the list passes. -/
theorem check_eq_none {p : Prop} [Decidable p] {e : Trap} {rest : Option Trap} :
    (if p then some e else rest) = none ↔ ¬p ∧ rest = none := by
  by_cases h : p <;> simp [h]

/-- A range that is not empty is admitted exactly when one of the regions holds it. -/
theorem admitted_iff (rs : List Region) (a len : Nat) :
    admitted rs a len = true ↔ len = 0 ∨ ∃ r ∈ rs, r.base ≤ a ∧ a + len ≤ r.base + r.size := by
  simp [admitted, holds]

/-- A HOST access passes its checks exactly when its size is legal, its address aligned, and one region holds it. -/
theorem hostAccessCheck_eq_none (rs : List Region) (addr n : U32) :
    hostAccessCheck rs addr n = none ↔
      legalSize n.toNat = true ∧ aligned addr.toNat n.toNat = true ∧ admitted rs addr.toNat n.toNat = true := by
  simp only [hostAccessCheck, check_eq_none]; simp

/-- DECOMPRESS passes its checks exactly when both bases are even, both ranges admitted, and they share no byte. -/
theorem decompressCheck_eq_none (k : Config) (a al b bl : U32) :
    decompressCheck k a al b bl = none ↔
      aligned a.toNat 2 = true ∧ aligned b.toNat 2 = true ∧ admitted (decReadable k) a.toNat (2 * al.toNat) = true ∧
        admitted (decWritable k) b.toNat (2 * bl.toNat) = true ∧
        shareNoByte a.toNat (2 * al.toNat) b.toNat (2 * bl.toNat) = true := by
  simp only [decompressCheck, check_eq_none]; simp

/-- CONFIGURE passes its checks exactly when each of them holds. -/
theorem configureCheck_eq_none (scan : Bool) (c src dst esize opts : U32) (s : State) :
    configureCheck scan c src dst esize opts s = none ↔
      c.toNat < s.numCh ∧ legalSize esize.toNat = true ∧ optsValid opts = true ∧
        (c.toNat = scanCh → scan = true) ∧ (s.channel c.toNat).remaining = 0 ∧
        aligned src.toNat esize.toNat = true ∧ aligned dst.toNat esize.toNat = true := by
  simp only [configureCheck, check_eq_none]; simp

/-- START passes its checks exactly when each of them holds. -/
theorem startCheck_eq_none (scan : Bool) (c : U32) (s : State) :
    startCheck scan c s = none ↔
      c.toNat < s.numCh ∧ (c.toNat = scanCh → scan = true) ∧ (s.channel c.toNat).configured = true ∧
        (s.channel c.toNat).remaining = 0 ∧ ((s.channel c.toNat).chain = true → s.cfg.chainNoop = true) ∧
        admitted (bteReadable s.cfg) (s.channel c.toNat).src.toNat
          (rangeLen (s.channel c.toNat).incRd (s.channel c.toNat).count.toNat (s.channel c.toNat).esize.toNat) = true ∧
        admitted (bteWritable s.cfg) (s.channel c.toNat).dst.toNat
          (rangeLen (s.channel c.toNat).incWr (s.channel c.toNat).count.toNat (s.channel c.toNat).esize.toNat)
            = true := by
  simp only [startCheck, check_eq_none]; simp

end Sys2Proof.Machine
end

