-- ==== Sys2Proof/Laws/Step.lean ====
section
/-! SUPPORT. What one step can do, said once: `step_cases` gives, for every step that answers a next state, the
operation that was carried out. An invariant is proved by one case analysis of `Effect`, with no unfolding of `step`
or `exec`. Beside it the laws of `Host.Core.run`. -/

namespace Sys2Proof.Machine

/-- `t` has the memory, the registers and the logs of `s`; what may differ is `vs.te`, the refusal mark, the returned
value, the model's input fields, and the fault register, which may have recorded a fault a rule raises. -/
structure Untouched (s t : State) : Prop where
  mem : t.mem = s.mem
  dec : t.dec = s.dec
  bte : t.bte = s.bte
  scanStarted : t.scanStarted = s.scanStarted
  vsPhase : t.vsPhase = s.vsPhase
  hostWait : t.hostWait = s.hostWait
  wire : t.wire = s.wire
  wireMarks : t.wireMarks = s.wireMarks
  cfg : t.cfg = s.cfg
  fault : t.fault = s.fault ∨ ∃ code info, t.fault = ⟨true, code, info⟩ ∧ code ∈ raisedCodes

theorem Untouched.refl (s : State) : Untouched s s := ⟨rfl, rfl, rfl, rfl, rfl, rfl, rfl, rfl, rfl, .inl rfl⟩

theorem Untouched.withPending (s : State) (cmds : List Instr) : Untouched s { s with pending := cmds } :=
  ⟨rfl, rfl, rfl, rfl, rfl, rfl, rfl, rfl, rfl, .inl rfl⟩

theorem Untouched.numCh {s t : State} (h : Untouched s t) : t.numCh = s.numCh := by simp [State.numCh, h.bte]

theorem Untouched.channel {s t : State} (h : Untouched s t) (c : Nat) : t.channel c = s.channel c := by
  simp [State.channel, h.bte]

/-- What the step of agent `a` can make of state `u`. -/
inductive Effect (a : Agent) (u : State) : State → Prop
  | untouched {t} (h : Untouched u t) : Effect a u t
  | hdr {n t} (who : u.hostWait = .none ∨ a = .dec) (st : u.dec.st = .hdr) (h : hdrOp n u = .ok t) : Effect a u t
  | skip {r t} (who : u.hostWait = .none ∨ a = .dec) (st : u.dec.st = .ctrl) (h : skipOp r u = .ok t) : Effect a u t
  | litrun {r d t} (who : u.hostWait = .none ∨ (a = .dec ∧ d ≠ 0#8)) (st : u.dec.st = .ctrl)
      (h : litrunOp r d u = .ok t) : Effect a u t
  | literal {v} (who : u.hostWait = .none ∨ a = .dec) (st : u.dec.st = .lit) : Effect a u (literalOp v u)
  | repeated (who : a = .dec) (st : u.dec.st = .rep) : Effect a u (repeatOp u)
  | decompress {inBase inLen outBase outLen t} (who : a = .host) (free : u.hostWait = .none)
      (idle : u.decBusy = false) (h : decompressOp inBase inLen outBase outLen u = .ok t) : Effect a u t
  | hostWrite {addr n v t} (who : a = .host) (free : u.hostWait = .none) (h : hostWriteOp addr n v u = .ok t) :
      Effect a u t
  | configure {c src dst esize count opts w t} (who : a = .host) (free : u.hostWait = .none)
      (h : configureOp false c src dst esize count opts u = .ok w) (rest : Untouched w t) : Effect a u t
  | start {c t} (who : a = .host) (free : u.hostWait = .none) (h : startOp false c u = .ok t) : Effect a u t
  | scanStart {t} (who : a = .host) (free : u.hostWait = .none) (h : scanStartOp u = .ok t) : Effect a u t
  | wait {c w t} (who : a = .host) (free : u.hostWait = .none) (h : waitOp c u = .ok w) (rest : Untouched w t) :
      Effect a u t
  | vsyncWait {w t} (who : a = .host) (free : u.hostWait = .none) (h : vsyncWaitOp u = .ok w)
      (rest : Untouched w t) : Effect a u t
  | vsyncSample (who : a = .host) (blocked : u.hostWait = .onVsync) : Effect a u (vsyncSample u)
  | decompressReturns (who : a = .host) (blocked : u.hostWait = .onDec) (done : u.dec.st = .done) :
      Effect a u { u with hostWait := .none }
  | waitReturns {c} (who : a = .host) (blocked : u.hostWait = .onCh c) (done : (u.channel c).remaining = 0) :
      Effect a u { u with hostWait := .none }
  | element {c} (who : a = .bte c) (running : (u.channel c).remaining ≠ 0) : Effect a u (elementOp c u)

/-! Inversions of the operations. -/

theorem configureOp_eq_ok {scan : Bool} {c src dst esize count opts : U32} {s t : State}
    (h : configureOp scan c src dst esize count opts s = .ok t) :
    configureCheck scan c src dst esize opts s = none ∧
      t = s.setChannel c.toNat ((s.channel c.toNat).configure src dst esize (countField s.cfg count) opts) := by
  unfold configureOp at h; split at h <;> simp_all

theorem startOp_eq_ok {scan : Bool} {c : U32} {s t : State} (h : startOp scan c s = .ok t) :
    startCheck scan c s = none ∧ t = s.setChannel c.toNat (s.channel c.toNat).load := by
  unfold startOp at h; split at h <;> simp_all

/-- SCAN_START took effect: its CONFIGURE and its START did, and the flush was marked (R225). -/
theorem scanStartOp_eq_ok {s t : State} (h : scanStartOp s = .ok t) :
    ∃ u v, scanoutCfgOp true s = .ok u ∧ startOp true (BitVec.ofNat 32 scanCh) u = .ok v ∧
      t = { v with scanStarted := true, wireMarks := v.wireMarks ++ [v.wire.length] } := by
  unfold scanStartOp at h
  split at h
  · simp at h
  · split at h
    · simp at h
    · simp at h; exact ⟨_, _, by assumption, by assumption, h.symm⟩

theorem andThen_eq_error {a : Attempt} {cmds : List Instr} {e : Trap} (h : andThen a cmds = .error e) :
    a = .error e := by
  cases a <;> simp_all [andThen]

/-! Which faults are raised: never `UNWRITTEN_READ` (R291, R38). -/

/-- Every fault the trap raises is one that a rule raises. -/
def Trap.regular (e : Trap) : Prop := ∀ f info, e = .raise f info → f ≠ .unwrittenRead

theorem Untouched.trap (s : State) {e : Trap} (he : e.regular) : Untouched s (s.trap e) := by
  refine ⟨by simp, by simp, by simp, by simp, by simp, by simp, by simp, by simp, by simp, ?_⟩
  cases e with
  | refuse => exact .inl rfl
  | raise f info =>
    by_cases h : s.fault.valid
    · exact .inl (by simp [h])
    · refine .inr ⟨f.code, info, by simp [h], ?_⟩
      have := he f info rfl
      cases f <;> simp_all [FaultCode.code, raisedCodes]

theorem hostAccessCheck_regular {rs : List Region} {addr n : U32} {e : Trap}
    (h : hostAccessCheck rs addr n = some e) : e.regular := by
  rintro f info rfl rfl; simp [hostAccessCheck, ite_eq_iff] at h

theorem decompressCheck_regular {k : Config} {a al b bl : U32} {e : Trap}
    (h : decompressCheck k a al b bl = some e) : e.regular := by
  rintro f info rfl rfl; simp [decompressCheck, ite_eq_iff] at h

theorem hostReadOp_regular {addr n : U32} {s : State} {e : Trap} (h : hostReadOp addr n s = .error e) : e.regular := by
  unfold hostReadOp at h
  split at h
  · simp at h; subst h; exact hostAccessCheck_regular (by assumption)
  · simp at h

theorem hostWriteOp_regular {addr n v : U32} {s : State} {e : Trap} (h : hostWriteOp addr n v s = .error e) :
    e.regular := by
  unfold hostWriteOp at h
  split at h
  · simp at h; subst h; exact hostAccessCheck_regular (by assumption)
  · simp at h

theorem decompressOp_regular {a al b bl : U32} {s : State} {e : Trap} (h : decompressOp a al b bl s = .error e) :
    e.regular := by
  unfold decompressOp at h
  split at h
  · simp at h; subst h; exact decompressCheck_regular (by assumption)
  · simp at h

theorem configureOp_regular {scan : Bool} {c src dst esize count opts : U32} {s : State} {e : Trap}
    (h : configureOp scan c src dst esize count opts s = .error e) : e.regular := by
  rintro f info rfl rfl
  unfold configureOp at h
  split at h
  · rename_i hc; simp at h; subst h; simp [configureCheck, ite_eq_iff] at hc
  · simp at h

theorem startOp_regular {scan : Bool} {c : U32} {s : State} {e : Trap} (h : startOp scan c s = .error e) :
    e.regular := by
  rintro f info rfl rfl
  unfold startOp at h
  split at h
  · rename_i hc; simp at h; subst h; simp [startCheck, ite_eq_iff] at hc
  · simp at h

theorem scanStartOp_regular {s : State} {e : Trap} (h : scanStartOp s = .error e) : e.regular := by
  unfold scanStartOp at h
  split at h
  · simp at h; subst h; exact configureOp_regular (by assumption)
  · split at h
    · simp at h; subst h; exact startOp_regular (by assumption)
    · simp at h

theorem waitOp_regular {c : U32} {s : State} {e : Trap} (h : waitOp c s = .error e) : e.regular := by
  rintro f info rfl rfl; simp [waitOp, ite_eq_iff] at h

/-- A settled attempt trapped, or it took effect. -/
theorem settle_cases {s t : State} {a : Attempt} (h : settle s a = .next t) (ha : ∀ e, a = .error e → e.regular) :
    Untouched s t ∨ a = .ok t := by
  rcases settle_eq_next.mp h with h | ⟨e, he, rfl⟩
  · exact .inr h
  · exact .inl (.trap s (ha e he))

/-- Who runs an instruction: HOST when it is free, or DEC a well-formed stream word. -/
def MayRun (a : Agent) (i : Instr) (u : State) : Prop :=
  (a = .host ∧ u.hostWait = .none) ∨ (a = .dec ∧ i.position ≠ .command ∧ i.wellFormed = true)

theorem MayRun.free {a : Agent} {i : Instr} {u : State} (h : MayRun a i u) : u.hostWait = .none ∨ a = .dec := by
  rcases h with h | h
  · exact .inl h.2
  · exact .inr h.1

theorem MayRun.host {a : Agent} {i : Instr} {u : State} (h : MayRun a i u) (hi : i.position = .command) :
    a = .host ∧ u.hostWait = .none := by
  rcases h with h | h
  · exact h
  · exact absurd hi h.2.1

/-- What an instruction can do to the state. -/
theorem exec_cases {i : Instr} {u t : State} {a : Agent} (h : exec i u = .next t) (who : MayRun a i u) :
    Effect a u t := by
  cases i with
  | hdr n =>
    simp only [exec, execHdr, decStepWhen] at h
    split at h
    · rcases settle_cases h (by rintro e he f info rfl rfl; simp [hdrOp, ite_eq_iff] at he) with h | h
      · exact .untouched h
      · exact .hdr who.free (by assumption) h
    · cases h; exact .untouched (.refl u)
  | skip r =>
    simp only [exec, execSkip, decStepWhen] at h
    split at h
    · rcases settle_cases h (by rintro e he f info rfl rfl; simp [skipOp, ite_eq_iff] at he) with h | h
      · exact .untouched h
      · exact .skip who.free (by assumption) h
    · cases h; exact .untouched (.refl u)
  | litrun r d =>
    simp only [exec, execLitrun, decStepWhen] at h
    split at h
    · rcases settle_cases h (by rintro e he f info rfl rfl; simp [litrunOp, ite_eq_iff] at he) with h | h
      · exact .untouched h
      · refine .litrun ?_ (by assumption) h
        rcases who with who | who
        · exact .inl who.2
        · exact .inr ⟨who.1, by simpa [Instr.wellFormed] using who.2.2⟩
    · cases h; exact .untouched (.refl u)
  | pixel v =>
    simp only [exec, execPixel, decStepWhen] at h
    split at h
    · cases h; exact .literal who.free (by assumption)
    · cases h; exact .untouched (.refl u)
  | hostRead addr n =>
    rcases settle_cases h (fun _ he => hostReadOp_regular he) with h | h
    · exact .untouched h
    · unfold hostReadOp at h
      split at h
      · simp at h
      · simp at h; subst h; exact .untouched ⟨rfl, rfl, rfl, rfl, rfl, rfl, rfl, rfl, rfl, .inl rfl⟩
  | hostWrite addr n v =>
    have who := who.host rfl
    rcases settle_cases h (fun _ he => hostWriteOp_regular he) with h | h
    · exact .untouched h
    · exact .hostWrite who.1 who.2 h
  | decompress inBase inLen outBase outLen =>
    have who := who.host rfl
    simp only [exec, execDecompress] at h
    split at h
    · cases h; exact .untouched (.withPending u _)
    · rcases settle_cases h (fun _ he => decompressOp_regular he) with h | h
      · exact .untouched h
      · exact .decompress who.1 who.2 (by simp_all) h
  | configure c src dst esize count opts =>
    have who := who.host rfl
    rcases settle_cases h fun _ he => configureOp_regular he with h | h
    · exact .untouched h
    · exact .configure who.1 who.2 h (.refl _)
  | start c =>
    have who := who.host rfl
    rcases settle_cases h fun _ he => startOp_regular he with h | h
    · exact .untouched h
    · exact .start who.1 who.2 h
  | wait c =>
    have who := who.host rfl
    rcases settle_cases h fun _ he => waitOp_regular he with h | h
    · exact .untouched h
    · exact .wait who.1 who.2 h (.refl _)
  | pollRemaining c =>
    rcases settle_cases h (by rintro e he f info rfl rfl; simp [pollOp, ite_eq_iff] at he) with h | h
    · exact .untouched h
    · unfold pollOp at h
      split at h
      · simp at h
      · simp at h; subst h; exact .untouched ⟨rfl, rfl, rfl, rfl, rfl, rfl, rfl, rfl, rfl, .inl rfl⟩
  | vsyncWait =>
    have who := who.host rfl
    cases h; exact .vsyncWait who.1 who.2 rfl (.refl _)
  | scanStart =>
    have who := who.host rfl
    rcases settle_cases h fun _ he => scanStartOp_regular he with h | h
    · exact .untouched h
    · exact .scanStart who.1 who.2 h
  | flushProgress => cases h; exact .untouched ⟨rfl, rfl, rfl, rfl, rfl, rfl, rfl, rfl, rfl, .inl rfl⟩
  | clear color =>
    have who := who.host rfl
    rcases settle_cases h fun _ he => waitOp_regular (andThen_eq_error he) with h | h
    · exact .untouched h
    · obtain ⟨w, hw, rfl⟩ := andThen_eq_ok.mp h
      exact .wait who.1 who.2 hw (.withPending _ _)
  | drawBegin =>
    have who := who.host rfl
    rcases settle_cases h fun _ he => waitOp_regular he with h | h
    · exact .untouched h
    · exact .wait who.1 who.2 h (.refl _)
  | drawEnd =>
    have who := who.host rfl
    cases h; exact .vsyncWait who.1 who.2 rfl (.withPending _ _)
  | flush =>
    have who := who.host rfl
    cases h; exact .vsyncWait who.1 who.2 rfl (.withPending _ _)
  | fill c dst count esize bswap =>
    have who := who.host rfl
    rcases settle_cases h fun _ he => configureOp_regular (andThen_eq_error he) with h | h
    · exact .untouched h
    · obtain ⟨w, hw, rfl⟩ := andThen_eq_ok.mp h
      exact .configure who.1 who.2 hw (.withPending _ _)
  | copy c src dst count esize bswap =>
    have who := who.host rfl
    rcases settle_cases h fun _ he => configureOp_regular (andThen_eq_error he) with h | h
    · exact .untouched h
    · obtain ⟨w, hw, rfl⟩ := andThen_eq_ok.mp h
      exact .configure who.1 who.2 hw (.withPending _ _)
  | bulkRead c a b m =>
    have who := who.host rfl
    rcases settle_cases h fun _ he => configureOp_regular (andThen_eq_error he) with h | h
    · exact .untouched h
    · obtain ⟨w, hw, rfl⟩ := andThen_eq_ok.mp h
      exact .configure who.1 who.2 hw (.withPending _ _)
  | scanoutCfg =>
    have who := who.host rfl
    rcases settle_cases h fun _ he => configureOp_regular he with h | h
    · exact .untouched h
    · exact .configure who.1 who.2 h (.refl _)

/-- A 16-bit word's low byte is 0 exactly when masking the word with `0x00FF` gives 0 (R122). -/
theorem low_byte_eq_zero (w : U16) : w &&& 0x00FF#16 = 0x0000#16 ↔ w.extractLsb' 0 8 = 0#8 := by
  rw [← BitVec.toNat_inj, ← BitVec.toNat_inj]
  have h : (w &&& 0x00FF#16).toNat = w.toNat % 2 ^ 8 := by
    rw [BitVec.toNat_and]; exact Nat.and_two_pow_sub_one_eq_mod w.toNat 8
  rw [h]; simp

/-- A control word is read as a well-formed control instruction. -/
theorem decodeControl_wellFormed (w : U16) :
    (decodeControl w).position = .control ∧ (decodeControl w).wellFormed = true := by
  unfold decodeControl
  split
  · exact ⟨rfl, rfl⟩
  · next hw =>
    rw [low_byte_eq_zero] at hw
    exact ⟨rfl, by simpa [Instr.wellFormed] using hw⟩

/-- A stream word is read as a well-formed instruction that is no command. -/
theorem decode_stream_word {p : Position} {bs rest : List Byte} {i : Instr} (hp : p ≠ .command)
    (h : decode p bs = .ok i rest) : i.position ≠ .command ∧ i.wellFormed = true := by
  rcases bs with _ | ⟨lo, _ | ⟨hi, bs⟩⟩ <;> cases p <;>
    first
      | exact absurd rfl hp
      | (cases h; done)
      | (cases h; exact ⟨nofun, rfl⟩)
      | (cases h; exact ⟨by rw [(decodeControl_wellFormed _).1]; nofun, (decodeControl_wellFormed _).2⟩)

/-- What one step can do: the machine was not stopped, and from `s` with its turn used up, and where HOST issued a
command with that command taken off, the step had one of the effects of `Effect`. -/
theorem step_cases {s t : State} (h : step s = .next t) :
    s.safe ∧ ∃ u, Untouched s u ∧ u.te = s.te ∧ u.fault = s.fault ∧ Effect s.turn u t := by
  unfold step at h
  split at h
  · cases h
  split at h
  · cases h
  refine ⟨by simp_all [State.safe], ?_⟩
  have q : Untouched s s.passTurn := ⟨rfl, rfl, rfl, rfl, rfl, rfl, rfl, rfl, rfl, .inl rfl⟩
  unfold agentStep at h
  split at h
  · next turn =>
    unfold hostStep at h
    split at h
    · next free =>
      unfold hostIssue State.hostFetch at h
      rcases hp : s.passTurn.pending with _ | ⟨i, rest⟩
      · simp only [hp] at h
        rcases hd : decode .command s.passTurn.prog with ⟨i, rest⟩ | op | _
        · simp only [hd] at h
          refine ⟨_, ?_, ?_, ?_, exec_cases h (.inl ⟨turn, free⟩)⟩
          · exact ⟨rfl, rfl, rfl, rfl, rfl, rfl, rfl, rfl, rfl, .inl rfl⟩
          · rfl
          · rfl
        · simp only [hd] at h; cases h
          exact ⟨_, q, rfl, rfl, .untouched ⟨rfl, rfl, rfl, rfl, rfl, rfl, rfl, rfl, rfl, .inl rfl⟩⟩
        · simp only [hd] at h; cases h
          exact ⟨_, q, rfl, rfl, .untouched (.refl _)⟩
      · simp only [hp] at h
        refine ⟨_, ?_, ?_, ?_, exec_cases h (.inl ⟨turn, free⟩)⟩
        · exact ⟨rfl, rfl, rfl, rfl, rfl, rfl, rfl, rfl, rfl, .inl rfl⟩
        · rfl
        · rfl
    · next blocked =>
      cases h; refine ⟨_, q, rfl, rfl, ?_⟩
      split
      · exact .decompressReturns turn blocked (by assumption)
      · exact .untouched (.refl _)
    · next blocked =>
      cases h; refine ⟨_, q, rfl, rfl, ?_⟩
      split
      · exact .waitReturns turn blocked (by assumption)
      · exact .untouched (.refl _)
    · next blocked => cases h; exact ⟨_, q, rfl, rfl, .vsyncSample turn blocked⟩
  · next turn =>
    refine ⟨_, q, rfl, rfl, ?_⟩
    unfold decStep at h
    split at h
    · cases h
      exact .untouched (.trap _ (by rintro f info hf; cases hf; simp))
    · split at h
      · next i hf =>
        unfold State.decFetch at hf
        split at hf
        · cases hf
        · next p hp =>
          split at hf <;> simp at hf
          subst hf
          refine exec_cases h (.inr ⟨turn, decode_stream_word ?_ (by assumption)⟩)
          rintro rfl; unfold DecState.position at hp; split at hp <;> simp at hp
      · cases h
        split
        · exact .repeated turn (by assumption)
        · exact .untouched (.refl _)
  · next c turn =>
    cases h; refine ⟨_, q, rfl, rfl, ?_⟩
    unfold elementStep
    split
    · next hb => exact .element turn (by simp [State.channelBusy] at hb; exact hb)
    · exact .untouched (.refl _)
  · cases h
    exact ⟨_, q, rfl, rfl, .untouched ⟨rfl, rfl, rfl, rfl, rfl, rfl, rfl, rfl, rfl, .inl rfl⟩⟩

/-! Runs. -/

theorem run_zero (s : State) : core.run 0 s = .next s := rfl

theorem run_one (s : State) : core.run 1 s = step s := by
  simp only [Host.Core.run]
  have h : core.step s = step s := rfl
  rw [h]
  cases step s <;> rfl

/-- A run of `m` steps that answers a next state, then a run of `n` steps from there. -/
theorem run_append {m n : Nat} {s t u : State} (h : core.run m s = .next t) (k : core.run n t = .next u) :
    core.run (m + n) s = .next u := by
  induction m generalizing s with
  | zero => simp only [Host.Core.run] at h; cases h; simpa using k
  | succ m ih =>
    rw [Nat.succ_add]
    simp only [Host.Core.run] at h ⊢
    cases hs : core.step s with
    | next v => rw [hs] at h; exact ih h
    | fault r => rw [hs] at h; cases h
    | refused r => rw [hs] at h; cases h

end Sys2Proof.Machine
end

