-- ==== Sys2Proof/Laws/Fairness.lean ====
section
/-! SUPPORT. What one turn of a run can do, said once: a stopped machine stays as it is, and in any other the turn is
the step of that agent. Beside it the laws of `State.runTo`, and that `VsyncLive` says what R224 says. -/

namespace Sys2Proof.Machine

@[simp] theorem runTo_zero (s : State) (f : Schedule) (p : Program) : s.runTo f p 0 = s := rfl

@[simp] theorem runTo_succ (s : State) (f : Schedule) (p : Program) (n : Nat) :
    s.runTo f p (n + 1) = (s.runTo f p n).afterTurn (f n) (p n) := rfl

/-- A state is safe exactly when it is not stopped. -/
theorem stopped_eq_false {s : State} : s.stopped = false ↔ s.safe := by
  cases hv : s.fault.valid <;> cases hr : s.refused <;> simp [State.stopped, State.safe, hv, hr]

/-- A stopped machine stays as it is. -/
theorem afterTurn_of_stopped {s : State} (a : Agent) (bs : List Byte) (h : s.stopped = true) :
    s.afterTurn a bs = s := by
  unfold State.afterTurn step
  cases hv : s.fault.valid <;> cases hr : s.refused <;> simp [State.stopped, hv, hr] at h ⊢

/-- In a safe state the turn of agent `a` is the step of `a`, the program's next bytes in the queue. -/
theorem afterTurn_of_agentStep {s t : State} {a : Agent} {bs : List Byte} (hs : s.safe)
    (h : agentStep a { s with tape := [], turns := s.turns + 1, prog := s.prog ++ bs } = .next t) :
    s.afterTurn a bs = t := by
  have hstep : step { s with tape := [a], prog := s.prog ++ bs } = .next t := by
    rw [step, if_neg (by simp [hs.1]), if_neg (by simp [hs.2])]
    exact h
  rw [State.afterTurn, hstep]

/-- The turn of ENV. -/
theorem afterTurn_env {s : State} (hs : s.safe) (bs : List Byte) :
    s.afterTurn .env bs = { s with tape := [], turns := s.turns + 1, prog := s.prog ++ bs, te := !s.te } :=
  afterTurn_of_agentStep hs rfl

/-- The turn of a channel. -/
theorem afterTurn_bte {s : State} (hs : s.safe) (c : Nat) (bs : List Byte) :
    s.afterTurn (.bte c) bs = elementStep c { s with tape := [], turns := s.turns + 1, prog := s.prog ++ bs } :=
  afterTurn_of_agentStep hs rfl

/-- The turn of a DEC that is not busy. -/
theorem afterTurn_dec_idle {s : State} (hs : s.safe) (bs : List Byte) (h : s.decBusy = false) :
    s.afterTurn .dec bs = { s with tape := [], turns := s.turns + 1, prog := s.prog ++ bs } := by
  refine afterTurn_of_agentStep hs ?_
  unfold State.decBusy at h
  cases hst : s.dec.st <;> rw [hst] at h <;>
    simp_all [agentStep, decStep, State.streamEnded, State.decFetch, DecState.position]

/-- A run that has stopped stays where it is. -/
theorem runTo_of_stopped {s : State} {f : Schedule} {p : Program} {m n : Nat} (h : (s.runTo f p m).stopped = true)
    (hn : m ≤ n) : s.runTo f p n = s.runTo f p m := by
  induction n, hn using Nat.le_induction with
  | base => rfl
  | succ n _ ih => rw [runTo_succ, ih, afterTurn_of_stopped _ _ h]

/-- What an element step leaves alone. -/
theorem elementStep_keeps (c : Nat) (s : State) :
    (elementStep c s).hostWait = s.hostWait ∧ (elementStep c s).vsPhase = s.vsPhase ∧ (elementStep c s).dec = s.dec ∧
      (elementStep c s).te = s.te ∧ (elementStep c s).fault = s.fault ∧ (elementStep c s).refused = s.refused ∧
      (elementStep c s).prog = s.prog ∧ (elementStep c s).pending = s.pending ∧
      (elementStep c s).numCh = s.numCh := by
  unfold elementStep elementOp
  split <;> simp [State.numCh]

/-! ## A turn is a step, or changes nothing -/

/-- A turn in a run is a step that answers a next state, or it leaves the state as it is. -/
theorem afterTurn_cases (s : State) (a : Agent) (bs : List Byte) :
    s.afterTurn a bs = s ∨ step { s with tape := [a], prog := s.prog ++ bs } = .next (s.afterTurn a bs) := by
  unfold State.afterTurn
  split <;> simp_all

/-! ## The vsync wait in a run -/

/-- A step of another agent leaves what HOST is blocked on alone. -/
theorem Effect.keeps_wait {a : Agent} {u t : State} (h : Effect a u t) (ha : a ≠ .host) :
    t.hostWait = u.hostWait ∧ t.vsPhase = u.vsPhase := by
  cases h with
  | untouched h => exact ⟨h.hostWait, h.vsPhase⟩
  | hdr _ _ h => unfold hdrOp at h; split at h <;> [skip; split at h] <;> simp at h; subst h; exact ⟨rfl, rfl⟩
  | skip _ _ h => unfold skipOp at h; split at h <;> [skip; split at h] <;> simp at h; subst h; exact ⟨rfl, rfl⟩
  | litrun _ _ h =>
    unfold litrunOp at h
    split at h <;> [skip; split at h <;> [skip; split at h]] <;> simp at h
    subst h; exact ⟨rfl, rfl⟩
  | literal => simp [literalOp]
  | repeated => simp [repeatOp]
  | element => simp [elementOp]
  | decompress who | hostWrite who | configure who | start who | scanStart who | wait who | vsyncWait who
  | vsyncSample who | decompressReturns who | waitReturns who => exact absurd who ha

/-- A turn in which HOST is blocked in the vsync wait: HOST takes step A, or HOST takes step B and the wait returns, or
the wait stands as it was. -/
theorem afterTurn_of_onVsync {s : State} (a : Agent) (bs : List Byte) (hw : s.hostWait = .onVsync) :
    (a = .host ∧ s.stepAEnabled ∧ (s.afterTurn a bs).hostWait = .onVsync ∧ (s.afterTurn a bs).vsPhase = .needHigh) ∨
    (a = .host ∧ s.stepBEnabled ∧ (s.afterTurn a bs).hostWait = .none ∧ (s.afterTurn a bs).stopped = false) ∨
    ((s.afterTurn a bs).hostWait = .onVsync ∧ (s.afterTurn a bs).vsPhase = s.vsPhase ∧
      (a = .host → ¬s.stepAEnabled ∧ ¬s.stepBEnabled)) := by
  cases hst : s.stopped
  · by_cases ha : a = .host
    · subst ha
      have e : s.afterTurn .host bs = vsyncSample { s with tape := [], turns := s.turns + 1, prog := s.prog ++ bs } := by
        refine afterTurn_of_agentStep (stopped_eq_false.mp hst) ?_
        simp [agentStep, hostStep, hw]
      rw [e]
      have hst' := stopped_eq_false.mp hst
      cases hp : s.vsPhase <;> cases ht : s.te <;>
        simp_all [vsyncSample, State.stepAEnabled, State.stepBEnabled, State.stopped, State.safe]
    · refine .inr (.inr ?_)
      rcases afterTurn_cases s a bs with e | e
      · rw [e]; exact ⟨hw, rfl, fun h => absurd h ha⟩
      · obtain ⟨_, u, hu, _, _, eff⟩ := step_cases e
        have hk := eff.keeps_wait ha
        exact ⟨hk.1.trans (hu.hostWait.trans hw), hk.2.trans hu.vsPhase, fun h => absurd h ha⟩
  · rw [afterTurn_of_stopped _ _ hst]
    exact .inr (.inr ⟨hw, rfl, fun _ =>
      ⟨fun h => absurd (h.1.symm.trans hst) nofun, fun h => absurd (h.1.symm.trans hst) nofun⟩⟩)

/-- A VSYNC_WAIT that begins has no low sample yet. -/
theorem vsPhase_of_begins {s : State} {a : Agent} {bs : List Byte} (h : s.hostWait ≠ .onVsync)
    (hb : (s.afterTurn a bs).hostWait = .onVsync) : (s.afterTurn a bs).vsPhase = .needLow := by
  rcases afterTurn_cases s a bs with e | e
  · rw [e] at hb; exact absurd hb h
  obtain ⟨_, u, hu, _, _, eff⟩ := step_cases e
  rw [← hu.hostWait] at h
  generalize s.afterTurn a bs = t at *
  cases eff with
  | untouched k => exact absurd (k.hostWait.symm.trans hb) h
  | hdr _ _ k => unfold hdrOp at k; split at k <;> [skip; split at k] <;> simp at k; subst k; exact absurd hb h
  | skip _ _ k => unfold skipOp at k; split at k <;> [skip; split at k] <;> simp at k; subst k; exact absurd hb h
  | litrun _ _ k =>
    unfold litrunOp at k
    split at k <;> [skip; split at k <;> [skip; split at k]] <;> simp at k
    subst k; exact absurd hb h
  | literal => simp [literalOp] at hb; exact absurd hb h
  | repeated => simp [repeatOp] at hb; exact absurd hb h
  | element => simp [elementOp] at hb; exact absurd hb h
  | decompress _ _ _ k => unfold decompressOp at k; split at k <;> simp at k; subst k; cases hb
  | hostWrite _ _ k => unfold hostWriteOp at k; split at k <;> simp at k; subst k; simp at hb; exact absurd hb h
  | configure _ _ k r => obtain ⟨_, rfl⟩ := configureOp_eq_ok k; exact absurd (r.hostWait.symm.trans hb) h
  | start _ _ k => obtain ⟨_, rfl⟩ := startOp_eq_ok k; exact absurd hb h
  | scanStart _ _ k =>
    obtain ⟨v, w, hv, hw, rfl⟩ := scanStartOp_eq_ok k
    obtain ⟨_, rfl⟩ := configureOp_eq_ok hv
    obtain ⟨_, rfl⟩ := startOp_eq_ok hw
    exact absurd hb h
  | wait _ _ k r =>
    rw [r.hostWait] at hb
    unfold waitOp at k
    split at k <;> [skip; split at k] <;> simp at k <;> subst k <;> cases hb
  | vsyncWait _ _ k r => simp [vsyncWaitOp] at k; subst k; exact r.vsPhase
  | vsyncSample _ k => exact absurd k h
  | decompressReturns => cases hb
  | waitReturns => cases hb

section
variable {s : State} {f : Schedule} {p : Program}

/-- A wait that needs step A at turn `m` has found it by turn `n`, or stands there unchanged. -/
theorem needLow_until {m n : Nat} (hn : m ≤ n) (hw : (s.runTo f p m).hostWait = .onVsync)
    (hp : (s.runTo f p m).vsPhase = .needLow) :
    (∃ a, m ≤ a ∧ a < n ∧ f a = .host ∧ (s.runTo f p a).stepAEnabled) ∨
      ((s.runTo f p n).hostWait = .onVsync ∧ (s.runTo f p n).vsPhase = .needLow) := by
  induction n, hn using Nat.le_induction with
  | base => exact .inr ⟨hw, hp⟩
  | succ n hmn ih =>
    rcases ih with ⟨a, h1, h2, h3⟩ | ⟨hw', hp'⟩
    · exact .inl ⟨a, h1, by omega, h3⟩
    · rcases afterTurn_of_onVsync (f n) (p n) hw' with ⟨hf, hA, _⟩ | ⟨_, hB, _⟩ | ⟨h1, h2, _⟩
      · exact .inl ⟨n, hmn, by omega, hf, hA⟩
      · exact absurd (hB.2.2.1.symm.trans hp') nofun
      · exact .inr ⟨h1, h2.trans hp'⟩

/-- A wait that has taken step A by turn `m` has found step B by turn `n`, or stands there unchanged. -/
theorem needHigh_until {m n : Nat} (hn : m ≤ n) (hw : (s.runTo f p m).hostWait = .onVsync)
    (hp : (s.runTo f p m).vsPhase = .needHigh) :
    (∃ b, m ≤ b ∧ b < n ∧ f b = .host ∧ (s.runTo f p b).stepBEnabled) ∨
      ((s.runTo f p n).hostWait = .onVsync ∧ (s.runTo f p n).vsPhase = .needHigh) := by
  induction n, hn using Nat.le_induction with
  | base => exact .inr ⟨hw, hp⟩
  | succ n hmn ih =>
    rcases ih with ⟨b, h1, h2, h3⟩ | ⟨hw', hp'⟩
    · exact .inl ⟨b, h1, by omega, h3⟩
    · rcases afterTurn_of_onVsync (f n) (p n) hw' with ⟨_, hA, _⟩ | ⟨hf, hB, _⟩ | ⟨h1, h2, _⟩
      · exact absurd (hA.2.2.1.symm.trans hp') nofun
      · exact .inl ⟨n, hmn, by omega, hf, hB⟩
      · exact .inr ⟨h1, h2.trans hp'⟩

/-- HOST's turn with step A enabled takes it. -/
theorem stepA_taken {a : Nat} (hf : f a = .host) (h : (s.runTo f p a).stepAEnabled) :
    (s.runTo f p (a + 1)).hostWait = .onVsync ∧ (s.runTo f p (a + 1)).vsPhase = .needHigh := by
  rcases afterTurn_of_onVsync (f a) (p a) h.2.1 with k | k | k
  · exact k.2.2
  · exact absurd (k.2.1.2.2.1.symm.trans h.2.2.1) nofun
  · exact absurd h (k.2.2 hf).1

/-- HOST's turn with step B enabled takes it: the wait returns. -/
theorem stepB_taken {b : Nat} (hf : f b = .host) (h : (s.runTo f p b).stepBEnabled) :
    (s.runTo f p (b + 1)).hostWait = .none ∧ (s.runTo f p (b + 1)).stopped = false := by
  rcases afterTurn_of_onVsync (f b) (p b) h.2.1 with k | k | k
  · exact absurd (k.2.1.2.2.1.symm.trans h.2.2.1) nofun
  · exact k.2.2
  · exact absurd h (k.2.2 hf).2

/-- A wait under way at turn `n` of a run that started outside one began at a turn before, and has not returned
since. -/
theorem wait_began (h0 : s.hostWait ≠ .onVsync) {n : Nat} (hw : (s.runTo f p n).hostWait = .onVsync) :
    ∃ m < n, (s.runTo f p m).hostWait ≠ .onVsync ∧ ∀ k, m < k → k ≤ n → (s.runTo f p k).hostWait = .onVsync := by
  induction n with
  | zero => exact absurd hw h0
  | succ n ih =>
    by_cases h : (s.runTo f p n).hostWait = .onVsync
    · obtain ⟨m, hm, h1, h2⟩ := ih h
      refine ⟨m, by omega, h1, fun k hk hk' => ?_⟩
      rcases Nat.lt_or_ge n k with h3 | h3
      · rw [show k = n + 1 by omega]; exact hw
      · exact h2 k hk h3
    · exact ⟨n, by omega, h, fun k hk hk' => by rw [show k = n + 1 by omega]; exact hw⟩

/-- `VsyncLive` of a run that starts outside a wait is R224's `VSYNC_LIVE`: every VSYNC_WAIT that begins eventually
finds step A and later step B enabled at a moment HOST is scheduled. -/
theorem vsyncLive_iff (h0 : s.hostWait ≠ .onVsync) :
    VsyncLive f p s ↔
      ∀ n, (s.runTo f p n).hostWait ≠ .onVsync → (s.runTo f p (n + 1)).hostWait = .onVsync →
        ∃ a b, n < a ∧ a < b ∧ f a = .host ∧ (s.runTo f p a).stepAEnabled ∧
          f b = .host ∧ (s.runTo f p b).stepBEnabled := by
  constructor
  · intro hl n hn hb
    obtain ⟨a, ha, hfa, hA⟩ := hl.stepA (n + 1) hb (vsPhase_of_begins hn hb)
    obtain ⟨hw, hp⟩ := stepA_taken hfa hA
    obtain ⟨b, hb', hfb, hB⟩ := hl.stepB (a + 1) hw hp
    exact ⟨a, b, by omega, by omega, hfa, hA, hfb, hB⟩
  · intro h
    have key : ∀ n, (s.runTo f p n).hostWait = .onVsync → ∃ m a b, m < a ∧ a < b ∧ f a = .host ∧
        (s.runTo f p a).stepAEnabled ∧ f b = .host ∧ (s.runTo f p b).stepBEnabled ∧
        ∀ k, m < k → k ≤ n → (s.runTo f p k).hostWait = .onVsync := by
      intro n hw
      obtain ⟨m, hm, h1, h2⟩ := wait_began h0 hw
      obtain ⟨a, b, h3, h4, h5, h6, h7, h8⟩ := h m h1 (h2 _ (by omega) (by omega))
      exact ⟨m, a, b, h3, h4, h5, h6, h7, h8, h2⟩
    have later : ∀ n, (s.runTo f p n).hostWait = .onVsync → ∀ m b, m < b → f b = .host →
        (s.runTo f p b).stepBEnabled → (∀ k, m < k → k ≤ n → (s.runTo f p k).hostWait = .onVsync) → n ≤ b := by
      intro n _ m b hm hfb hB hk
      by_contra hlt
      have := hk (b + 1) (by omega) (by omega)
      exact absurd ((stepB_taken hfb hB).1.symm.trans this) nofun
    refine ⟨fun n hw hp => ?_, fun n hw hp => ?_⟩
    · obtain ⟨m, a, b, hma, hab, hfa, hA, hfb, hB, hk⟩ := key n hw
      refine ⟨a, ?_, hfa, hA⟩
      by_contra hlt
      obtain ⟨hw', hp'⟩ := stepA_taken hfa hA
      have hnb := later n hw m b (by omega) hfb hB hk
      rcases needHigh_until (n := n) (by omega) hw' hp' with ⟨b', h1, h2, h3, h4⟩ | ⟨_, h2⟩
      · have := later n hw m b' (by omega) h3 h4 hk; omega
      · exact absurd (hp.symm.trans h2) nofun
    · obtain ⟨m, a, b, hma, hab, hfa, hA, hfb, hB, hk⟩ := key n hw
      exact ⟨b, later n hw m b (by omega) hfb hB hk, hfb, hB⟩

end

end Sys2Proof.Machine
end

