-- ==== Sys2Proof/Laws/PerInstr.lean ====
section
/-! SUPPORT. Statements made for every instruction, one lemma per constructor. The family `EncodeFits`: an instruction's
encoding is not empty and no longer than the longest one (R111, R106). -/

namespace Sys2Proof.Laws.EncodeFits

/-- The encoding of `i` has between 1 and `maxBytes` bytes. -/
def Statement (i : Instr) : Prop := 0 < (encode i).length ∧ (encode i).length ≤ maxBytes

theorem hdr (n : U16) : Statement (.hdr n) := by simp [Statement, encode, bytes16, maxBytes]
theorem skip (r : Byte) : Statement (.skip r) := by simp [Statement, encode, bytes16, maxBytes]
theorem litrun (r d : Byte) : Statement (.litrun r d) := by simp [Statement, encode, bytes16, maxBytes]
theorem pixel (v : U16) : Statement (.pixel v) := by simp [Statement, encode, bytes16, maxBytes]
theorem hostRead (a n : U32) : Statement (.hostRead a n) := by simp [Statement, encode, bytes32, maxBytes]
theorem hostWrite (a n v : U32) : Statement (.hostWrite a n v) := by simp [Statement, encode, bytes32, maxBytes]
theorem decompress (a b c d : U32) : Statement (.decompress a b c d) := by
  simp [Statement, encode, bytes32, maxBytes]
theorem configure (a b c d e f : U32) : Statement (.configure a b c d e f) := by
  simp [Statement, encode, bytes32, maxBytes]
theorem start (c : U32) : Statement (.start c) := by simp [Statement, encode, bytes32, maxBytes]
theorem wait (c : U32) : Statement (.wait c) := by simp [Statement, encode, bytes32, maxBytes]
theorem pollRemaining (c : U32) : Statement (.pollRemaining c) := by simp [Statement, encode, bytes32, maxBytes]
theorem vsyncWait : Statement .vsyncWait := by simp [Statement, encode, maxBytes]
theorem scanStart : Statement .scanStart := by simp [Statement, encode, maxBytes]
theorem flushProgress : Statement .flushProgress := by simp [Statement, encode, maxBytes]
theorem clear (c : U16) : Statement (.clear c) := by simp [Statement, encode, bytes16, maxBytes]
theorem drawBegin : Statement .drawBegin := by simp [Statement, encode, maxBytes]
theorem drawEnd : Statement .drawEnd := by simp [Statement, encode, maxBytes]
theorem flush : Statement .flush := by simp [Statement, encode, maxBytes]
theorem fill (a b c d e : U32) : Statement (.fill a b c d e) := by simp [Statement, encode, bytes32, maxBytes]
theorem copy (a b c d e f : U32) : Statement (.copy a b c d e f) := by simp [Statement, encode, bytes32, maxBytes]
theorem bulkRead (a b c d : U32) : Statement (.bulkRead a b c d) := by simp [Statement, encode, bytes32, maxBytes]
theorem scanoutCfg : Statement .scanoutCfg := by simp [Statement, encode, maxBytes]

end Sys2Proof.Laws.EncodeFits
end

