-- ==== Sys2Proof/Laws/Program.lean ====
section
/-! SUPPORT. HOST's program in a run (70_reset_and_hazards.md R332): a step takes one whole command off the queue or
leaves it, and so in every run HOST finds the commands of its program, finite or infinite, in order and none late. -/

namespace Sys2Proof

/-! ## Decoding with more bytes behind -/

/-- The reader answers the same instruction when more bytes follow, and whether it knows the code does not depend on
the bytes it reads. -/
structure ReadsAhead (k : List Byte → DecodeResult) : Prop where
  ok : ∀ bs rest more i, k bs = .ok i rest → k (bs ++ more) = .ok i (rest ++ more)
  unknown : ∀ bs bs' op, k bs = .unknownOp op → k bs' = .unknownOp op

/-- A reader that answers one instruction and takes no byte. -/
theorem readsAhead_plain (i : Instr) : ReadsAhead fun bs => .ok i bs :=
  ⟨fun _ _ _ _ h => by cases h; rfl, nofun⟩

/-- A reader that knows no code. -/
theorem readsAhead_unknown (op : Byte) : ReadsAhead fun _ => .unknownOp op := ⟨nofun, fun _ _ _ h => h⟩

/-- A choice that does not depend on the bytes read. -/
theorem readsAhead_ite {c : Prop} [Decidable c] {k l : List Byte → DecodeResult} (hk : ReadsAhead k)
    (hl : ReadsAhead l) : ReadsAhead fun bs => if c then k bs else l bs := by
  by_cases h : c
  · simpa only [if_pos h] using hk
  · simpa only [if_neg h] using hl

/-- A reader of operands: it reads ahead, and there is no code it does not know. -/
structure ReadsOperands (k : List Byte → DecodeResult) : Prop where
  ok : ∀ bs rest more i, k bs = .ok i rest → k (bs ++ more) = .ok i (rest ++ more)
  known : ∀ bs op, k bs ≠ .unknownOp op

theorem ReadsOperands.ahead {k : List Byte → DecodeResult} (h : ReadsOperands k) : ReadsAhead k :=
  ⟨h.ok, fun bs _ op hk => absurd hk (h.known bs op)⟩

theorem operand_reads {k : U32 → List Byte → DecodeResult} (h : ∀ v, ReadsOperands (k v)) :
    ReadsOperands (operand k) where
  ok bs rest more i hk := by
    match bs with
    | [] | [_] | [_, _] | [_, _, _] => cases hk
    | b0 :: b1 :: b2 :: b3 :: bs => exact (h _).ok bs rest more i hk
  known bs op hk := by
    match bs with
    | [] | [_] | [_, _] | [_, _, _] => cases hk
    | b0 :: b1 :: b2 :: b3 :: bs => exact (h _).known bs op hk

theorem operands1_reads (f : U32 → Instr) : ReadsOperands (operands1 f) :=
  operand_reads fun _ => ⟨fun _ _ _ _ h => by cases h; rfl, nofun⟩
theorem operands2_reads (f : U32 → U32 → Instr) : ReadsOperands (operands2 f) :=
  operand_reads fun _ => operands1_reads _
theorem operands3_reads (f : U32 → U32 → U32 → Instr) : ReadsOperands (operands3 f) :=
  operand_reads fun _ => operands2_reads _
theorem operands4_reads (f : U32 → U32 → U32 → U32 → Instr) : ReadsOperands (operands4 f) :=
  operand_reads fun _ => operands3_reads _
theorem operands5_reads (f : U32 → U32 → U32 → U32 → U32 → Instr) : ReadsOperands (operands5 f) :=
  operand_reads fun _ => operands4_reads _
theorem operands6_reads (f : U32 → U32 → U32 → U32 → U32 → U32 → Instr) : ReadsOperands (operands6 f) :=
  operand_reads fun _ => operands5_reads _

theorem halfword_reads (f : U16 → Instr) : ReadsOperands (halfword f) where
  ok bs rest more i h := by
    match bs with
    | [] | [_] => cases h
    | _ :: _ :: _ => cases h; rfl
  known bs op h := by
    match bs with
    | [] | [_] => cases h
    | _ :: _ :: _ => cases h

theorem decodeCommand_readsAhead (op : Byte) : ReadsAhead (decodeCommand op) := by
  unfold decodeCommand
  repeat' apply readsAhead_ite
  all_goals first
    | exact (operands1_reads _).ahead
    | exact (operands2_reads _).ahead
    | exact (operands3_reads _).ahead
    | exact (operands4_reads _).ahead
    | exact (operands5_reads _).ahead
    | exact (operands6_reads _).ahead
    | exact (halfword_reads _).ahead
    | exact readsAhead_plain _
    | exact readsAhead_unknown _

/-- A command is read the same when more bytes follow it. -/
theorem decode_command_append {bs rest : List Byte} {i : Instr} (more : List Byte)
    (h : decode .command bs = .ok i rest) : decode .command (bs ++ more) = .ok i (rest ++ more) := by
  match bs with
  | [] => cases h
  | op :: bs => exact (decodeCommand_readsAhead op).ok bs rest more i h

/-- A code outside the table is reported whatever follows it. -/
theorem decode_unknown_append {op op' : Byte} (more : List Byte) (h : decode .command [op] = .unknownOp op') :
    decode .command (op :: more) = .unknownOp op' := (decodeCommand_readsAhead op).unknown [] more op' h

end Sys2Proof

namespace Sys2Proof.Machine

/-! ## What a step does to the queue -/

theorem settle_prog {s t : State} {a : Attempt} (h : settle s a = .next t) (ha : ∀ u, a = .ok u → u.prog = s.prog) :
    t.prog = s.prog := by
  rcases settle_eq_next.mp h with h | ⟨e, _, rfl⟩
  · exact ha t h
  · simp

theorem andThen_prog {a : Attempt} {cmds : List Instr} {u : State} {q : List Byte} (h : andThen a cmds = .ok u)
    (ha : ∀ w, a = .ok w → w.prog = q) : u.prog = q := by
  obtain ⟨w, hw, rfl⟩ := andThen_eq_ok.mp h
  exact ha w hw

theorem configureOp_prog {scan : Bool} {c src dst esize count opts : U32} {s u : State}
    (h : configureOp scan c src dst esize count opts s = .ok u) : u.prog = s.prog := by
  obtain ⟨_, rfl⟩ := configureOp_eq_ok h; rfl

theorem waitOp_prog {c : U32} {s u : State} (h : waitOp c s = .ok u) : u.prog = s.prog := by
  unfold waitOp at h
  split at h <;> [skip; split at h] <;> simp at h <;> subst h <;> rfl

theorem vsyncWaitOp_prog {s u : State} (h : vsyncWaitOp s = .ok u) : u.prog = s.prog := by
  simp [vsyncWaitOp] at h; subst h; rfl

/-- No command and no stream word changes HOST's program (R332): it has no jump. -/
theorem exec_prog {i : Instr} {s t : State} (h : exec i s = .next t) : t.prog = s.prog := by
  cases i with
  | hdr n =>
    simp only [exec, execHdr, decStepWhen] at h
    split at h
    · refine settle_prog h fun u hu => ?_
      unfold hdrOp at hu; split at hu <;> [skip; split at hu] <;> simp at hu; subst hu; rfl
    · cases h; rfl
  | skip r =>
    simp only [exec, execSkip, decStepWhen] at h
    split at h
    · refine settle_prog h fun u hu => ?_
      unfold skipOp at hu; split at hu <;> [skip; split at hu] <;> simp at hu; subst hu; rfl
    · cases h; rfl
  | litrun r d =>
    simp only [exec, execLitrun, decStepWhen] at h
    split at h
    · refine settle_prog h fun u hu => ?_
      unfold litrunOp at hu
      split at hu <;> [skip; split at hu <;> [skip; split at hu]] <;> simp at hu
      subst hu; rfl
    · cases h; rfl
  | pixel v =>
    simp only [exec, execPixel, decStepWhen] at h
    split at h
    · cases h; simp [literalOp]
    · cases h; rfl
  | hostRead addr n =>
    refine settle_prog h fun u hu => ?_
    unfold hostReadOp at hu; split at hu <;> simp at hu; subst hu; rfl
  | hostWrite addr n v =>
    refine settle_prog h fun u hu => ?_
    unfold hostWriteOp at hu; split at hu <;> simp at hu; subst hu; simp
  | decompress inBase inLen outBase outLen =>
    simp only [exec, execDecompress] at h
    split at h
    · cases h; rfl
    · refine settle_prog h fun u hu => ?_
      unfold decompressOp at hu; split at hu <;> simp at hu; subst hu; rfl
  | configure | scanoutCfg => exact settle_prog h fun _ hu => configureOp_prog hu
  | start c => exact settle_prog h fun u hu => by obtain ⟨_, rfl⟩ := startOp_eq_ok hu; rfl
  | wait | drawBegin => exact settle_prog h fun _ hu => waitOp_prog hu
  | pollRemaining c =>
    refine settle_prog h fun u hu => ?_
    unfold pollOp at hu; split at hu <;> simp at hu; subst hu; rfl
  | vsyncWait => exact settle_prog (a := vsyncWaitOp s) h fun _ hu => vsyncWaitOp_prog hu
  | scanStart =>
    refine settle_prog h fun u hu => ?_
    obtain ⟨v, w, hv, hw, rfl⟩ := scanStartOp_eq_ok hu
    obtain ⟨_, rfl⟩ := startOp_eq_ok hw
    unfold scanoutCfgOp at hv
    exact configureOp_prog (u := v) hv
  | flushProgress => cases h; rfl
  | clear => exact settle_prog h fun _ hu => andThen_prog hu fun _ hw => waitOp_prog hw
  | drawEnd =>
    exact settle_prog (a := andThen (vsyncWaitOp s) [.scanStart]) h fun _ hu =>
      andThen_prog hu fun _ hw => vsyncWaitOp_prog hw
  | flush =>
    exact settle_prog (a := andThen (vsyncWaitOp s) [.scanStart, .wait (BitVec.ofNat 32 scanCh)]) h fun _ hu =>
      andThen_prog hu fun _ hw => vsyncWaitOp_prog hw
  | fill | copy | bulkRead => exact settle_prog h fun _ hu => andThen_prog hu fun _ hw => configureOp_prog hw

/-- A step leaves HOST's program as it is, or HOST takes the first command off it, a code outside the table
included. -/
theorem step_prog {s t : State} (h : step s = .next t) :
    t.prog = s.prog ∨ (∃ i, decode .command s.prog = .ok i t.prog) ∨
      ∃ op, decode .command s.prog = .unknownOp op ∧ t.prog = s.prog.tail := by
  unfold step at h
  split at h
  · cases h
  split at h
  · cases h
  unfold agentStep at h
  split at h
  · unfold hostStep at h
    split at h
    · unfold hostIssue State.hostFetch at h
      rcases hp : s.passTurn.pending with _ | ⟨i, rest⟩
      · simp only [hp] at h
        rcases hd : decode .command s.passTurn.prog with ⟨i, rest⟩ | op | _
        · simp only [hd] at h
          exact .inr (.inl ⟨i, by rw [exec_prog h]; exact hd⟩)
        · simp only [hd] at h; cases h
          exact .inr (.inr ⟨op, hd, rfl⟩)
        · simp only [hd] at h; cases h; exact .inl rfl
      · simp only [hp] at h; left; rw [exec_prog h]; rfl
    · cases h; left; split <;> rfl
    · cases h; left; split <;> rfl
    · cases h; left; unfold vsyncSample; split <;> [skip; split; split] <;> rfl
  · left
    unfold decStep at h
    split at h
    · cases h; simp
    · split at h
      · rw [exec_prog h]; rfl
      · cases h; split
        · simp [repeatOp]
        · rfl
  · cases h; exact .inl (elementStep_keeps _ _).2.2.2.2.2.2.1
  · cases h; exact .inl rfl

/-! ## The program in a run -/

/-- Where every instruction answers a next state, every turn of a machine that has not stopped is a step. -/
theorem step_afterTurn (total : ∀ (i : Instr) (u : State), ∃ t, exec i u = .next t) {s : State} (a : Agent)
    (bs : List Byte) (hs : s.stopped = false) :
    step { s with tape := [a], prog := s.prog ++ bs } = .next (s.afterTurn a bs) := by
  have hsafe := stopped_eq_false.mp hs
  obtain ⟨t, ht⟩ : ∃ t, agentStep a { s with tape := [], turns := s.turns + 1, prog := s.prog ++ bs } = .next t := by
    unfold agentStep
    split
    · unfold hostStep
      split
      · unfold hostIssue; split <;> first | exact total _ _ | exact ⟨_, rfl⟩
      all_goals exact ⟨_, rfl⟩
    · unfold decStep; split <;> [exact ⟨_, rfl⟩; (split <;> first | exact total _ _ | exact ⟨_, rfl⟩)]
    all_goals exact ⟨_, rfl⟩
  rw [afterTurn_of_agentStep hsafe ht, step, if_neg (by simp [hsafe.1]), if_neg (by simp [hsafe.2])]
  exact ht

/-- What a step does to a queue whose first command is `c`: it leaves the queue, or takes exactly `c` off. -/
theorem step_prog_of_command {s t : State} {c rest : List Byte} (h : step s = .next t) (hc : WholeCommand c)
    (hq : s.prog = c ++ rest) : t.prog = s.prog ∨ t.prog = rest := by
  rcases step_prog h with k | ⟨i, k⟩ | ⟨op, k, ht⟩
  · exact .inl k
  · right
    rw [hq] at k
    rcases hc with ⟨j, hj⟩ | ⟨op, rfl, hop⟩
    · rw [decode_command_append rest hj] at k
      cases k; rfl
    · rw [List.singleton_append, decode_unknown_append rest hop] at k; cases k
  · right
    rw [hq] at k ht
    rcases hc with ⟨j, hj⟩ | ⟨op, rfl, _⟩
    · rw [decode_command_append rest hj] at k; cases k
    · exact ht

/-- In a run from a state that holds no command, under a program that is a sequence of commands, finite or infinite
(R332): as long as the machine has not stopped, the queue before turn `n` holds the commands `k` to `n - 1` of the
program for some `k`. So HOST takes the commands in order, and at turn `n`, when command `n` joins the queue, its next
command is there. (`total` is what the statement EveryInstructionAnswersNext says.) -/
theorem runTo_prog (total : ∀ (i : Instr) (u : State), ∃ t, exec i u = .next t) {s : State}
    {f : Schedule} {p : Program} (hp : p.isSequence) (h0 : s.prog = []) (n : Nat)
    (hs : (s.runTo f p n).stopped = false) :
    ∃ k ≤ n, (s.runTo f p n).prog = (List.range' k (n - k)).flatMap p := by
  induction n with
  | zero => exact ⟨0, le_refl _, h0⟩
  | succ n ih =>
    have hsn : (s.runTo f p n).stopped = false := by
      cases h : (s.runTo f p n).stopped
      · rfl
      · rw [runTo_succ, afterTurn_of_stopped _ _ h, h] at hs; cases hs
    obtain ⟨k, hk, hq⟩ := ih hsn
    have hq' : (s.runTo f p n).prog ++ p n = (List.range' k (n + 1 - k)).flatMap p := by
      rw [hq, show n + 1 - k = n - k + 1 by omega, List.range'_concat]
      simp [show k + (n - k) = n by omega]
    have same (h : (s.runTo f p (n + 1)).prog = (s.runTo f p n).prog ++ p n) :
        ∃ k ≤ n + 1, (s.runTo f p (n + 1)).prog = (List.range' k (n + 1 - k)).flatMap p :=
      ⟨k, by omega, h.trans hq'⟩
    have hstep := step_afterTurn total (f n) (p n) hsn
    rcases hp k with hc | hend
    · have hq'' : (s.runTo f p n).prog ++ p n = p k ++ (List.range' (k + 1) (n - k)).flatMap p := by
        rw [hq', show n + 1 - k = n - k + 1 by omega, List.range'_succ, List.flatMap_cons]
      rcases step_prog_of_command hstep hc hq'' with h | h
      · exact same h
      · exact ⟨k + 1, by omega, by rw [runTo_succ, h, show n + 1 - (k + 1) = n - k by omega]⟩
    · have hnil : (s.runTo f p n).prog ++ p n = [] := by
        rw [hq', List.flatMap_eq_nil_iff]
        intro m hm
        exact hend m (List.mem_range'_1.mp hm).1
      rcases step_prog hstep with h | ⟨i, h⟩ | ⟨op, h, _⟩
      · exact same h
      · simp only [hnil] at h; cases h
      · simp only [hnil] at h; cases h

end Sys2Proof.Machine
end

