-- ==== Sys2Proof/Tests/Slice0.lean ====
section
/-! SUPPORT. Tests: the ill-formed terms, one hand-written word per constructor, one or two steps per instruction
against the spec's vectors (95_test_vectors.md, quoted by their ids), and for each obligation with hypotheses a state
and operands that meet them. -/

namespace Sys2Proof.Tests

open Sys2Proof Sys2Proof.Machine

/-! ## Well-formed terms -/

/-- R108: a LITRUN with `dataLength = 0` is not an instruction (those words are SKIP). -/
theorem test_litrun_of_zero_is_ill_formed : (Instr.litrun 5 0).wellFormed = false := by decide
theorem test_litrun_of_one_is_well_formed : (Instr.litrun 255 1).wellFormed = true := by decide

/-! ## Decoding, one word per constructor, written out from R101 to R104 and R111 -/

theorem test_decode_hdr : decode .header [0x34, 0x12] = .ok (.hdr 0x1234) [] := by decide
theorem test_decode_skip : decode .control [0b00000000, 0b00010000] = .ok (.skip 16) [] := by decide
theorem test_decode_litrun : decode .control [0b00000010, 0b00000011] = .ok (.litrun 3 2) [] := by decide
theorem test_decode_pixel : decode .payload [0xE0, 0x07, 0x55] = .ok (.pixel 0x07E0) [0x55] := by decide
theorem test_decode_host_read :
    decode .command [0x01, 0x06, 0x20, 0x00, 0x00, 0x02, 0x00, 0x00, 0x00] = .ok (.hostRead 0x2006 2) [] := by
  decide
theorem test_decode_host_write :
    decode .command [0x02, 0x00, 0x80, 0x00, 0x00, 0x02, 0x00, 0x00, 0x00, 0xF8, 0x00, 0x00, 0x00] =
      .ok (.hostWrite 0x8000 2 0xF8) [] := by decide
theorem test_decode_decompress :
    decode .command
      [0x10, 0x00, 0x20, 0x00, 0x00, 0x07, 0x00, 0x00, 0x00, 0x00, 0x30, 0x00, 0x00, 0x08, 0x00, 0x00, 0x00] =
      .ok (.decompress 0x2000 7 0x3000 8) [] := by decide
theorem test_decode_configure :
    decode .command
      [0x20, 0x01, 0x00, 0x00, 0x00, 0x00, 0x20, 0x00, 0x00, 0x00, 0x80, 0x00, 0x00, 0x02, 0x00, 0x00, 0x00,
        0x20, 0x00, 0x00, 0x00, 0x0E, 0x00, 0x00, 0x00] =
      .ok (.configure 1 0x2000 0x8000 2 32 0x0E) [] := by decide
theorem test_decode_start : decode .command [0x21, 0x01, 0x00, 0x00, 0x00] = .ok (.start 1) [] := by decide
theorem test_decode_wait : decode .command [0x22, 0x02, 0x00, 0x00, 0x00] = .ok (.wait 2) [] := by decide
theorem test_decode_poll_remaining :
    decode .command [0x23, 0x00, 0x00, 0x00, 0x01] = .ok (.pollRemaining 0x1000000) [] := by decide
theorem test_decode_vsync_wait : decode .command [0x30] = .ok .vsyncWait [] := by decide
theorem test_decode_scan_start : decode .command [0x31] = .ok .scanStart [] := by decide
theorem test_decode_flush_progress : decode .command [0x32] = .ok .flushProgress [] := by decide
theorem test_decode_clear : decode .command [0x40, 0x00, 0xF8] = .ok (.clear 0xF800) [] := by decide
theorem test_decode_draw_begin : decode .command [0x41] = .ok .drawBegin [] := by decide
theorem test_decode_draw_end : decode .command [0x42] = .ok .drawEnd [] := by decide
theorem test_decode_flush : decode .command [0x43, 0x30] = .ok .flush [0x30] := by decide
theorem test_decode_fill :
    decode .command
      [0x48, 0x01, 0x00, 0x00, 0x00, 0x00, 0x80, 0x00, 0x00, 0x04, 0x00, 0x00, 0x00, 0x02, 0x00, 0x00, 0x00,
        0x01, 0x00, 0x00, 0x00] = .ok (.fill 1 0x8000 4 2 1) [] := by decide
theorem test_decode_copy :
    decode .command
      [0x49, 0x02, 0x00, 0x00, 0x00, 0x00, 0x21, 0x00, 0x00, 0x00, 0x80, 0x00, 0x00, 0x08, 0x00, 0x00, 0x00,
        0x02, 0x00, 0x00, 0x00, 0x01, 0x00, 0x00, 0x00] =
      .ok (.copy 2 0x2100 0x8000 8 2 1) [] := by decide
theorem test_decode_bulk_read :
    decode .command
      [0x4A, 0x02, 0x00, 0x00, 0x00, 0x00, 0x10, 0x00, 0x00, 0x00, 0x20, 0x00, 0x00, 0x08, 0x00, 0x00, 0x00] =
      .ok (.bulkRead 2 0x1000 0x2000 8) [] := by decide
theorem test_decode_scanout_cfg : decode .command [0x4B] = .ok .scanoutCfg [] := by decide
/-- R111: a code outside the table, by name; and an instruction that is not all there. -/
theorem test_decode_unknown_and_truncated :
    decode .command [0x11, 0x00] = .unknownOp 0x11 ∧ decode .command [0x22, 0x02, 0x00, 0x00] = .truncated ∧
      decode .control [0x01] = .truncated := by decide

/-- A table row's word, as the host asks for it. -/
theorem test_decode_table_words :
    decodeTableWord 16 0x1000 = some (.skip 16) ∧ decodeTableWord 16 0x0301 = some (.litrun 3 1) ∧
      decodeTableWord 8 0x43 = some .flush ∧ decodeTableWord 8 0x11 = none := by decide

/-! ## Small states -/

/-- MAP-B of the vectors: MAP-A with a framebuffer of 4 by 2 pixels. -/
def mapB : Config := { Config.mapA with width := 4, height := 2 }

/-- The reset state under MAP-B with three channels, every byte 0. -/
def tiny : State := State.resetWith mapB 3 [] false

/-- DEC in the middle of a stream at 0x2000, with its buffer at 0x3000. -/
def decoding (st : DecState) (inLen ip : U32) (outLen : U32) (n : U16) (cur : U17) (d r : Byte) : State :=
  { tiny with
    dec := ⟨st, 0x2000, inLen, 0x3000, outLen, ip, n, cur, d, r, 9⟩
    hostWait := .onDec }

/-- Channel 1 with these registers, under MAP-A. -/
def channel1 (ch : Channel) : State :=
  { State.reset with bte := [Channel.reset, ch, Channel.reset] }

/-- Channel 0 in a flush with `rem` pixels still to be sent. -/
def flushing (rem : U32) : State :=
  { tiny with
    bte := [{ startedChannel 0x8000 0x40000 2 8 true false false with
        remaining := rem, rdPtr := 0x8010 - 2 * rem }, Channel.reset, Channel.reset]
    scanStarted := true, wireMarks := [0] }

/-- A channel configured by vector B1 (0x2000 to 0x8000, 32 halfwords, swapped) and started (B21). -/
def blit : Channel := startedChannel 0x2000 0x8000 2 32 true true true

/-- What holds after an outcome that is a next state. -/
def after (o : Outcome) (f : State → Bool) : Bool :=
  match o with
  | .next t => f t
  | .fault _ => false
  | .refused _ => false

theorem exists_next {o : Outcome} (P : State → Prop) [DecidablePred P]
    (h : after o (fun t => decide (P t)) = true) : ∃ t, o = .next t ∧ P t := by
  cases o with
  | next t => exact ⟨t, rfl, by simpa [after] using h⟩
  | fault _ => simp [after] at h
  | refused _ => simp [after] at h

/-- The fault register after an outcome. -/
def faults (o : Outcome) (code : Byte) (info : U32) : Bool := after o fun t => t.fault == ⟨true, code, info⟩

/-! ## One step per test -/

/-- D6 and D7: a header equal to the buffer's length, and one above it. -/
theorem test_hdr :
    (after (exec (.hdr 0xFFFF) (decoding .hdr 9 0 65535 0 0 0 0)) fun t => t.dec.n == 0xFFFF && t.dec.st == .ctrl) =
      true ∧
    faults (exec (.hdr 0xFFFF) (decoding .hdr 9 0 65534 0 0 0 0)) 0x02 65535 = true := by decide
/-- D1: no header word. -/
theorem test_hdr_underrun :
    faults (step ((decoding .hdr 0 0 8 0 0 0 0).scheduled [.dec])) 0x01 0 = true := by decide
/-- D13, step 2. -/
theorem test_skip :
    (after (exec (.skip 1) (decoding .ctrl 4 1 3 3 0 5 6)) fun t =>
      t.dec.st == .ctrl && t.dec.ip == 2 && t.dec.cur == 1 && t.dec.d == 5 && t.dec.r == 6) = true := by decide
/-- D11. -/
theorem test_skip_overrun : faults (exec (.skip 2) (decoding .ctrl 2 1 1 1 0 0 0)) 0x03 1 = true := by decide
/-- D13, step 3. -/
theorem test_litrun :
    (after (exec (.litrun 1 1) (decoding .ctrl 4 2 3 3 1 0 0)) fun t =>
      t.dec.st == .lit && t.dec.ip == 3 && t.dec.d == 1 && t.dec.r == 1) = true := by decide
/-- D32 and D29: the payload underrun is found before the overrun. -/
theorem test_litrun_faults :
    faults (exec (.litrun 0 3) (decoding .ctrl 4 1 2 2 0 0 0)) 0x01 4 = true ∧
    faults (exec (.litrun 1 1) (decoding .ctrl 3 1 1 1 0 0 0)) 0x03 1 = true := by decide
/-- D13, step 4. -/
theorem test_pixel :
    (after (exec (.pixel 0x1209) (decoding .lit 4 3 3 3 1 1 1)) fun t =>
      t.dec.st == .rep && t.dec.ip == 4 && t.dec.cur == 2 && t.dec.d == 0 && t.dec.last == 0x1209 &&
        t.mem == [(0x3002, 0x09), (0x3003, 0x12)]) = true := by decide
/-- D13, step 5: the repeat step. -/
theorem test_repeat :
    (after (step ((decoding .rep 4 4 3 3 2 0 1).scheduled [.dec])) fun t =>
      t.dec.st == .done && t.dec.ip == 4 && t.dec.cur == 3 && t.dec.r == 0 && t.mem == [(0x3004, 0x09)]) = true := by
  decide
/-- R62: bytes 34 12 at an address are the value 0x1234; `host_read 0x2000, 3` faults with info 0x2000. -/
theorem test_host_read :
    (after (exec (.hostRead 0x1000 2) { tiny with mem := [(0x1000, 0x34), (0x1001, 0x12)] }) fun t =>
      t.ret == 0x1234) = true ∧
    faults (exec (.hostRead 0x2000 3) tiny) 0x12 0x2000 = true := by decide
/-- Section 6 of the vectors: the display port and an unmapped address are not readable. -/
theorem test_host_read_access :
    faults (exec (.hostRead 0x40000 2) tiny) 0x10 0x40000 = true ∧
    faults (exec (.hostRead 0x5000 1) tiny) 0x10 0x5000 = true := by decide
/-- P4, command 4: pixel 0 written as bytes F8 00. -/
theorem test_host_write :
    (after (exec (.hostWrite 0x8000 2 0x00F8) { tiny with mem := [(0x8001, 0x77)] }) fun t =>
      t.mem == [(0x8000, 0xF8)]) = true := by decide
/-- Section 6 of the vectors. -/
theorem test_host_write_faults :
    faults (exec (.hostWrite 0x2001 2 0) tiny) 0x11 0x2001 = true ∧
    faults (exec (.hostWrite 0x1000 2 0) tiny) 0x10 0x1000 = true := by decide
/-- D48 and D47: touching ranges are admitted, sharing ones are not. -/
theorem test_decompress :
    (after (exec (.decompress 0x2000 8 0x2010 4) tiny) fun t =>
      t.dec.st == .hdr && t.dec.ip == 0 && t.hostWait == .onDec) = true ∧
    faults (exec (.decompress 0x2000 8 0x200E 4) tiny) 0x05 0x200E = true := by decide
/-- D42, D43 and D45: the checks in order. -/
theorem test_decompress_faults :
    faults (exec (.decompress 0x2001 5 0x3001 8) tiny) 0x11 0x2001 = true ∧
    faults (exec (.decompress 0x1FFE 2 0x3000 8) tiny) 0x10 0x1FFE = true ∧
    faults (exec (.decompress 0x2000 5 0x1000 8) tiny) 0x10 0x1000 = true := by decide
/-- B1. -/
theorem test_configure :
    (after (exec (.configure 1 0x2000 0x8000 2 32 0x0E) tiny) fun t =>
      t.channel 1 == { Channel.reset with
        src := 0x2000, dst := 0x8000, esize := 2, count := 32, incRd := true, incWr := true, bswap := true,
        configured := true }) = true := by decide
/-- B4, B6, B7 and B10. -/
theorem test_configure_faults :
    faults (exec (.configure 1 0x2000 0x8000 2 32 0x05) tiny) 0x12 1 = true ∧
    faults (exec (.configure 1 0x2000 0x8000 2 32 0x26) tiny) 0x12 1 = true ∧
    (after (exec (.configure 0 0x8000 0x40000 2 57600 0x04) tiny) fun t => t.refused) = true ∧
    faults (exec (.configure 1 0x2000 0x8002 4 1 0x06) tiny) 0x11 0x8002 = true := by decide
/-- B21. -/
theorem test_start :
    (after (exec (.start 1) (channel1 { blit with remaining := 0, rdPtr := 0, wrPtr := 0 })) fun t =>
      t.channel 1 == blit) = true := by decide
/-- B20, B23, B27 and B29. -/
theorem test_start_faults :
    faults (exec (.start 1) tiny) 0x14 1 = true ∧
    faults (exec (.start 1) (channel1 { blit with remaining := 0, src := 0x3FFE, count := 2 })) 0x10 0x3FFE = true ∧
    (after (exec (.start 1) (channel1 { blit with remaining := 0, chain := true })) fun t => t.refused) = true ∧
    faults (exec (.start 1) (channel1 { blit with remaining := 7 })) 0x13 1 = true := by decide
/-- B64 and B66. -/
theorem test_wait :
    (after (exec (.wait 1) tiny) fun t => t.hostWait == .none && !t.fault.valid) = true ∧
    faults (exec (.wait 3) tiny) 0x12 3 = true := by decide
/-- B65. -/
theorem test_wait_blocks : (after (exec (.wait 1) (channel1 blit)) fun t => t.hostWait == .onCh 1) = true := by decide
/-- B62 and B61. -/
theorem test_poll_remaining :
    (after (exec (.pollRemaining 1) (channel1 blit)) fun t => t.ret == 32) = true ∧
    (after (exec (.pollRemaining 1) (channel1 { blit with remaining := 0 })) fun t => t.ret == 0) = true := by decide
/-- V5 and V1: a level that was already high is not an edge; high after low is. -/
theorem test_vsync_wait :
    (after (step ({ tiny with hostWait := .onVsync, vsPhase := .needLow, te := true }.scheduled [.host])) fun t =>
      t.hostWait == .onVsync && t.vsPhase == .needLow) = true ∧
    (after (step ({ tiny with hostWait := .onVsync, vsPhase := .needHigh, te := true }.scheduled [.host])) fun t =>
      t.hostWait == .none && t.vsPhase == .none) = true := by decide
/-- F20 under MAP-B. -/
theorem test_scan_start :
    (after (exec .scanStart tiny) fun t =>
      t.scanStarted && t.wireMarks == [0] && t.hostWait == .none &&
        t.channel 0 == startedChannel 0x8000 0x40000 2 8 true false false) = true := by decide
/-- F21. -/
theorem test_scan_start_busy : faults (exec .scanStart (flushing 3)) 0x13 0 = true := by decide
/-- F2, F3 and F7 under MAP-B. -/
theorem test_flush_progress :
    (after (exec .flushProgress (flushing 8)) fun t => t.ret == 0) = true ∧
    (after (exec .flushProgress (flushing 7)) fun t => t.ret == 1) = true ∧
    (after (exec .flushProgress (flushing 0)) fun t => t.ret == 8) = true := by decide
/-- F5: with the default size, 50000 pixels still to be sent, 7600 sent. -/
theorem test_flush_progress_default :
    (after (exec .flushProgress { flushing 50000 with cfg := Config.mapA }) fun t => t.ret == 7600) = true := by decide
/-- R228 from reset: the first WAIT returns, and the three parts after it are left. -/
theorem test_clear :
    (after (exec (.clear 0xF800) tiny) fun t =>
      t.hostWait == .none &&
        t.pending == [.hostWrite 0x30000 2 0xF800, .fill 1 0x8000 8 2 1, .wait 1]) = true := by decide
/-- F26 and F27. -/
theorem test_draw_begin :
    (after (exec .drawBegin tiny) fun t => t.hostWait == .none) = true ∧
    (after (exec .drawBegin (flushing 3)) fun t => t.hostWait == .onCh 0) = true := by decide
/-- R230. -/
theorem test_draw_end :
    (after (exec .drawEnd tiny) fun t => t.hostWait == .onVsync && t.pending == [.scanStart]) = true := by decide
/-- R232. -/
theorem test_flush :
    (after (exec .flush tiny) fun t => t.hostWait == .onVsync && t.pending == [.scanStart, .wait 0]) = true := by decide
/-- B50: the fill's configuration reads the fill cell, fixed (`opts` 0x0B, P4 command 1). -/
theorem test_fill :
    (after (exec (.fill 1 0x8000 4 2 1) tiny) fun t =>
      t.pending == [.start 1] &&
        t.channel 1 == { Channel.reset with
          src := 0x30000, dst := 0x8000, esize := 2, count := 4, incWr := true, bswap := true,
          configured := true }) = true := by decide
/-- P3, command 4: `opts` 0x0E. -/
theorem test_copy :
    (after (exec (.copy 2 0x2100 0x8000 8 2 1) tiny) fun t =>
      t.pending == [.start 2] &&
        t.channel 2 == { Channel.reset with
          src := 0x2100, dst := 0x8000, esize := 2, count := 8, incRd := true, incWr := true, bswap := true,
          configured := true }) = true := by decide
/-- P3, command 1: `opts` 0x06, `esize` 2, `count` 8. -/
theorem test_bulk_read :
    (after (exec (.bulkRead 2 0x1000 0x2000 8) tiny) fun t =>
      t.pending == [.start 2] &&
        t.channel 2 == { Channel.reset with
          src := 0x1000, dst := 0x2000, esize := 2, count := 8, incRd := true, incWr := true,
          configured := true }) = true := by decide
/-- R234: SCANOUT_CFG outside SCAN_START is refused. -/
theorem test_scanout_cfg : (after (exec .scanoutCfg tiny) fun t => t.refused && !t.fault.valid) = true := by decide
/-- B40: the halfword AA 00 arrives as 00 AA. -/
theorem test_element :
    (after (step ({ channel1 blit with mem := [(0x2000, 0xAA)] }.scheduled [.bte 1])) fun t =>
      t.mem == [(0x2000, 0xAA), (0x8001, 0xAA)] &&
        t.channel 1 == { blit with rdPtr := 0x2002, wrPtr := 0x8002, remaining := 31 }) = true := by decide
/-- B45: to the port, the two bytes go out in memory order and the write pointer stays. -/
theorem test_element_to_port :
    (after (step ({ flushing 8 with mem := [(0x8000, 0xF8)] }.scheduled [.bte 0])) fun t =>
      t.wire == [0xF8, 0x00] && (t.channel 0).wrPtr == 0x40000 && (t.channel 0).rdPtr == 0x8002) = true := by decide
/-- B42 and B43. -/
theorem test_byterev : byterev 0x5C 1 = 0x5C ∧ byterev 0x44332211 4 = 0x11223344 := by decide
/-- A code outside the table is refused (section 6 of the vectors). -/
theorem test_unknown_command :
    (after (step ({ tiny with prog := [0x11] }.scheduled [.host])) fun t => t.refused) = true := by decide

/-- E6, E8 and E5. -/
theorem test_compress :
    compress Config.mapA [1, 1, 2, 2, 2, 2, 3, 4, 4, 5] =
      some [0x000A, 0x0303, 0x0001, 0x0001, 0x0002, 0x0004, 0x0003, 0x0004, 0x0004, 0x0005] ∧
    compress Config.mapA [1, 2, 2, 2, 2, 2] = some [6, 0x0402, 1, 2] ∧
    compress Config.mapA [5, 5, 5, 5, 6] = some [5, 0x0301, 5, 0x0001, 6] := by decide
/-- D12, D24 and D30. -/
theorem test_decompress_function :
    decompressRef [2, 0x0000, 0x0000, 0x0002, 7, 8] [0xEE, 0xEE] = .ok [7, 8] ∧
    decompressRef [6, 0x0201, 5, 0x0102, 6, 7] [0, 0, 0, 0, 0, 0] = .ok [5, 5, 5, 6, 7, 7] ∧
    decompressRef [5, 0x0201, 5, 0x0102, 6, 7] [0, 0, 0, 0, 0] = .error (.outputOverrun, 3) := by
  refine ⟨rfl, rfl, rfl⟩

/-- A table row's word runs in the very next step: a LITRUN control word, and FLUSH. -/
theorem test_with_fetch_word :
    (after (step (State.reset.withFetchWord 16 0x0301)) fun t => t.dec.st == .lit && t.dec.d == 1 && t.dec.r == 3) =
      true ∧
    (after (step (State.reset.withFetchWord 8 0x43)) fun t => t.hostWait == .onVsync) = true := by decide

/-! ## Fair runs -/

/-- The agents in turn, over and over: HOST, the three channels, DEC, ENV. -/
def inTurn : Schedule := fun n =>
  match n % 6 with
  | 0 => .host
  | 1 => .bte 0
  | 2 => .bte 1
  | 3 => .bte 2
  | 4 => .dec
  | _ => .env

theorem inTurn_bte (n : Nat) {c : Nat} (h : c < 3) : inTurn (6 * n + (c + 1)) = .bte c := by
  have : c = 0 ∨ c = 1 ∨ c = 2 := by omega
  rcases this with rfl | rfl | rfl <;> simp [inTurn]

theorem inTurn_hostTurns : HostTurns inTurn := fun n => ⟨6 * n, by omega, by simp [inTurn]⟩

/-- HOST has nothing to issue, DEC is not busy, nothing is stopped, and there are three channels. -/
abbrev Quiet (s : State) : Prop :=
  s.safe ∧ s.prog = [] ∧ s.pending = [] ∧ s.decBusy = false ∧ s.numCh = 3

/-- A program with no command. -/
def noCommands : Program := .ofList []

theorem quiet_turn {s : State} (q : Quiet s) (a : Agent) :
    Quiet (s.afterTurn a []) ∧ (s.afterTurn a []).te = if a = .env then !s.te else s.te := by
  obtain ⟨hs, hp, hq, hd, hn⟩ := q
  have hp' : s.prog ++ [] = [] := by simp [hp]
  cases a with
  | env => rw [afterTurn_env hs]; exact ⟨⟨hs, hp', hq, hd, hn⟩, rfl⟩
  | dec => rw [afterTurn_dec_idle hs _ hd]; exact ⟨⟨hs, hp', hq, hd, hn⟩, rfl⟩
  | bte c =>
    rw [afterTurn_bte hs]
    obtain ⟨_, _, k3, k4, k5, k6, k7, k8, k9⟩ :=
      elementStep_keeps c { s with tape := [], turns := s.turns + 1, prog := s.prog ++ [] }
    exact ⟨⟨⟨(congrArg FaultReg.valid k5).trans hs.1, k6.trans hs.2⟩, k7.trans hp', k8.trans hq,
      by rw [State.decBusy, k3]; exact hd, k9.trans hn⟩,
      k4⟩
  | host =>
    obtain ⟨t, ht, hk⟩ : ∃ t, hostStep { s with tape := [], turns := s.turns + 1, prog := s.prog ++ [] } = .next t ∧
        (t.te = s.te ∧ Quiet t) := by
      rw [hp']
      unfold hostStep
      cases hw : s.hostWait with
      | none =>
        refine ⟨{ s with tape := [], turns := s.turns + 1, prog := [], hostWait := .none }, ?_, rfl, hs, rfl, hq, hd, hn⟩
        simp [hostIssue, State.hostFetch, hq, decode]
      | onDec => refine ⟨_, rfl, ?_⟩; dsimp only; split <;> exact ⟨rfl, hs, rfl, hq, hd, hn⟩
      | onCh c => refine ⟨_, rfl, ?_⟩; dsimp only; split <;> exact ⟨rfl, hs, rfl, hq, hd, hn⟩
      | onVsync =>
        refine ⟨_, rfl, ?_⟩
        unfold vsyncSample
        split <;> (try split) <;> exact ⟨rfl, hs, rfl, hq, hd, hn⟩
    rw [afterTurn_of_agentStep (a := .host) hs ht]
    exact ⟨hk.2, by simpa using hk.1⟩

theorem quiet_run {s : State} (q : Quiet s) (n : Nat) :
    Quiet (s.runTo inTurn noCommands n) ∧ (s.runTo inTurn noCommands n).te = (s.te ^^ decide (n / 6 % 2 = 1)) := by
  induction n with
  | zero => exact ⟨q, by simp⟩
  | succ n ih =>
    obtain ⟨hq, ht⟩ := quiet_turn ih.1 (inTurn n)
    refine ⟨hq, ht.trans ?_⟩
    rw [ih.2]
    have h6 : n % 6 < 6 := Nat.mod_lt _ (by omega)
    by_cases h : n % 6 = 5
    · have hd : (n + 1) / 6 = n / 6 + 1 := by omega
      have he : inTurn n = .env := by simp [inTurn, h]
      have hm : n / 6 % 2 = 0 ∨ n / 6 % 2 = 1 := by omega
      rw [he, hd]
      rcases hm with hm | hm <;> simp [hm, show (n / 6 + 1) % 2 = (n / 6 % 2 + 1) % 2 by omega]
    · have hd : (n + 1) / 6 = n / 6 := by omega
      have he : inTurn n ≠ .env := by
        have : n % 6 = 0 ∨ n % 6 = 1 ∨ n % 6 = 2 ∨ n % 6 = 3 ∨ n % 6 = 4 := by omega
        rcases this with h | h | h | h | h <;> simp [inTurn, h]
      rw [if_neg he, hd]

theorem quiet_fair {s : State} (q : Quiet s) (h : s.te = false) : WeaklyFair inTurn noCommands s where
  channels n c _ hr := by
    have hc : c < 3 := by
      by_contra hc
      apply hr
      have hn := (quiet_run q n).1.2.2.2.2
      rw [State.channel, List.getD_eq_default _ _ (by rw [State.numCh] at hn; omega)]
      rfl
    exact ⟨6 * n + (c + 1), by omega, inTurn_bte n hc⟩
  dec n _ _ := ⟨6 * n + 4, by omega, by simp [inTurn]⟩
  env n := .inr ⟨12 * n, 12 * n + 6, by omega, by omega,
    by rw [(quiet_run q _).2, h, show 12 * n / 6 % 2 = 0 by omega]; rfl,
    by rw [(quiet_run q _).2, h, show (12 * n + 6) / 6 % 2 = 1 by omega]; rfl⟩

/-- At turn `12 * n` HOST samples a low level, and six turns later a high one. -/
theorem quiet_live {s : State} (q : Quiet s) (h : s.te = false) : VsyncLive inTurn noCommands s where
  stepA n hw hp := by
    rcases needLow_until (n := 12 * n) (by omega) hw hp with ⟨a, h1, _, h2⟩ | ⟨h1, h2⟩
    · exact ⟨a, h1, h2⟩
    · have k := quiet_run q (12 * n)
      exact ⟨12 * n, by omega, by simp [inTurn, show 12 * n % 6 = 0 by omega], stopped_eq_false.mpr k.1.1, h1, h2,
        by rw [k.2, h, show 12 * n / 6 % 2 = 0 by omega]; rfl⟩
  stepB n hw hp := by
    rcases needHigh_until (n := 12 * n + 6) (by omega) hw hp with ⟨b, h1, _, h2⟩ | ⟨h1, h2⟩
    · exact ⟨b, h1, h2⟩
    · have k := quiet_run q (12 * n + 6)
      exact ⟨12 * n + 6, by omega, by simp [inTurn, show (12 * n + 6) % 6 = 0 by omega], stopped_eq_false.mpr k.1.1,
        h1, h2, by rw [k.2, h, show (12 * n + 6) / 6 % 2 = 1 by omega]; rfl⟩

/-- DEC about to find its stream empty (D1): HOST is in DECOMPRESS and the run stops in the fifth turn. -/
def emptyStream : State := decoding .hdr 0 0 8 0 0 0 0

theorem emptyStream_fair : WeaklyFair inTurn noCommands emptyStream where
  channels n c hst hr := by
    have hn : n < 5 := by
      by_contra hn
      rw [runTo_of_stopped (m := 5) (by decide) (by omega)] at hst
      revert hst; decide
    exfalso
    apply hr
    have hb : ∀ k < 5, (emptyStream.runTo inTurn noCommands k).bte = [Channel.reset, Channel.reset, Channel.reset] := by decide
    rw [State.channel, hb n hn]
    match c with
    | 0 | 1 | 2 => rfl
    | _ + 3 => rfl
  dec n _ _ := ⟨6 * n + 4, by omega, by simp [inTurn]⟩
  env _ := .inl ⟨5, by decide⟩

/-- A program that never ends: FLUSH_PROGRESS for ever. -/
def polling : Program := fun _ => [0x32]

theorem polling_isSequence : polling.isSequence := fun _ => .inl (.inl ⟨.flushProgress, rfl⟩)
theorem noCommands_isSequence : noCommands.isSequence := fun _ => .inr fun _ _ => rfl

/-- R332: from reset, a HOST that has every turn issues a command of its unending program in each, for ever; the value
that stood in `ret` is replaced in the first turn. -/
theorem test_unending_program (n : Nat) :
    ({ State.reset with ret := 7 }.runTo (fun _ => .host) polling (n + 1)) =
      { State.reset with turns := n + 1 } := by
  induction n with
  | zero => rfl
  | succ n ih => rw [runTo_succ, ih]; rfl

/-- HOST samples, the level rises once and for ever, HOST samples again. -/
def oneEdge : Schedule
  | 1 => .env
  | _ => .host

/-- A wait before its low sample. -/
def waiting : State := { tiny with hostWait := .onVsync, vsPhase := .needLow }

theorem oneEdge_returned (n : Nat) :
    waiting.runTo oneEdge noCommands (n + 3) = { tiny with te := true, turns := n + 3 } := by
  induction n with
  | zero => rfl
  | succ n ih => rw [show n + 1 + 3 = n + 3 + 1 from rfl, runTo_succ, ih]; rfl

/-- R224 asks for step A and then step B in each wait, and for no edge after the return. -/
theorem test_one_edge_is_live : VsyncLive oneEdge noCommands waiting where
  stepA n hw hp := by
    match n with
    | 0 => exact ⟨0, by omega, rfl, by decide⟩
    | 1 => exact absurd hp (by decide)
    | 2 => exact absurd hp (by decide)
    | n + 3 => rw [oneEdge_returned] at hw; cases hw
  stepB n hw hp := by
    match n with
    | 0 => exact absurd hp (by decide)
    | 1 => exact ⟨2, by omega, rfl, by decide⟩
    | 2 => exact ⟨2, by omega, rfl, by decide⟩
    | n + 3 => rw [oneEdge_returned] at hw; cases hw

/-! ## Witnesses: states and operands that meet the hypotheses of each statement, clause by clause -/

/-- DEC about to read the word `w` at stream index `ip`. -/
def reading (st : DecState) (inLen ip : U32) : State :=
  { (decoding st inLen ip 3 3 1 1 1).scheduled [.dec] with mem := [(0x2000, 0x03), (0x2003, 0x01), (0x2006, 0x09)] }

theorem witness_DecodeInvertsEncode :
    (Instr.litrun 0 1).wellFormed = true ∧ (Instr.litrun 255 255).wellFormed = true := by decide
theorem witness_EncodeInvertsDecode : decode .control [0x01, 0x00] = .ok (.litrun 0 1) [] := by decide
theorem witness_StreamWordsDecodeByPosition :
    (0xFF00 : U16).extractLsb' 0 8 = 0 ∧ (0xFF01 : U16).extractLsb' 0 8 ≠ 0 := by decide
theorem witness_HostStepRunsTheFetchedCommand :
    (∃ s : State, s.safe ∧ s.turn = .host ∧ s.hostWait = .none ∧ s.pending = [] ∧
      decode .command s.prog = .ok .flush []) ∧
    ∃ s : State, s.safe ∧ s.turn = .host ∧ s.hostWait = .none ∧ s.pending = [.flush] :=
  ⟨⟨{ tiny with prog := [0x43] }.scheduled [.host], by decide⟩,
    ⟨(tiny.issuing [.flush]).scheduled [.host], by decide⟩⟩
/-- At the last index inside the stream, and at the first index past it; and a payload word. -/
theorem witness_DecStepRunsTheFetchedWord :
    (∃ s : State, s.safe ∧ s.turn = .dec ∧ (s.dec.st = .hdr ∨ s.dec.st = .ctrl) ∧
      s.dec.inLen.toNat ≤ s.dec.ip.toNat) ∧
    (∃ s : State, s.safe ∧ s.turn = .dec ∧ s.dec.st.position = some .control ∧
      (Position.control = .payload ∨ s.dec.ip.toNat < s.dec.inLen.toNat) ∧
      decode .control [s.mem.byte (s.dec.inAddr s.dec.ip.toNat), s.mem.byte (s.dec.inAddr s.dec.ip.toNat + 1)] =
        .ok (.skip 1) []) ∧
    ∃ s : State, s.safe ∧ s.turn = .dec ∧ s.dec.st.position = some .payload ∧
      (Position.payload = .payload ∨ s.dec.ip.toNat < s.dec.inLen.toNat) ∧
      decode .payload [s.mem.byte (s.dec.inAddr s.dec.ip.toNat), s.mem.byte (s.dec.inAddr s.dec.ip.toNat + 1)] =
        .ok (.pixel 9) [] :=
  ⟨⟨reading .ctrl 2 2, by decide⟩, ⟨reading .ctrl 2 1, by decide⟩, ⟨reading .lit 4 3, by decide⟩⟩
theorem witness_UnknownCommandIsRefused :
    ∃ s : State, s.safe ∧ s.turn = .host ∧ s.hostWait = .none ∧ s.pending = [] ∧
      decode .command s.prog = .unknownOp 0x11 :=
  ⟨{ tiny with prog := [0x11] }.scheduled [.host], by decide⟩
theorem witness_StoppedMachineHasNoStep :
    (∃ s : State, s.fault.valid = true) ∧ ∃ s : State, s.fault.valid = false ∧ s.refused = true :=
  ⟨⟨tiny.raise .access 0, by decide⟩, ⟨tiny.refuse, by decide⟩⟩
theorem witness_BlockedAgentsChangeNothing :
    (∃ s : State, s.safe ∧ s.turn = .dec ∧ (s.dec.st = .idle ∨ s.dec.st = .done)) ∧
    (∃ s : State, s.safe ∧ s.turn = .bte 2 ∧ (s.channel 2).remaining = 0) ∧
    (∃ s : State, s.safe ∧ s.turn = .host ∧ s.hostWait = .onDec ∧ s.dec.st ≠ .done) ∧
    (∃ s : State, s.safe ∧ s.turn = .host ∧ s.hostWait = .onCh 1 ∧ (s.channel 1).remaining ≠ 0) ∧
    (∃ s : State, s.safe ∧ s.turn = .host ∧ s.hostWait = .onVsync ∧ s.vsPhase = .needLow ∧ s.te = true) ∧
    (∃ s : State, s.safe ∧ s.turn = .host ∧ s.hostWait = .onVsync ∧ s.vsPhase = .needHigh ∧ s.te = false) ∧
    (∃ s : State, s.safe ∧ s.turn = .host ∧ s.hostWait = .none ∧ s.pending = [] ∧
      decode .command s.prog = .truncated ∧ s.prog = []) ∧
    ∃ s : State, s.safe ∧ s.turn = .host ∧ s.hostWait = .none ∧ s.pending = [] ∧
      decode .command s.prog = .truncated ∧ s.prog ≠ [] :=
  ⟨⟨tiny.scheduled [.dec], by decide⟩, ⟨tiny.scheduled [.bte 2], by decide⟩,
    ⟨{ tiny with hostWait := .onDec }.scheduled [.host], by decide⟩,
    ⟨{ channel1 { blit with remaining := 1 } with hostWait := .onCh 1 }.scheduled [.host], by decide⟩,
    ⟨{ tiny with hostWait := .onVsync, vsPhase := .needLow, te := true }.scheduled [.host], by decide⟩,
    ⟨{ tiny with hostWait := .onVsync, vsPhase := .needHigh }.scheduled [.host], by decide⟩,
    ⟨tiny.scheduled [.host], by decide⟩, ⟨{ tiny with prog := [0x22, 0x01] }.scheduled [.host], by decide⟩⟩
theorem witness_EnvTogglesTheSignal : ∃ s : State, s.safe ∧ s.turn = .env := ⟨tiny.scheduled [.env], by decide⟩
theorem witness_FaultsArePrecise :
    tiny.fault.valid = false ∧ (tiny.raise .access 0).fault.valid = true ∧
      ∃ t, exec (.start 1) tiny = .next t ∧ t.fault ≠ tiny.fault :=
  ⟨by decide, by decide, exists_next _ (by decide)⟩
theorem witness_RefusalsArePrecise : ∃ t, exec .scanoutCfg tiny = .next t ∧ t.refused ≠ tiny.refused :=
  exists_next _ (by decide)
/-- The fewest channels the spec allows, and a framebuffer of no pixels. -/
theorem witness_ResetMeetsTheInvariants :
    ({ mapB with width := 0 }).wf ∧ 2 ≤ 2 ∧ Memory.wf [(0x2000, 1)] := by decide
/-- Each clause at an address where the next one begins or ends (MAP-A's regions: D40 to D51). -/
theorem witness_DecompressCommand :
    (∃ s : State, (s.dec.st = .idle ∨ s.dec.st = .done) ∧ 0x2000 % 2 = 0 ∧ 0x2010 % 2 = 0 ∧
      EmptyOrInside [s.cfg.asset, s.cfg.stage, s.cfg.fb] 0x2000 (2 * 8) ∧
      EmptyOrInside [s.cfg.stage, s.cfg.fb] 0x2010 (2 * 4) ∧ ¬ShareByte 0x2000 (2 * 8) 0x2010 (2 * 4) ∧
      EmptyOrInside [s.cfg.asset, s.cfg.stage, s.cfg.fb] 0x1FFE (2 * 1) ∧
      ¬EmptyOrInside [s.cfg.asset, s.cfg.stage, s.cfg.fb] 0x1FFE (2 * 2) ∧
      EmptyOrInside [s.cfg.stage, s.cfg.fb] 0x3FF8 (2 * 4) ∧
      ¬EmptyOrInside [s.cfg.stage, s.cfg.fb] 0x3FF8 (2 * 8) ∧
      EmptyOrInside [s.cfg.stage, s.cfg.fb] 0x200E (2 * 4) ∧ ShareByte 0x2000 (2 * 8) 0x200E (2 * 4)) ∧
    (0x2001 : U32).toNat % 2 ≠ 0 ∧ (0x3001 : U32).toNat % 2 ≠ 0 :=
  ⟨⟨tiny, by decide⟩, by decide⟩
/-- A header equal to the buffer's length and one above it; an empty stream. -/
theorem witness_HeaderStep :
    (∃ s : State, s.dec.st = .hdr ∧ s.dec.ip.toNat < s.dec.inLen.toNat ∧ (3 : U16).toNat ≤ s.dec.outLen.toNat ∧
      s.dec.outLen.toNat < (4 : U16).toNat) ∧
    ∃ s : State, s.dec.st = .hdr ∧ s.dec.inLen.toNat ≤ s.dec.ip.toNat :=
  ⟨⟨decoding .hdr 1 0 3 0 0 0 0, by decide⟩, ⟨decoding .hdr 0 0 3 0 0 0 0, by decide⟩⟩
/-- A skip to exactly N and one slot past it (D10, D11); no control word. -/
theorem witness_SkipStep :
    (∃ s : State, s.dec.st = .ctrl ∧ s.dec.ip.toNat < s.dec.inLen.toNat ∧
      s.dec.cur.toNat + (2 : Byte).toNat ≤ s.dec.n.toNat ∧ s.dec.n.toNat < s.dec.cur.toNat + (3 : Byte).toNat) ∧
    ∃ s : State, s.dec.st = .ctrl ∧ s.dec.inLen.toNat ≤ s.dec.ip.toNat :=
  ⟨⟨decoding .ctrl 2 1 3 3 1 0 0, by decide⟩, ⟨decoding .ctrl 2 2 3 3 1 0 0, by decide⟩⟩
/-- A record that just fits stream and buffer, and one that is a word, or a slot, too long. -/
theorem witness_LitrunControlStep :
    (∃ s : State, s.dec.st = .ctrl ∧ (1 : Byte) ≠ 0 ∧ s.dec.ip.toNat + 1 + (1 : Byte).toNat ≤ s.dec.inLen.toNat ∧
      s.dec.cur.toNat + (1 : Byte).toNat + (1 : Byte).toNat ≤ s.dec.n.toNat ∧
      s.dec.n.toNat < s.dec.cur.toNat + (1 : Byte).toNat + (2 : Byte).toNat ∧
      s.dec.ip.toNat < s.dec.inLen.toNat ∧ s.dec.inLen.toNat < s.dec.ip.toNat + 1 + (2 : Byte).toNat) ∧
    ∃ s : State, s.dec.st = .ctrl ∧ s.dec.inLen.toNat ≤ s.dec.ip.toNat :=
  ⟨⟨decoding .ctrl 3 1 3 3 1 0 0, by decide⟩, ⟨decoding .ctrl 3 3 3 3 1 0 0, by decide⟩⟩
theorem witness_LiteralStep : ∃ s : State, s.dec.st = .lit ∧ DecInv s ∧ s.cfg.wf :=
  ⟨decoding .lit 4 3 3 3 1 1 1, by decide⟩
theorem witness_RepeatStep : ∃ s : State, s.safe ∧ s.turn = .dec ∧ s.dec.st = .rep ∧ DecInv s ∧ s.cfg.wf :=
  ⟨(decoding .rep 4 4 3 3 2 0 1).scheduled [.dec], by decide⟩
/-- The return; and in fair runs a DECOMPRESS that is done, and one whose DEC is busy and will fault. -/
theorem witness_DecompressReturnsWhenDone :
    (∃ s : State, s.safe ∧ s.turn = .host ∧ s.hostWait = .onDec ∧ s.dec.st = .done) ∧
    (∃ (f : Schedule) (p : Program) (s : State), s.safe ∧ HostInv s ∧ DecInv s ∧ WeaklyFair f p s ∧ HostTurns f ∧
      s.hostWait = .onDec ∧ s.dec.st = .done) ∧
    ∃ (f : Schedule) (p : Program) (s : State), s.safe ∧ HostInv s ∧ DecInv s ∧ WeaklyFair f p s ∧ HostTurns f ∧
      s.hostWait = .onDec ∧ s.decBusy = true :=
  ⟨⟨(decoding .done 4 4 3 3 3 0 0).scheduled [.host], by decide⟩,
    ⟨inTurn, noCommands, decoding .done 4 4 3 3 3 0 0, by decide, by decide, by decide, quiet_fair (by decide) rfl,
      inTurn_hostTurns, rfl, rfl⟩,
    ⟨inTurn, noCommands, emptyStream, by decide, by decide, by decide, emptyStream_fair, inTurn_hostTurns, rfl, rfl⟩⟩
theorem witness_StepKeepsDecInvariant :
    ∃ s : State, HostInv s ∧ DecInv s ∧ ∃ t, step s = .next t ∧ t.dec.st = .rep :=
  ⟨reading .lit 4 3, by decide, by decide, exists_next _ (by decide)⟩

/-- DEC about to read the header of this stream of bytes, with one output slot. -/
def admittedStream (bytes : Memory) (inLen : U32) : State := { decoding .hdr inLen 0 1 0 0 0 0 with mem := bytes }

/-- D20, and the empty stream D1. -/
theorem witness_DecStepsComputeDecompress :
    (∃ s : State, s.safe ∧ s.cfg.wf ∧ DecInv s ∧ s.dec.st = .hdr ∧
      decompressRef s.inputWords s.outputWords = .ok [7]) ∧
    ∃ s : State, s.safe ∧ s.cfg.wf ∧ DecInv s ∧ s.dec.st = .hdr ∧
      decompressRef s.inputWords s.outputWords = .error (.streamUnderrun, 0) :=
  ⟨⟨admittedStream [(0x2000, 1), (0x2002, 1), (0x2004, 7)] 3, by decide, by decide, by decide, by decide, rfl⟩,
    ⟨admittedStream [] 0, by decide, by decide, by decide, by decide, rfl⟩⟩
/-- D20 with one slot more than the header asks for: slot 1 is kept. -/
theorem witness_DecompressKeepsTheTail :
    decompressRef [1, 0x0001, 7] [0xEE, 0xEE] = .ok [7, 0xEE] ∧ (([1, 0x0001, 7] : List U16).getD 0 0).toNat ≤ 1 := by
  refine ⟨rfl, by decide⟩
theorem witness_RoundTrip :
    (List.replicate 65535 (3 : U16)).length ≤ 65535 ∧
      (List.replicate 65535 (3 : U16)).length ≤ (List.replicate 65535 (0 : U16)).length := by
  simp only [List.length_replicate, le_refl, and_self]
/-- E1, which meets the bound with equality. -/
theorem witness_CompressBound : compress Config.mapA [0x1234] = some [0x0001, 0x0001, 0x1234] := by decide
theorem witness_CompressEmitsNoSkip :
    compress Config.mapA [0x1234] = some [0x0001, 0x0001, 0x1234] ∧
      0x0001 ∈ controlWords [0x0001, 0x0001, 0x1234] := by decide
/-- The last halfword of `STAGE`; size 3; an odd address; the display port. -/
theorem witness_HostRead :
    ∃ s : State,
      (SizeOk (2 : U32).toNat ∧ (0x3FFE : U32).toNat % (2 : U32).toNat = 0 ∧
        Inside [s.cfg.asset, s.cfg.stage, s.cfg.fb, s.cfg.fillCell] (0x3FFE : U32).toNat (2 : U32).toNat) ∧
      ¬SizeOk (3 : U32).toNat ∧
      (SizeOk (2 : U32).toNat ∧ (0x3FFF : U32).toNat % (2 : U32).toNat ≠ 0) ∧
      (SizeOk (2 : U32).toNat ∧ (0x40000 : U32).toNat % (2 : U32).toNat = 0 ∧
        ¬Inside [s.cfg.asset, s.cfg.stage, s.cfg.fb, s.cfg.fillCell] (0x40000 : U32).toNat (2 : U32).toNat) :=
  ⟨tiny, by decide⟩
/-- The last byte of `FILL_CELL`; size 0; an odd address; the last byte of `ASSET`, which HOST may not write. -/
theorem witness_HostWrite :
    ∃ s : State, s.cfg.wf ∧
      (SizeOk (1 : U32).toNat ∧ (0x30003 : U32).toNat % (1 : U32).toNat = 0 ∧
        Inside [s.cfg.stage, s.cfg.fb, s.cfg.fillCell] (0x30003 : U32).toNat (1 : U32).toNat) ∧
      ¬SizeOk (0 : U32).toNat ∧
      (SizeOk (4 : U32).toNat ∧ (0x2002 : U32).toNat % (4 : U32).toNat ≠ 0) ∧
      (SizeOk (1 : U32).toNat ∧ (0x1FFF : U32).toNat % (1 : U32).toNat = 0 ∧
        ¬Inside [s.cfg.stage, s.cfg.fb, s.cfg.fillCell] (0x1FFF : U32).toNat (1 : U32).toNat) :=
  ⟨tiny, by decide⟩
/-- B1 with the highest channel and every option but `fixed`; B2, B3 and B6; B8; B9; B10. -/
theorem witness_ConfigureCommand :
    (∃ s : State, (2 : U32).toNat < s.numCh ∧ SizeOk (2 : U32).toNat ∧ OptsOk 0x1E ∧ (2 : U32).toNat ≠ scanCh ∧
      (s.channel (2 : U32).toNat).remaining = 0 ∧ (0x2000 : U32).toNat % (2 : U32).toNat = 0 ∧
      (0x8000 : U32).toNat % (2 : U32).toNat = 0 ∧ (0x2001 : U32).toNat % (2 : U32).toNat ≠ 0 ∧
      (SizeOk (4 : U32).toNat ∧ (0x2000 : U32).toNat % (4 : U32).toNat = 0 ∧
        (0x8002 : U32).toNat % (4 : U32).toNat ≠ 0) ∧
      s.numCh ≤ (3 : U32).toNat ∧ ¬SizeOk (3 : U32).toNat ∧ ¬OptsOk 0x05 ∧ ¬OptsOk 0x26) ∧
    ∃ s : State, (1 : U32).toNat < s.numCh ∧ SizeOk (2 : U32).toNat ∧ OptsOk 0x0E ∧ (1 : U32).toNat ≠ scanCh ∧
      (s.channel (1 : U32).toNat).remaining ≠ 0 :=
  ⟨⟨tiny, by decide⟩, ⟨channel1 { blit with remaining := 1 }, by decide⟩⟩

/-- Channel 1 configured as `ch` says and not running. -/
def configured1 (ch : Channel) : State := channel1 { ch with remaining := 0 }

/-- B21 and B23 with `count` 1; B2's channel; B20; B29; B27; B23; B28. -/
theorem witness_StartCommand :
    (∃ s : State, s.numCh ≤ (3 : U32).toNat) ∧
    (∃ (s : State) (ch : Channel), ch = s.channel (1 : U32).toNat ∧ (1 : U32).toNat < s.numCh ∧
      (1 : U32).toNat ≠ scanCh ∧ ch.configured = true ∧ ch.remaining = 0 ∧
      (ch.chain = true → s.cfg.chainNoop = true) ∧
      EmptyOrInside [s.cfg.asset, s.cfg.stage, s.cfg.fb, s.cfg.fillCell] ch.src.toNat
        (rangeLen ch.incRd ch.count.toNat ch.esize.toNat) ∧
      EmptyOrInside [s.cfg.stage, s.cfg.fb, s.cfg.display] ch.dst.toNat
        (rangeLen ch.incWr ch.count.toNat ch.esize.toNat)) ∧
    (∃ s : State, (2 : U32).toNat < s.numCh ∧ (2 : U32).toNat ≠ scanCh ∧ (s.channel 2).configured = false) ∧
    (∃ s : State, (1 : U32).toNat < s.numCh ∧ (s.channel 1).configured = true ∧ (s.channel 1).remaining ≠ 0) ∧
    (∃ s : State, (1 : U32).toNat < s.numCh ∧ (s.channel 1).configured = true ∧ (s.channel 1).remaining = 0 ∧
      (s.channel 1).chain = true ∧ s.cfg.chainNoop = false) ∧
    (∃ (s : State) (ch : Channel), ch = s.channel 1 ∧ (1 : U32).toNat < s.numCh ∧ ch.configured = true ∧
      ch.remaining = 0 ∧ (ch.chain = true → s.cfg.chainNoop = true) ∧
      ¬EmptyOrInside [s.cfg.asset, s.cfg.stage, s.cfg.fb, s.cfg.fillCell] ch.src.toNat
        (rangeLen ch.incRd ch.count.toNat ch.esize.toNat)) ∧
    ∃ (s : State) (ch : Channel), ch = s.channel 1 ∧ (1 : U32).toNat < s.numCh ∧ ch.configured = true ∧
      ch.remaining = 0 ∧ (ch.chain = true → s.cfg.chainNoop = true) ∧
      EmptyOrInside [s.cfg.asset, s.cfg.stage, s.cfg.fb, s.cfg.fillCell] ch.src.toNat
        (rangeLen ch.incRd ch.count.toNat ch.esize.toNat) ∧
      ¬EmptyOrInside [s.cfg.stage, s.cfg.fb, s.cfg.display] ch.dst.toNat
        (rangeLen ch.incWr ch.count.toNat ch.esize.toNat) :=
  ⟨⟨tiny, by decide⟩, ⟨configured1 { blit with src := 0x3FFE, count := 1 }, _, rfl, by decide⟩,
    ⟨tiny, by decide⟩, ⟨channel1 { blit with remaining := 7 }, by decide⟩,
    ⟨configured1 { blit with chain := true }, by decide⟩,
    ⟨configured1 { blit with src := 0x3FFE, count := 2 }, _, rfl, by decide⟩,
    ⟨configured1 { blit with src := 0x8000, dst := 0x40000, count := 3 }, _, rfl, by decide⟩⟩
theorem witness_ScanChannelIsReserved :
    ∃ s : State, scanCh < s.numCh ∧ (0 : U32).toNat = scanCh ∧ SizeOk (2 : U32).toNat ∧ OptsOk 0x04 ∧ s.cfg.wf :=
  ⟨tiny, by decide⟩
theorem witness_WaitBlocksUntilNothingRemains :
    (∃ s : State, s.numCh ≤ (3 : U32).toNat) ∧
    (∃ s : State, (2 : U32).toNat < s.numCh ∧ (s.channel (2 : U32).toNat).remaining = 0) ∧
    (∃ s : State, (1 : U32).toNat < s.numCh ∧ (s.channel (1 : U32).toNat).remaining ≠ 0) ∧
    (∃ s : State, s.safe ∧ s.turn = .host ∧ s.hostWait = .onCh 1 ∧ (s.channel 1).remaining = 0) ∧
    ∃ (f : Schedule) (p : Program) (s : State), s.safe ∧ HostInv s ∧ WeaklyFair f p s ∧ HostTurns f ∧ s.hostWait = .onCh 1 ∧
      (s.channel 1).remaining = 2 :=
  ⟨⟨tiny, by decide⟩, ⟨tiny, by decide⟩, ⟨channel1 { blit with remaining := 1 }, by decide⟩,
    ⟨{ tiny with hostWait := .onCh 1 }.scheduled [.host], by decide⟩,
    ⟨inTurn, noCommands, { channel1 { blit with remaining := 2 } with hostWait := .onCh 1 }, by decide, by decide,
      quiet_fair (by decide) rfl, inTurn_hostTurns, rfl, rfl⟩⟩
theorem witness_PollReturnsRemaining : ∃ s : State, s.numCh ≤ (3 : U32).toNat ∧ (2 : U32).toNat < s.numCh :=
  ⟨tiny, by decide⟩
/-- An element to memory, and one to the last byte of the display port. -/
theorem witness_ElementStep :
    (∃ (s : State) (ch : Channel), s.safe ∧ s.turn = .bte 1 ∧ ch = s.channel 1 ∧ ch.remaining ≠ 0 ∧
      ¬inRegion s.cfg.display ch.wrPtr.toNat) ∧
    ∃ (s : State) (ch : Channel), s.safe ∧ s.turn = .bte 1 ∧ ch = s.channel 1 ∧ ch.remaining ≠ 0 ∧
      inRegion s.cfg.display ch.wrPtr.toNat :=
  ⟨⟨(channel1 blit).scheduled [.bte 1], _, by decide, by decide, rfl, by decide⟩,
    ⟨(channel1 { blit with esize := 1, wrPtr := 0x40003, incWr := false }).scheduled [.bte 1], _, by decide,
      by decide, rfl, by decide⟩⟩
theorem witness_ByteSwapIsAnInvolution :
    3 < 4 ∧ (SizeOk 1 ∧ (0xFF : U32).toNat < 256 ^ 1) ∧ (SizeOk 2 ∧ (0xFFFF : U32).toNat < 256 ^ 2) ∧
      (SizeOk 4 ∧ (0xFFFFFFFF : U32).toNat < 256 ^ 4) := by decide
/-- B50 and B52 on channel 1, P3's command 1 on channel 2, under MAP-A. -/
theorem witness_TransferCompositesConfigureAndStart :
    ∃ s : State, (4 : U32) = countField s.cfg 4 ∧ s.safe ∧ s.cfg.wf ∧ (2 : U32).toNat < s.numCh ∧
      (2 : U32).toNat ≠ scanCh ∧ (s.channel (2 : U32).toNat).remaining = 0 ∧ SizeOk (2 : U32).toNat ∧
      (0x8000 : U32).toNat % (2 : U32).toNat = 0 ∧
      EmptyOrInside [s.cfg.stage, s.cfg.fb, s.cfg.display] (0x8000 : U32).toNat ((4 : U32).toNat * (2 : U32).toNat) ∧
      (0x3FF8 : U32).toNat % (2 : U32).toNat = 0 ∧
      EmptyOrInside [s.cfg.asset, s.cfg.stage, s.cfg.fb, s.cfg.fillCell] (0x3FF8 : U32).toNat
        ((4 : U32).toNat * (2 : U32).toNat) ∧
      (0x1FF8 : U32).toNat % 2 = 0 ∧
      EmptyOrInside [s.cfg.asset, s.cfg.stage, s.cfg.fb, s.cfg.fillCell] (0x1FF8 : U32).toNat ((4 : U32).toNat * 2) :=
  ⟨tiny, by decide⟩
/-- A COPY under MAP-A: no such channel, no such size, SCAN_CH, a running channel, each address misaligned, and the two
ranges one element past the end of `STAGE` and of the display port. FILL and BULK_READ name the same clauses. -/
theorem witness_TransferCompositesConfigureAndStart_traps :
    (∃ s : State, (4 : U32) = countField s.cfg 4 ∧ s.safe ∧ s.numCh ≤ (3 : U32).toNat ∧ ¬SizeOk (3 : U32).toNat ∧
      (0 : U32).toNat < s.numCh ∧ (0 : U32).toNat = scanCh ∧ (2 : U32).toNat < s.numCh ∧ (2 : U32).toNat ≠ scanCh ∧
      SizeOk (2 : U32).toNat ∧ (s.channel (2 : U32).toNat).remaining = 0 ∧
      (0x2001 : U32).toNat % (2 : U32).toNat ≠ 0 ∧ (0x2000 : U32).toNat % (2 : U32).toNat = 0 ∧
      (0x3FFA : U32).toNat % (2 : U32).toNat = 0 ∧
      ¬EmptyOrInside [s.cfg.asset, s.cfg.stage, s.cfg.fb, s.cfg.fillCell] (0x3FFA : U32).toNat
        (rangeLen true (4 : U32).toNat (2 : U32).toNat) ∧
      EmptyOrInside [s.cfg.asset, s.cfg.stage, s.cfg.fb, s.cfg.fillCell] (0x2000 : U32).toNat
        (rangeLen true (4 : U32).toNat (2 : U32).toNat) ∧
      ¬EmptyOrInside [s.cfg.stage, s.cfg.fb, s.cfg.display] (0x3FFFE : U32).toNat
        ((4 : U32).toNat * (2 : U32).toNat)) ∧
    ∃ s : State, (1 : U32).toNat < s.numCh ∧ (1 : U32).toNat ≠ scanCh ∧ (s.channel (1 : U32).toNat).remaining ≠ 0 :=
  ⟨⟨tiny, by decide⟩, ⟨channel1 { blit with remaining := 1 }, by decide⟩⟩
/-- A COPY whose source runs past `STAGE`: its second step, START's, records ACCESS with the source. -/
theorem test_copy_faults_in_start :
    after (core.run 2 ((tiny.issuing [.copy 1 0x3FFA 0x8000 4 2 0]).scheduled [.host, .host]))
      (fun t => t.fault == ⟨true, 0x10, 0x3FFA⟩ && t.pending == [] && (t.channel 1).configured) = true := by decide
theorem witness_StepKeepsChannelInvariant :
    ∃ s : State, s.cfg.wf ∧ ChannelsInv s ∧ ∃ t, step s = .next t ∧ (t.channel 1).remaining = 31 :=
  ⟨(channel1 blit).scheduled [.bte 1], by decide, by decide, exists_next _ (by decide)⟩
/-- A channel 1 just started with these registers meets the premises. -/
abbrev JustStarted (s : State) (ch : Channel) : Prop :=
  s.safe ∧ s.cfg.wf ∧ ch = s.channel 1 ∧ ChannelInv s.cfg ch ∧ ch.remaining = ch.count ∧ ch.rdPtr = ch.src ∧
    ch.wrPtr = ch.dst ∧ ch.count ≠ 0
/-- Both ranges of `ch` as a transfer to memory needs them. -/
abbrev ToMemory (s : State) (ch : Channel) : Prop :=
  Inside [s.cfg.stage, s.cfg.fb] ch.dst.toNat (rangeLen ch.incWr ch.count.toNat ch.esize.toNat) ∧
    ¬ShareByte ch.src.toNat (rangeLen ch.incRd ch.count.toNat ch.esize.toNat) ch.dst.toNat
      (rangeLen ch.incWr ch.count.toNat ch.esize.toNat)
/-- R203's three cases: a copy; three elements to the one last halfword of `FB`; and two to the display port. -/
theorem witness_TransferMovesEveryElement :
    (∃ (s : State) (ch : Channel), JustStarted s ch ∧ ToMemory s ch ∧ ch.incWr = true) ∧
    (∃ (s : State) (ch : Channel), JustStarted s ch ∧ ToMemory s ch ∧ ch.incWr = false) ∧
    ∃ (s : State) (ch : Channel), JustStarted s ch ∧
      Inside [s.cfg.display] ch.dst.toNat (rangeLen ch.incWr ch.count.toNat ch.esize.toNat) :=
  ⟨⟨channel1 blit, blit, by decide⟩,
    ⟨channel1 (startedChannel 0x2000 0x241FE 2 3 true false false), startedChannel 0x2000 0x241FE 2 3 true false false,
      by decide⟩,
    ⟨channel1 (startedChannel 0x2000 0x40000 2 2 true true false), startedChannel 0x2000 0x40000 2 2 true true false,
      by decide⟩⟩
/-- The last element stays where the destination does not increment, and two go out to the port. -/
theorem test_transfer_to_one_place :
    after (core.run 3 ({ channel1 (startedChannel 0x2000 0x8000 1 3 true false false) with
        mem := [(0x2000, 1), (0x2001, 2), (0x2002, 3)] }.scheduled [.bte 1, .bte 1, .bte 1]))
      (fun t => t.mem.byte 0x8000 == 3 && t.mem.byte 0x8001 == 0 && t.wire == []) = true := by decide
theorem witness_DisjointChannelsCommute :
    ∃ s : State, s.mem.wf ∧ 1 ≠ 2 ∧
      ¬ShareByte (s.writeAt 1) (s.elemSize 1) (s.writeAt 2) (s.elemSize 2) ∧
      ¬ShareByte (s.writeAt 1) (s.elemSize 1) (s.readAt 2) (s.elemSize 2) ∧
      ¬ShareByte (s.readAt 1) (s.elemSize 1) (s.writeAt 2) (s.elemSize 2) ∧
      ¬(inRegion s.cfg.display (s.writeAt 1) ∧ inRegion s.cfg.display (s.writeAt 2)) ∧
      (s.channel 1).remaining ≠ 0 ∧ (s.channel 2).remaining ≠ 0 :=
  ⟨{ channel1 blit with
      bte := [Channel.reset, blit, startedChannel 0x2002 0x8002 2 4 true true false], mem := [(0x2000, 1)] },
    by decide⟩
theorem witness_VsyncWaitSeesARisingEdge :
    (∃ s : State, s.safe ∧ s.turn = .host ∧ s.hostWait = .onVsync ∧ s.vsPhase = .needLow ∧ s.te = false) ∧
    (∃ s : State, s.safe ∧ s.turn = .host ∧ s.hostWait = .onVsync ∧ s.vsPhase = .needHigh ∧ s.te = true) ∧
    ∃ (f : Schedule) (p : Program) (s : State), s.safe ∧ HostInv s ∧ s.hostWait = .onVsync ∧ VsyncLive f p s :=
  ⟨⟨{ tiny with hostWait := .onVsync, vsPhase := .needLow }.scheduled [.host], by decide⟩,
    ⟨{ tiny with hostWait := .onVsync, vsPhase := .needHigh, te := true }.scheduled [.host], by decide⟩,
    ⟨inTurn, noCommands, waiting, by decide, by decide, rfl,
      quiet_live (by decide) rfl⟩⟩
theorem witness_ScanStartBeginsAFlush :
    (∃ s : State, s.cfg.wf ∧ scanCh < s.numCh ∧ (s.channel scanCh).remaining = 0) ∧
    ∃ s : State, s.cfg.wf ∧ scanCh < s.numCh ∧ (s.channel scanCh).remaining ≠ 0 :=
  ⟨⟨tiny, by decide⟩, ⟨flushing 1, by decide⟩⟩
theorem witness_FlushProgressReturnsTheOffset :
    (∃ s : State, s.scanStarted = false) ∧ ∃ s : State, s.scanStarted = true := ⟨⟨tiny, rfl⟩, ⟨flushing 1, rfl⟩⟩
/-- The step that sends the last pixel, and the step that starts a flush. -/
theorem witness_ProgressIsMonotone :
    (∃ s : State, s.cfg.wf ∧ ∃ t, step s = .next t ∧ t.flushOffset = 8 ∧ s.flushOffset = 7) ∧
    ∃ s : State, s.cfg.wf ∧ ∃ t, step s = .next t ∧ t.flushOffset = 0 ∧ s.flushOffset = 8 :=
  ⟨⟨(flushing 1).scheduled [.bte 0], by decide, exists_next _ (by decide)⟩,
    ⟨((flushing 0).issuing [.scanStart]).scheduled [.host], by decide, exists_next _ (by decide)⟩⟩
theorem witness_StepKeepsScanInvariant :
    ∃ s : State, s.cfg.wf ∧ ScanInv s ∧ ∃ t, step s = .next t ∧ (t.channel scanCh).remaining = 0 :=
  ⟨(flushing 1).scheduled [.bte 0], by decide, by decide, exists_next _ (by decide)⟩
theorem witness_FlushesBeginInScanStartOnly :
    ∃ s t : State, step s = .next t ∧ s.scanState = .idle ∧ t.scanState = .flushing :=
  ⟨(tiny.issuing [.scanStart]).scheduled [.host], exists_next _ (by decide)⟩
theorem witness_ScanCompositesExpand : fillCh < tiny.numCh ∧ scanCh < tiny.numCh := by decide
theorem witness_ClearFillsTheFramebuffer :
    ∃ s : State, s.safe ∧ s.cfg.wf ∧ fillCh < s.numCh ∧ (s.channel fillCh).remaining = 0 ∧ 0 < s.cfg.pixels :=
  ⟨tiny, by decide⟩
theorem witness_FlushSendsTheFramebuffer :
    ∃ s : State, s.safe ∧ s.cfg.wf ∧ scanCh < s.numCh ∧ (s.channel scanCh).remaining = 0 ∧ s.te = false :=
  ⟨tiny, by decide⟩
theorem witness_DrawEndStartsAFlushAfterTheEdge :
    ∃ s : State, s.safe ∧ s.cfg.wf ∧ scanCh < s.numCh ∧ (s.channel scanCh).remaining = 0 ∧ s.te = false ∧
      0 < s.cfg.pixels :=
  ⟨{ tiny with cfg := { mapB with width := 1, height := 1 } }, by decide⟩
/-- A flush whose first pixel is out, and a memory that differs in that pixel. -/
theorem witness_WritesBehindTheCursorAreNotSent :
    ∃ (s : State) (m : Memory), s.safe ∧ s.cfg.wf ∧ ScanInv s ∧
      (∀ x, (x < s.cfg.fbBase ∨ s.cfg.fbBase + 2 * s.flushOffset ≤ x) → m.byte x = s.mem.byte x) ∧ m ≠ s.mem := by
  refine ⟨flushing 7, [(0x8001, 0xFF)], by decide, by decide, by decide, ?_, by decide⟩
  intro x h
  have hx : 0x8001 ≠ x := by
    have hp : (flushing 7).flushOffset = 1 := by decide
    rw [hp] at h
    change x < 0x8000 ∨ 0x8000 + 2 * 1 ≤ x at h
    omega
  simp [Memory.byte, hx, flushing, tiny, State.resetWith]
theorem witness_StepKeepsMemoryForm :
    ∃ s : State, s.mem.wf ∧ ∃ t, step s = .next t ∧ t.mem ≠ s.mem :=
  ⟨reading .lit 4 3, by decide, exists_next _ (by decide)⟩
theorem tiny_inv (a : List Agent) : (tiny.scheduled a).Inv :=
  ⟨by show tiny.mem.wf; decide, by show ParamsInv tiny; decide, by show DecInv tiny; decide,
    by show ChannelsInv tiny; decide, by show ScanInv tiny; decide, by show HostInv tiny; decide,
    by show WireInv tiny; decide, by show FaultInv tiny; decide⟩
/-- An address of `ASSET`, and a step that changes a byte of `FB`. -/
theorem witness_OnlyWritableRegionsChange :
    (∃ s t : State, s.Inv ∧ step s = .next t ∧ inRegion s.cfg.asset 0x1FFF) ∧
    ∃ s t : State, s.Inv ∧ step s = .next t ∧ t.mem.byte 0x8000 ≠ s.mem.byte 0x8000 := by
  refine ⟨⟨_, _, tiny_inv [.env], rfl, by decide⟩, ?_⟩
  refine ⟨{ tiny with prog := encode (.hostWrite 0x8000 1 5), tape := [.host] }, ?_⟩
  obtain ⟨t, h, ht⟩ := exists_next (o := step { tiny with prog := encode (.hostWrite 0x8000 1 5), tape := [.host] })
    (fun t => t.mem.byte 0x8000 ≠ tiny.mem.byte 0x8000) (by decide)
  exact ⟨t, ⟨by decide, by decide, by decide, by decide, by decide, by decide, by decide, by decide⟩, h, ht⟩
theorem witness_StepKeepsHostInvariant :
    ∃ s : State, HostInv s ∧ ∃ t, step s = .next t ∧ t.hostWait = .onVsync :=
  ⟨(tiny.issuing [.vsyncWait]).scheduled [.host], by decide, exists_next _ (by decide)⟩
theorem witness_WireOnlyGrows :
    ∃ s : State, WireInv s ∧ ∃ t, step s = .next t ∧ t.wire = [0, 0] :=
  ⟨(flushing 8).scheduled [.bte 0], by decide, exists_next _ (by decide)⟩
theorem witness_ParametersAndFaultCodesStayLegal :
    ∃ s : State, FaultInv s ∧ ∃ t, step s = .next t ∧ t.fault.valid = true :=
  ⟨(tiny.issuing [.start 1]).scheduled [.host], by decide, exists_next _ (by decide)⟩

end Sys2Proof.Tests
end

/-! SUPPORT and the settled statements of the family 00_scope.md: the byte swap (O40), the parameters and the fault
codes (O60), and the turns of agents that have no enabled step (O10). -/

namespace Sys2Proof.Machine

/-! ## The byte swap, byte by byte (R13, R189) -/

theorem toNat_byteOf (v : U32) (k : Nat) : (byteOf v k).toNat = v.toNat / 256 ^ k % 256 := by
  rw [← ofNat_div_eq_byteOf, BitVec.toNat_ofNat]

/-- A 32-bit value is given by its four bytes. -/
theorem eq_of_byteOf_eq {v w : U32} (h : ∀ k < 4, byteOf v k = byteOf w k) : v = w := by
  have hbyte : ∀ k < 4, v.toNat / 256 ^ k % 256 = w.toNat / 256 ^ k % 256 := fun k hk => by
    rw [← toNat_byteOf, ← toNat_byteOf, h k hk]
  have h0 := hbyte 0 (by decide)
  have h1 := hbyte 1 (by decide)
  have h2 := hbyte 2 (by decide)
  have h3 := hbyte 3 (by decide)
  exact BitVec.eq_of_toNat_eq (by omega)

/-- A byte at or past the size of a value is 0. -/
theorem byteOf_eq_zero {v : U32} {n k : Nat} (hv : v.toNat < 256 ^ n) (hk : n ≤ k) : byteOf v k = 0 := by
  rw [← ofNat_div_eq_byteOf, Nat.div_eq_of_lt (hv.trans_le (Nat.pow_le_pow_right (by decide) hk))]
  rfl

/-- A byte put below a value. -/
theorem toNat_append_byte {n : Nat} (x : BitVec n) (b : Byte) : (x ++ b).toNat = 256 * x.toNat + b.toNat := by
  rw [BitVec.toNat_append, ← Nat.shiftLeft_add_eq_or_of_lt b.isLt, Nat.shiftLeft_eq]
  omega

theorem toNat_swap16 (w : U16) : (swap16 w).toNat = 256 * (w.toNat % 256) + w.toNat / 256 := by
  have hlow : (w &&& 0xFF#16).toNat = w.toNat % 256 := by
    rw [BitVec.toNat_and]; exact Nat.and_two_pow_sub_one_eq_mod w.toNat 8
  have hhigh : w.toNat / 2 ^ 8 < 2 ^ 8 := by omega
  rw [swap16, BitVec.toNat_or, BitVec.toNat_shiftLeft, BitVec.toNat_ushiftRight, hlow, Nat.shiftRight_eq_div_pow,
    Nat.mod_eq_of_lt (by rw [Nat.shiftLeft_eq]; omega), ← Nat.shiftLeft_add_eq_or_of_lt hhigh, Nat.shiftLeft_eq]
  omega

theorem byterev_one (v : U32) : byterev v 1 = v := rfl

theorem toNat_byterev_two (v : U32) : (byterev v 2).toNat = 256 * (byteOf v 0).toNat + (byteOf v 1).toNat := by
  have h : byterev v 2 = zext32 (swap16 (v.setWidth 16)) := rfl
  have h0 : v.toNat % 2 ^ 16 % 256 = (byteOf v 0).toNat := by rw [toNat_byteOf]; omega
  have h1 : v.toNat % 2 ^ 16 / 256 = (byteOf v 1).toNat := by rw [toNat_byteOf]; omega
  rw [h, zext32, BitVec.toNat_setWidth, toNat_swap16, BitVec.toNat_setWidth, h0, h1]
  exact Nat.mod_eq_of_lt (by omega)

theorem toNat_byterev_four (v : U32) :
    (byterev v 4).toNat =
      256 * (256 * (256 * (byteOf v 0).toNat + (byteOf v 1).toNat) + (byteOf v 2).toNat) + (byteOf v 3).toNat := by
  have h : byterev v 4 = byteOf v 0 ++ byteOf v 1 ++ byteOf v 2 ++ byteOf v 3 := rfl
  rw [h, toNat_append_byte, toNat_append_byte, toNat_append_byte]

/-- At size 2 the two low bytes change places. -/
theorem byteOf_byterev_two (v : U32) {k : Nat} (hk : k < 2) : byteOf (byterev v 2) k = byteOf v (1 - k) := by
  have h0 := (byteOf v 0).isLt
  have h1 := (byteOf v 1).isLt
  rw [← BitVec.toNat_inj, toNat_byteOf, toNat_byterev_two]
  interval_cases k <;> simp only [Nat.reduceSub] <;> omega

theorem byterev_two_lt (v : U32) : (byterev v 2).toNat < 256 ^ 2 := by
  rw [toNat_byterev_two]; omega

/-- At size 4 byte `k` becomes byte `3 - k`. -/
theorem byteOf_byterev_four (v : U32) {k : Nat} (hk : k < 4) : byteOf (byterev v 4) k = byteOf v (3 - k) := by
  have h0 := (byteOf v 0).isLt
  have h1 := (byteOf v 1).isLt
  have h2 := (byteOf v 2).isLt
  have h3 := (byteOf v 3).isLt
  rw [← BitVec.toNat_inj, toNat_byteOf, toNat_byterev_four]
  interval_cases k <;> simp only [Nat.reduceSub] <;> omega

theorem byterev_byterev_two {v : U32} (hv : v.toNat < 256 ^ 2) : byterev (byterev v 2) 2 = v := by
  refine eq_of_byteOf_eq fun k _ => ?_
  rcases Nat.lt_or_ge k 2 with hk | hk
  · rw [byteOf_byterev_two _ hk, byteOf_byterev_two _ (by omega), show 1 - (1 - k) = k by omega]
  · rw [byteOf_eq_zero (byterev_two_lt _) hk, byteOf_eq_zero hv hk]

theorem byterev_byterev_four (v : U32) : byterev (byterev v 4) 4 = v := by
  refine eq_of_byteOf_eq fun k hk => ?_
  rw [byteOf_byterev_four _ hk, byteOf_byterev_four _ (by omega), show 3 - (3 - k) = k by omega]

/-- Settles O40: the swap's bytes at each size, then the involution from them, byte by byte. -/
theorem byteSwapIsAnInvolution : Obligations.ByteSwapIsAnInvolution := by
  refine ⟨byterev_one, fun v => ⟨byteOf_byterev_two v (by decide), byteOf_byterev_two v (by decide)⟩,
    fun v _ hk => byteOf_byterev_four v hk, ?_⟩
  rintro v n (rfl | rfl | rfl) hv
  · exact byterev_one v
  · exact byterev_byterev_two hv
  · exact byterev_byterev_four v

/-! ## Inversions of the operations that take effect -/

theorem hdrOp_eq_ok {n : U16} {s t : State} (h : hdrOp n s = .ok t) :
    s.dec.ip.toNat < s.dec.inLen.toNat ∧ n.toNat ≤ s.dec.outLen.toNat ∧
      t = { s with dec := { s.dec with ip := s.dec.ip + 1, n := n, st := if n = 0 then .done else .ctrl } } := by
  unfold hdrOp at h
  split at h <;> [skip; split at h] <;> simp_all

theorem skipOp_eq_ok {r : Byte} {s t : State} (h : skipOp r s = .ok t) :
    s.dec.ip.toNat < s.dec.inLen.toNat ∧ s.dec.cur.toNat + r.toNat ≤ s.dec.n.toNat ∧
      ∃ d, d = { s.dec with ip := s.dec.ip + 1, cur := s.dec.cur + r.setWidth 17 } ∧
        t = { s with dec := { d with st := d.nextSt } } := by
  unfold skipOp at h
  split at h <;> [skip; split at h] <;> simp_all

theorem litrunOp_eq_ok {r d : Byte} {s t : State} (h : litrunOp r d s = .ok t) :
    s.dec.ip.toNat + 1 + d.toNat ≤ s.dec.inLen.toNat ∧ s.dec.cur.toNat + d.toNat + r.toNat ≤ s.dec.n.toNat ∧
      t = { s with dec := { s.dec with ip := s.dec.ip + 1, d := d, r := r, st := .lit } } := by
  unfold litrunOp at h
  split at h <;> [skip; split at h <;> [skip; split at h]] <;> simp_all

theorem decompressOp_eq_ok {inBase inLen outBase outLen : U32} {s t : State}
    (h : decompressOp inBase inLen outBase outLen s = .ok t) :
    decompressCheck s.cfg inBase inLen outBase outLen = none ∧
      t = { s with
        dec := { s.dec with
          inBase := inBase, inLen := inLen, outBase := outBase, outLen := outLen, ip := 0, cur := 0, st := .hdr }
        hostWait := .onDec } := by
  unfold decompressOp at h
  split at h <;> simp_all

theorem hostWriteOp_eq_ok {addr n v : U32} {s t : State} (h : hostWriteOp addr n v s = .ok t) :
    hostAccessCheck (hostWritable s.cfg) addr n = none ∧ t = s.store addr.toNat n.toNat v := by
  unfold hostWriteOp at h
  split at h <;> simp_all

theorem waitOp_eq_ok {c : U32} {s t : State} (h : waitOp c s = .ok t) :
    c.toNat < s.numCh ∧
      t = { s with hostWait := if (s.channel c.toNat).remaining = 0 then .none else .onCh c.toNat } := by
  unfold waitOp at h
  split at h <;> [skip; split at h] <;> simp_all

/-! ## Parameters and fault codes (R9, R20, R291) -/

/-- From `s` to `t` the parameters and the number of channels are the same, and a fault code of R291 stays one. -/
structure KeepsLegal (s t : State) : Prop where
  cfg : t.cfg = s.cfg
  numCh : t.numCh = s.numCh
  fault : FaultInv s → FaultInv t

theorem KeepsLegal.trans {s t u : State} (h : KeepsLegal s t) (k : KeepsLegal t u) : KeepsLegal s u :=
  ⟨k.cfg.trans h.cfg, k.numCh.trans h.numCh, k.fault ∘ h.fault⟩

/-- An operation that records no fault. -/
theorem KeepsLegal.of_fault_eq {s t : State} (cfg : t.cfg = s.cfg) (numCh : t.numCh = s.numCh)
    (fault : t.fault = s.fault) : KeepsLegal s t :=
  ⟨cfg, numCh, fun h => by rwa [FaultInv, fault]⟩

theorem Untouched.keepsLegal {s t : State} (h : Untouched s t) : KeepsLegal s t where
  cfg := h.cfg
  numCh := h.numCh
  fault hs := by
    rcases h.fault with hf | ⟨code, info, hf, hcode⟩
    · rwa [FaultInv, hf]
    · intro _; rwa [hf]

theorem setChannel_keepsLegal (s : State) (c : Nat) (ch : Channel) : KeepsLegal s (s.setChannel c ch) :=
  .of_fault_eq rfl (by simp) rfl

theorem store_keepsLegal (s : State) (a n : Nat) (v : U32) : KeepsLegal s (s.store a n v) :=
  .of_fault_eq (by simp) (by simp [State.numCh]) (by simp)

theorem literalOp_keepsLegal (v : U16) (s : State) : KeepsLegal s (literalOp v s) :=
  (store_keepsLegal s _ _ _).trans (.of_fault_eq rfl rfl rfl)

theorem repeatOp_keepsLegal (s : State) : KeepsLegal s (repeatOp s) :=
  (store_keepsLegal s _ _ _).trans (.of_fault_eq rfl rfl rfl)

theorem elementOp_keepsLegal (c : Nat) (s : State) : KeepsLegal s (elementOp c s) :=
  (store_keepsLegal s _ _ _).trans (setChannel_keepsLegal _ _ _)

theorem configureOp_keepsLegal {scan : Bool} {c src dst esize count opts : U32} {s t : State}
    (h : configureOp scan c src dst esize count opts s = .ok t) : KeepsLegal s t := by
  obtain ⟨_, rfl⟩ := configureOp_eq_ok h
  exact setChannel_keepsLegal _ _ _

theorem startOp_keepsLegal {scan : Bool} {c : U32} {s t : State} (h : startOp scan c s = .ok t) : KeepsLegal s t := by
  obtain ⟨_, rfl⟩ := startOp_eq_ok h
  exact setChannel_keepsLegal _ _ _

theorem scanStartOp_keepsLegal {s t : State} (h : scanStartOp s = .ok t) : KeepsLegal s t := by
  obtain ⟨u, v, hcfg, hstart, rfl⟩ := scanStartOp_eq_ok h
  exact ((configureOp_keepsLegal hcfg).trans (startOp_keepsLegal hstart)).trans (.of_fault_eq rfl rfl rfl)

theorem waitOp_keepsLegal {c : U32} {s t : State} (h : waitOp c s = .ok t) : KeepsLegal s t := by
  obtain ⟨_, rfl⟩ := waitOp_eq_ok h
  exact .of_fault_eq rfl rfl rfl

theorem vsyncWaitOp_keepsLegal {s t : State} (h : vsyncWaitOp s = .ok t) : KeepsLegal s t := by
  cases h
  exact .of_fault_eq rfl rfl rfl

theorem vsyncSample_keepsLegal (s : State) : KeepsLegal s (vsyncSample s) := by
  unfold vsyncSample
  split <;> [skip; split; split] <;> exact .of_fault_eq rfl rfl rfl

/-- No effect of a step changes the parameters, and the faults it records are those of R291. -/
theorem Effect.keepsLegal {a : Agent} {u t : State} (h : Effect a u t) : KeepsLegal u t := by
  cases h with
  | untouched h => exact h.keepsLegal
  | hdr _ _ h => obtain ⟨_, _, rfl⟩ := hdrOp_eq_ok h; exact .of_fault_eq rfl rfl rfl
  | skip _ _ h => obtain ⟨_, _, _, _, rfl⟩ := skipOp_eq_ok h; exact .of_fault_eq rfl rfl rfl
  | litrun _ _ h => obtain ⟨_, _, rfl⟩ := litrunOp_eq_ok h; exact .of_fault_eq rfl rfl rfl
  | literal => exact literalOp_keepsLegal _ _
  | repeated => exact repeatOp_keepsLegal _
  | decompress _ _ _ h => obtain ⟨_, rfl⟩ := decompressOp_eq_ok h; exact .of_fault_eq rfl rfl rfl
  | hostWrite _ _ h => obtain ⟨_, rfl⟩ := hostWriteOp_eq_ok h; exact store_keepsLegal _ _ _ _
  | configure _ _ h rest => exact (configureOp_keepsLegal h).trans rest.keepsLegal
  | start _ _ h => exact startOp_keepsLegal h
  | scanStart _ _ h => exact scanStartOp_keepsLegal h
  | wait _ _ h rest => exact (waitOp_keepsLegal h).trans rest.keepsLegal
  | vsyncWait _ _ h rest => exact (vsyncWaitOp_keepsLegal h).trans rest.keepsLegal
  | vsyncSample => exact vsyncSample_keepsLegal _
  | decompressReturns | waitReturns => exact .of_fault_eq rfl rfl rfl
  | element => exact elementOp_keepsLegal _ _

theorem step_keepsLegal {s t : State} (h : step s = .next t) : KeepsLegal s t := by
  obtain ⟨_, u, hu, _, _, heffect⟩ := step_cases h
  exact hu.keepsLegal.trans heffect.keepsLegal

/-- Settles O60, by the case analysis of what a step can do. -/
theorem parametersAndFaultCodesStayLegal : Obligations.ParametersAndFaultCodesStayLegal := by
  intro s t h
  have hkeeps := step_keepsLegal h
  exact ⟨hkeeps.cfg, hkeeps.numCh, hkeeps.fault⟩

/-! ## Turns of agents with no enabled step (R16, R300) -/

/-- A step of a machine that is not stopped is the step of the agent whose turn it is (R76). -/
theorem step_of_turn {s : State} {a : Agent} (hs : s.safe) (ha : s.turn = a) : step s = agentStep a s.passTurn := by
  obtain ⟨hfault, hrefused⟩ := hs
  simp [step, hfault, hrefused, ha]

/-- DEC fetches no word and does nothing while it is idle or done (R22). -/
theorem decStep_of_not_busy {s : State} (h : s.dec.st = .idle ∨ s.dec.st = .done) : decStep s = .next s := by
  rcases h with h | h <;> simp [decStep, State.streamEnded, State.decFetch, DecState.position, h]

/-- A channel with nothing remaining does nothing (R186). -/
theorem elementStep_of_not_running {s : State} {c : Nat} (h : (s.channel c).remaining = 0) : elementStep c s = s := by
  simp [elementStep, State.channelBusy, h]

theorem hostStep_of_onDec {s : State} (hw : s.hostWait = .onDec) (h : s.dec.st ≠ .done) : hostStep s = .next s := by
  simp [hostStep, hw, h]

theorem hostStep_of_onCh {s : State} {c : Nat} (hw : s.hostWait = .onCh c) (h : (s.channel c).remaining ≠ 0) :
    hostStep s = .next s := by
  simp only [hostStep, hw, if_neg h]

/-- A high sample before a low one leaves the vsync wait as it is (R223). -/
theorem hostStep_of_high_before_low {s : State} (hw : s.hostWait = .onVsync) (hp : s.vsPhase = .needLow)
    (ht : s.te = true) : hostStep s = .next s := by
  simp [hostStep, hw, vsyncSample, hp, ht]

/-- A low sample after the first leaves the vsync wait as it is (R223). -/
theorem hostStep_of_low_after_low {s : State} (hw : s.hostWait = .onVsync) (hp : s.vsPhase = .needHigh)
    (ht : s.te = false) : hostStep s = .next s := by
  simp [hostStep, hw, vsyncSample, hp, ht]

/-- HOST with no part of a composite left and no whole command in its program issues nothing. -/
theorem hostStep_of_nothing_to_issue {s : State} (hw : s.hostWait = .none) (hp : s.pending = [])
    (hd : decode .command s.prog = .truncated) : hostStep s = .next s := by
  have hfetch : s.hostFetch = .nothing := by simp [State.hostFetch, hp, hd]
  simp [hostStep, hw, hostIssue, hfetch]

/-- Settles O10: each turn is the blocked agent's step, which leaves the state with the turn used up as it is. -/
theorem blockedAgentsChangeNothing : Obligations.BlockedAgentsChangeNothing := by
  intro s hs
  refine ⟨fun ha hst => ?dec, fun c ha hrem => ?channel, fun ha hw hst => ?onDec, fun c ha hw hrem => ?onCh,
    fun ha hw hp ht => ?needLow, fun ha hw hp ht => ?needHigh, fun ha hw hp hd => ?free⟩ <;>
    rw [step_of_turn hs ha, agentStep]
  case dec => exact decStep_of_not_busy hst
  case channel => exact congrArg _ (elementStep_of_not_running hrem)
  case onDec => exact hostStep_of_onDec hw hst
  case onCh => exact hostStep_of_onCh hw hrem
  case needLow => exact hostStep_of_high_before_low hw hp ht
  case needHigh => exact hostStep_of_low_after_low hw hp ht
  case free => exact hostStep_of_nothing_to_issue hw hp hd

end Sys2Proof.Machine

/-! SUPPORT and the settled statements of the family 10_state.md: HOST's wait (O58), the wire log (O59), what HOST and
DEC fetch (O6, O7), and the state after reset (O15, O16). -/

namespace Sys2Proof.Machine

/-! ## What HOST waits for (R30, R32, R133, R141, R223) -/

/-- DEC is busy when it is neither idle nor done (R22, R25). -/
theorem decBusy_iff {s : State} : s.decBusy = true ↔ s.dec.st ≠ .idle ∧ s.dec.st ≠ .done := by
  cases hst : s.dec.st <;> simp [State.decBusy, hst]

theorem decBusy_eq_false_iff {s : State} : s.decBusy = false ↔ s.dec.st = .idle ∨ s.dec.st = .done := by
  cases hst : s.dec.st <;> simp [State.decBusy, hst]

/-- DEC is not busy while HOST is not blocked on it. -/
theorem HostInv.not_busy {s : State} (hs : HostInv s) (hw : s.hostWait ≠ .onDec) : s.decBusy = false := by
  obtain ⟨hbusy, _, _, _⟩ := hs
  exact Bool.eq_false_iff.mpr (hw ∘ hbusy)

/-- No vsync phase is active outside the vsync wait. -/
theorem HostInv.vsPhase_eq_none {s : State} (hs : HostInv s) (hw : s.hostWait ≠ .onVsync) : s.vsPhase = .none := by
  obtain ⟨_, _, hphase, _⟩ := hs
  exact not_not.mp (hw ∘ hphase.mpr)

/-- The invariant reads `dec.st`, `host.wait`, the vsync phase and the number of channels only. -/
theorem HostInv.of_eq {s t : State} (hs : HostInv s) (st : t.dec.st = s.dec.st) (wait : t.hostWait = s.hostWait)
    (phase : t.vsPhase = s.vsPhase) (numCh : t.numCh = s.numCh) : HostInv t := by
  simpa only [HostInv, decBusy_iff, st, wait, phase, numCh] using hs

theorem Untouched.hostInv {s t : State} (h : Untouched s t) (hs : HostInv s) : HostInv t :=
  hs.of_eq (by rw [h.dec]) h.hostWait h.vsPhase h.numCh

/-- A step of a busy DEC finds HOST blocked on it, and may take DEC anywhere but to IDLE (R133). -/
theorem HostInv.of_busy {s t : State} (hs : HostInv s) (busy : s.decBusy = true) (st : t.dec.st ≠ .idle)
    (wait : t.hostWait = s.hostWait) (phase : t.vsPhase = s.vsPhase) (numCh : t.numCh = s.numCh) : HostInv t := by
  obtain ⟨hbusy, _, hphase, hbelow⟩ := hs
  exact ⟨fun _ => wait.trans (hbusy busy), fun _ => st, by rwa [wait, phase], by rwa [wait, numCh]⟩

/-- While DEC is not busy HOST may be in any wait but the one on DEC, the vsync phase active in the vsync wait only. -/
theorem HostInv.of_not_busy {t : State} (busy : t.decBusy = false) (wait : t.hostWait ≠ .onDec)
    (phase : t.hostWait = .onVsync ↔ t.vsPhase ≠ .none) (below : t.hostWait.channelBelow t.numCh = true) : HostInv t :=
  ⟨fun h => absurd (h.symm.trans busy) nofun, fun h => absurd h wait, phase, below⟩

/-- HOST may be blocked on nothing while DEC is not busy and no vsync phase is active. -/
theorem HostInv.of_free {t : State} (busy : t.decBusy = false) (free : t.hostWait = .none) (phase : t.vsPhase = .none) :
    HostInv t :=
  .of_not_busy busy (by simp [free]) (by simp [free, phase]) (by simp [free, HostWait.channelBelow])

theorem nextSt_ne_idle (d : Dec) : d.nextSt ≠ .idle := by
  unfold Dec.nextSt
  split <;> nofun

/-- A literal leaves DEC done or in mid-stream (R138). -/
theorem literalOp_st_ne_idle (v : U16) (s : State) : (literalOp v s).dec.st ≠ .idle := by
  simp only [literalOp]
  split
  · split
    · exact nextSt_ne_idle _
    · nofun
  · nofun

/-- A repeat leaves DEC done or in mid-stream (R138). -/
theorem repeatOp_st_ne_idle (s : State) : (repeatOp s).dec.st ≠ .idle := by
  simp only [repeatOp]
  split
  · exact nextSt_ne_idle _
  · nofun

/-- WAIT blocks HOST on a channel that exists, or not at all (R187). -/
theorem waitOp_hostInv {c : U32} {s t : State} (hs : HostInv s) (free : s.hostWait = .none) (h : waitOp c s = .ok t) :
    HostInv t := by
  have busy := hs.not_busy (by simp [free])
  have phase := hs.vsPhase_eq_none (by simp [free])
  obtain ⟨hc, rfl⟩ := waitOp_eq_ok h
  by_cases hrem : (s.channel c.toNat).remaining = 0
  · exact .of_free busy (if_pos hrem) phase
  · simp only [if_neg hrem]
    exact .of_not_busy busy nofun (by simp [phase]) (decide_eq_true hc)

/-- VSYNC_WAIT blocks HOST and activates the vsync phase (R223). -/
theorem vsyncWaitOp_hostInv {s t : State} (hs : HostInv s) (free : s.hostWait = .none) (h : vsyncWaitOp s = .ok t) :
    HostInv t := by
  have busy := hs.not_busy (by simp [free])
  cases h
  exact .of_not_busy busy nofun (by simp) rfl

/-- A sample keeps HOST in the vsync wait with a phase active, or ends both (R223). -/
theorem vsyncSample_hostInv {s : State} (hs : HostInv s) (blocked : s.hostWait = .onVsync) :
    HostInv (vsyncSample s) := by
  have busy := hs.not_busy (by simp [blocked])
  unfold vsyncSample
  split
  · exact hs
  · split
    · exact hs
    · exact .of_not_busy busy (by simp [blocked]) (by simp [blocked]) (by simp [blocked, HostWait.channelBelow])
  · split
    · exact .of_free busy rfl rfl
    · exact hs

/-- DECOMPRESS makes DEC busy and blocks HOST on it (R133). -/
theorem decompressOp_hostInv {inBase inLen outBase outLen : U32} {s t : State} (hs : HostInv s)
    (free : s.hostWait = .none) (h : decompressOp inBase inLen outBase outLen s = .ok t) : HostInv t := by
  have phase := hs.vsPhase_eq_none (by simp [free])
  obtain ⟨_, rfl⟩ := decompressOp_eq_ok h
  exact ⟨fun _ => rfl, fun _ => nofun, by simp [phase], rfl⟩

/-- Every effect of a step keeps what HOST waits for: DEC's steps find HOST blocked on it, the commands find HOST free,
and a return finds its condition. -/
theorem Effect.hostInv {a : Agent} {u t : State} (h : Effect a u t) (hu : HostInv u) : HostInv t := by
  have numCh := h.keepsLegal.numCh
  cases h with
  | untouched h => exact h.hostInv hu
  | hdr _ st h =>
    obtain ⟨_, _, rfl⟩ := hdrOp_eq_ok h
    exact hu.of_busy (by simp [decBusy_iff, st]) (by simp only; split <;> nofun) rfl rfl numCh
  | skip _ st h =>
    obtain ⟨_, _, d, _, rfl⟩ := skipOp_eq_ok h
    exact hu.of_busy (by simp [decBusy_iff, st]) (nextSt_ne_idle d) rfl rfl numCh
  | litrun _ st h =>
    obtain ⟨_, _, rfl⟩ := litrunOp_eq_ok h
    exact hu.of_busy (by simp [decBusy_iff, st]) nofun rfl rfl numCh
  | literal _ st =>
    exact hu.of_busy (by simp [decBusy_iff, st]) (literalOp_st_ne_idle _ u) (by simp [literalOp]) (by simp [literalOp])
      numCh
  | repeated _ st =>
    exact hu.of_busy (by simp [decBusy_iff, st]) (repeatOp_st_ne_idle u) (by simp [repeatOp]) (by simp [repeatOp]) numCh
  | decompress _ free _ h => exact decompressOp_hostInv hu free h
  | hostWrite _ _ h =>
    obtain ⟨_, rfl⟩ := hostWriteOp_eq_ok h
    exact hu.of_eq (by simp) (by simp) (by simp) numCh
  | configure _ _ h rest =>
    obtain ⟨_, rfl⟩ := configureOp_eq_ok h
    exact rest.hostInv (hu.of_eq rfl rfl rfl (by simp))
  | start _ _ h =>
    obtain ⟨_, rfl⟩ := startOp_eq_ok h
    exact hu.of_eq rfl rfl rfl numCh
  | scanStart _ _ h =>
    obtain ⟨v, w, hcfg, hstart, rfl⟩ := scanStartOp_eq_ok h
    obtain ⟨_, rfl⟩ := configureOp_eq_ok hcfg
    obtain ⟨_, rfl⟩ := startOp_eq_ok hstart
    exact hu.of_eq rfl rfl rfl numCh
  | wait _ free h rest => exact rest.hostInv (waitOp_hostInv hu free h)
  | vsyncWait _ free h rest => exact rest.hostInv (vsyncWaitOp_hostInv hu free h)
  | vsyncSample _ blocked => exact vsyncSample_hostInv hu blocked
  | decompressReturns _ blocked done =>
    exact .of_free (decBusy_eq_false_iff.mpr (.inr done)) rfl (hu.vsPhase_eq_none (by simp [blocked]))
  | waitReturns _ blocked _ =>
    exact .of_free (hu.not_busy (by simp [blocked])) rfl (hu.vsPhase_eq_none (by simp [blocked]))
  | element => exact hu.of_eq (by simp [elementOp]) (by simp [elementOp]) (by simp [elementOp]) numCh

/-- Settles O58, by the case analysis of what a step can do. -/
theorem stepKeepsHostInvariant : Obligations.StepKeepsHostInvariant := by
  intro s t hs h
  obtain ⟨_, u, hu, _, _, heffect⟩ := step_cases h
  exact heffect.hostInv (hu.hostInv hs)

/-! ## The wire log (R33) -/

/-- From `s` to `t` the wire log and the flush marks are extended at their ends only, and the marks stay in order and
within the wire log. -/
structure WireGrows (s t : State) : Prop where
  wire : s.wire <+: t.wire
  marks : s.wireMarks <+: t.wireMarks
  inv : WireInv s → WireInv t

theorem WireGrows.trans {s t u : State} (h : WireGrows s t) (k : WireGrows t u) : WireGrows s u :=
  ⟨h.wire.trans k.wire, h.marks.trans k.marks, k.inv ∘ h.inv⟩

/-- An operation that marks no flush. -/
theorem WireGrows.of_marks_eq {s t : State} (wire : s.wire <+: t.wire) (marks : t.wireMarks = s.wireMarks) :
    WireGrows s t where
  wire := wire
  marks := ⟨[], by simp [marks]⟩
  inv hs := by
    obtain ⟨hsorted, hbound⟩ := hs
    exact ⟨marks ▸ hsorted, fun m hm => (hbound m (marks ▸ hm)).trans wire.length_le⟩

/-- An operation that sends nothing and marks no flush. -/
theorem WireGrows.of_eq {s t : State} (wire : t.wire = s.wire) (marks : t.wireMarks = s.wireMarks) : WireGrows s t :=
  .of_marks_eq ⟨[], by simp [wire]⟩ marks

/-- A mark of the wire log's present length is the largest so far (R225). -/
theorem WireGrows.of_mark {s t : State} (wire : t.wire = s.wire) (marks : t.wireMarks = s.wireMarks ++ [s.wire.length]) :
    WireGrows s t where
  wire := ⟨[], by simp [wire]⟩
  marks := ⟨_, marks.symm⟩
  inv hs := by
    obtain ⟨hsorted, hbound⟩ := hs
    rw [WireInv, wire, marks]
    refine ⟨List.pairwise_append.mpr ⟨hsorted, List.pairwise_singleton _ _, ?_⟩, ?_⟩
    · simpa using hbound
    · simpa [or_imp, forall_and] using hbound

theorem Untouched.wireGrows {s t : State} (h : Untouched s t) : WireGrows s t := .of_eq h.wire h.wireMarks

theorem store_wireGrows (s : State) (a n : Nat) (v : U32) : WireGrows s (s.store a n v) :=
  .of_marks_eq ⟨_, (s.store_wire a n v).symm⟩ (by simp)

theorem setChannel_wireGrows (s : State) (c : Nat) (ch : Channel) : WireGrows s (s.setChannel c ch) := .of_eq rfl rfl

theorem literalOp_wireGrows (v : U16) (s : State) : WireGrows s (literalOp v s) :=
  (store_wireGrows s _ _ _).trans (.of_eq rfl rfl)

theorem repeatOp_wireGrows (s : State) : WireGrows s (repeatOp s) :=
  (store_wireGrows s _ _ _).trans (.of_eq rfl rfl)

theorem elementOp_wireGrows (c : Nat) (s : State) : WireGrows s (elementOp c s) :=
  (store_wireGrows s _ _ _).trans (setChannel_wireGrows _ _ _)

theorem configureOp_wireGrows {scan : Bool} {c src dst esize count opts : U32} {s t : State}
    (h : configureOp scan c src dst esize count opts s = .ok t) : WireGrows s t := by
  obtain ⟨_, rfl⟩ := configureOp_eq_ok h
  exact setChannel_wireGrows _ _ _

theorem startOp_wireGrows {scan : Bool} {c : U32} {s t : State} (h : startOp scan c s = .ok t) : WireGrows s t := by
  obtain ⟨_, rfl⟩ := startOp_eq_ok h
  exact setChannel_wireGrows _ _ _

/-- SCAN_START alone marks a flush (R225). -/
theorem scanStartOp_wireGrows {s t : State} (h : scanStartOp s = .ok t) : WireGrows s t := by
  obtain ⟨u, v, hcfg, hstart, rfl⟩ := scanStartOp_eq_ok h
  exact ((configureOp_wireGrows hcfg).trans (startOp_wireGrows hstart)).trans (.of_mark rfl rfl)

theorem waitOp_wireGrows {c : U32} {s t : State} (h : waitOp c s = .ok t) : WireGrows s t := by
  obtain ⟨_, rfl⟩ := waitOp_eq_ok h
  exact .of_eq rfl rfl

theorem vsyncWaitOp_wireGrows {s t : State} (h : vsyncWaitOp s = .ok t) : WireGrows s t := by
  cases h
  exact .of_eq rfl rfl

theorem vsyncSample_wireGrows (s : State) : WireGrows s (vsyncSample s) := by
  unfold vsyncSample
  split <;> [skip; split; split] <;> exact .of_eq rfl rfl

/-- No effect of a step takes anything off the wire log or the marks. -/
theorem Effect.wireGrows {a : Agent} {u t : State} (h : Effect a u t) : WireGrows u t := by
  cases h with
  | untouched h => exact h.wireGrows
  | hdr _ _ h => obtain ⟨_, _, rfl⟩ := hdrOp_eq_ok h; exact .of_eq rfl rfl
  | skip _ _ h => obtain ⟨_, _, _, _, rfl⟩ := skipOp_eq_ok h; exact .of_eq rfl rfl
  | litrun _ _ h => obtain ⟨_, _, rfl⟩ := litrunOp_eq_ok h; exact .of_eq rfl rfl
  | literal => exact literalOp_wireGrows _ _
  | repeated => exact repeatOp_wireGrows _
  | decompress _ _ _ h => obtain ⟨_, rfl⟩ := decompressOp_eq_ok h; exact .of_eq rfl rfl
  | hostWrite _ _ h => obtain ⟨_, rfl⟩ := hostWriteOp_eq_ok h; exact store_wireGrows _ _ _ _
  | configure _ _ h rest => exact (configureOp_wireGrows h).trans rest.wireGrows
  | start _ _ h => exact startOp_wireGrows h
  | scanStart _ _ h => exact scanStartOp_wireGrows h
  | wait _ _ h rest => exact (waitOp_wireGrows h).trans rest.wireGrows
  | vsyncWait _ _ h rest => exact (vsyncWaitOp_wireGrows h).trans rest.wireGrows
  | vsyncSample => exact vsyncSample_wireGrows _
  | decompressReturns | waitReturns => exact .of_eq rfl rfl
  | element => exact elementOp_wireGrows _ _

theorem step_wireGrows {s t : State} (h : step s = .next t) : WireGrows s t := by
  obtain ⟨_, u, hu, _, _, heffect⟩ := step_cases h
  exact hu.wireGrows.trans heffect.wireGrows

/-- Settles O59, by the case analysis of what a step can do. -/
theorem wireOnlyGrows : Obligations.WireOnlyGrows := by
  intro s t hs h
  obtain ⟨⟨sent, hwire⟩, ⟨marks, hmarks⟩, hinv⟩ := step_wireGrows h
  exact ⟨hinv hs, ⟨sent, hwire.symm⟩, ⟨marks, hmarks.symm⟩⟩

/-! ## The instruction an agent fetches (R20, R23, R81, R106, R111, R119) -/

/-- HOST takes the next part of the composite command it is in (R119). -/
theorem hostFetch_of_pending {s : State} {i : Instr} {rest : List Instr} (hp : s.pending = i :: rest) :
    s.hostFetch = .command i { s with pending := rest } := by
  simp [State.hostFetch, hp]

/-- HOST in no composite command takes the next command of its program (R20, R111). -/
theorem hostFetch_of_prog {s : State} {i : Instr} {rest : List Byte} (hp : s.pending = [])
    (hd : decode .command s.prog = .ok i rest) : s.hostFetch = .command i { s with prog := rest } := by
  simp [State.hostFetch, hp, hd]

/-- HOST that is not blocked runs the command it fetches. -/
theorem hostStep_of_fetch {s t : State} {i : Instr} (hw : s.hostWait = .none) (hf : s.hostFetch = .command i t) :
    hostStep s = exec i t := by
  simp [hostStep, hw, hostIssue, hf]

/-- Settles O6: the step is HOST's, which runs what it fetches. -/
theorem hostStepRunsTheFetchedCommand : Obligations.HostStepRunsTheFetchedCommand := by
  intro s i hs ha hw
  rw [step_of_turn hs ha, agentStep]
  exact ⟨fun rest hp hd => hostStep_of_fetch hw (hostFetch_of_prog hp hd),
    fun rest hp => hostStep_of_fetch hw (hostFetch_of_pending hp)⟩

/-- The first fault is recorded as it is raised (R294). -/
theorem raise_of_no_fault {s : State} (h : s.fault.valid = false) (f : FaultCode) (info : U32) :
    s.raise f info = { s with fault := ⟨true, f.code, info⟩ } := by
  simp [State.raise, h]

/-- DEC misses a word exactly when it needs a header or control word and the index is at or past the stream's end
(R134, R135). -/
theorem streamEnded_iff {s : State} :
    s.streamEnded = true ↔ (s.dec.st = .hdr ∨ s.dec.st = .ctrl) ∧ s.dec.inLen.toNat ≤ s.dec.ip.toNat := by
  simp [State.streamEnded]

/-- A payload word is not checked against the stream's end (R138); a word inside the stream is not missing. -/
theorem streamEnded_eq_false {s : State} {p : Position} (hp : s.dec.st.position = some p)
    (h : p = .payload ∨ s.dec.ip.toNat < s.dec.inLen.toNat) : s.streamEnded = false := by
  rw [Bool.eq_false_iff, ne_eq, streamEnded_iff]
  rintro ⟨hst, hend⟩
  rcases h with rfl | hinside
  · rcases hst with hst | hst <;> simp [DecState.position, hst] at hp
  · omega

/-- DEC fetches the instruction that the two bytes at `in_base + 2*ip` are at its position (R23, R81, R106). -/
theorem decFetch_of_decode {s : State} {p : Position} {i : Instr} {rest : List Byte} (hp : s.dec.st.position = some p)
    (hd : decode p [s.mem.byte (s.dec.inAddr s.dec.ip.toNat), s.mem.byte (s.dec.inAddr s.dec.ip.toNat + 1)] =
      .ok i rest) : s.decFetch = some i := by
  simp [State.decFetch, hp, hd]

theorem decStep_of_stream_ended {s : State} (h : s.streamEnded = true) :
    decStep s = .next (s.raise .streamUnderrun s.dec.ip) := by
  simp [decStep, h]

theorem decStep_of_fetch {s : State} {i : Instr} (h : s.streamEnded = false) (hf : s.decFetch = some i) :
    decStep s = exec i s := by
  simp [decStep, h, hf]

/-- Settles O7: the step is DEC's, which records the missing word or runs what it fetches. -/
theorem decStepRunsTheFetchedWord : Obligations.DecStepRunsTheFetchedWord := by
  refine ⟨fun s hs ha hst hend => ?underrun, fun s p i hs ha hp hin hd => ?fetched⟩ <;>
    rw [step_of_turn hs ha, agentStep]
  case underrun =>
    obtain ⟨hfault, _⟩ := hs
    have hended : s.passTurn.streamEnded = true := streamEnded_iff.mpr ⟨hst, hend⟩
    rw [decStep_of_stream_ended hended, raise_of_no_fault (s := s.passTurn) hfault]
    rfl
  case fetched =>
    have hinside : s.passTurn.streamEnded = false := streamEnded_eq_false hp hin
    exact decStep_of_fetch hinside (decFetch_of_decode hp hd)

/-! ## The state after reset (R37, R64) -/

/-- After reset every channel's registers are those of `Channel.reset`, present or not. -/
@[simp] theorem channel_resetWith (k : Config) (n : Nat) (m : Memory) (te : Bool) (c : Nat) :
    (State.resetWith k n m te).channel c = Channel.reset := by
  by_cases hc : c < n <;> simp [State.channel, State.resetWith, List.getD_eq_getElem?_getD, hc]

/-- Settles O15, for every choice of what R37 leaves open. -/
theorem resetLeavesTheSpecifiedState : Obligations.ResetLeavesTheSpecifiedState := by
  refine ⟨⟨Config.mapA, 3, [], false, rfl⟩, fun k n m te => ⟨_, rfl, rfl, fun c => ?channel, rfl, ?scan, rfl, rfl, rfl,
    rfl, rfl, rfl, ?offset⟩⟩
  case channel => simp [Channel.reset]
  case scan => simp [State.scanState, State.channelBusy, Channel.reset]
  case offset => rfl

/-- A channel that is neither configured nor running promises nothing. -/
theorem channelInv_reset (k : Config) : ChannelInv k Channel.reset := by
  simp [ChannelInv, Channel.reset]

/-- Reset meets the invariants for every choice of what R37 leaves open that the spec admits. -/
theorem resetWith_inv {k : Config} {n : Nat} {m : Memory} (te : Bool) (hk : k.wf) (hn : 2 ≤ n) (hm : m.wf) :
    (State.resetWith k n m te).Inv where
  mem := hm
  params := ⟨hk, by simpa [State.numCh, State.resetWith] using hn⟩
  dec := by simp [DecInv, State.resetWith, Dec.reset]
  channels ch hch := by
    rw [List.eq_of_mem_replicate hch]
    exact channelInv_reset k
  scan := by simp [ScanInv, Channel.reset]
  host := .of_free rfl rfl rfl
  wire := by simp [WireInv, State.resetWith]
  fault := nofun

/-- The spec's example instantiation MAP-A satisfies the constraints of R64. -/
theorem mapA_wf : Config.mapA.wf := by decide

/-- Settles O16: the reset state is the one for MAP-A with three channels and no memory cell listed. -/
theorem resetMeetsTheInvariants : Obligations.ResetMeetsTheInvariants :=
  ⟨resetWith_inv false mapA_wf (by decide) (by decide), fun _ _ _ te hk hn hm => resetWith_inv te hk hn hm⟩

end Sys2Proof.Machine

/-! SUPPORT and the settled statements of the family 20_memory.md: the form of memory (O56), which bytes a step may
change (O57), and HOST's own accesses (O32, O33). -/

namespace Sys2Proof.Machine

/-! ## Regions and ranges (R64, R65) -/

/-- Two regions that share no byte have no address in common (R64). -/
theorem not_inRegion_of_apart {r t : Region} {x : Nat} (h : r.apart t) (hr : inRegion r x) : ¬inRegion t x := by
  rintro ⟨_, _⟩
  obtain ⟨_, _⟩ := hr
  rcases h with h | h | h | h <;> omega

/-- `ASSET` shares no byte with a region that HOST may write (R64, R65). -/
theorem asset_apart_of_wf {k : Config} (h : k.wf) {r : Region} (hr : r ∈ hostWritable k) : k.asset.apart r := by
  obtain ⟨_, hapart, _, _⟩ := h
  obtain ⟨hasset, _⟩ := List.pairwise_cons.mp hapart
  exact hasset r (List.mem_append_left [k.display] hr)

/-- The display port shares no byte with a region that HOST may write (R64, R65). -/
theorem apart_display_of_wf {k : Config} (h : k.wf) {r : Region} (hr : r ∈ hostWritable k) : r.apart k.display := by
  obtain ⟨_, hapart, _, _⟩ := h
  obtain ⟨_, hothers⟩ := List.pairwise_cons.mp hapart
  obtain ⟨_, _, hdisplay⟩ := List.pairwise_append (l₁ := hostWritable k) (l₂ := [k.display]) |>.mp hothers
  exact hdisplay r hr k.display (by simp)

theorem holds_one_iff {r : Region} {a : Nat} : holds r a 1 = true ↔ inRegion r a := by
  simp [holds, inRegion]

/-- A part of a range that is empty or inside a region is so too, in any larger list of regions. -/
theorem EmptyOrInside.part {rs ts : List Region} {a len b n : Nat} (h : EmptyOrInside rs a len) (sub : rs ⊆ ts)
    (first : a ≤ b) (last : b + n ≤ a + len) : EmptyOrInside ts b n := by
  rcases h with h | ⟨r, hr, hbase, hend⟩
  · exact .inl (by omega)
  · exact .inr ⟨r, sub hr, hbase.trans first, last.trans hend⟩

/-- A range of elements that is not empty holds its first element (R185). -/
theorem le_rangeLen (inc : Bool) {count : Nat} (esize : Nat) (h : count ≠ 0) : esize ≤ rangeLen inc count esize := by
  cases inc
  · simp [rangeLen, h]
  · simpa [rangeLen, h] using Nat.le_mul_of_pos_left esize (Nat.pos_of_ne_zero h)

/-! ## What a step does to memory (R60, R65) -/

/-- The places a step may store at: where HOST writes, access checked (R86); the slot at DEC's cursor, in a literal or
a repeat step (R138); the next element of a running channel (R186). -/
inductive MayStore (s : State) : Nat → Nat → Prop
  | host {addr n : U32} (checked : hostAccessCheck (hostWritable s.cfg) addr n = none) :
      MayStore s addr.toNat n.toNat
  | slot (st : s.dec.st = .lit ∨ s.dec.st = .rep) : MayStore s (s.dec.outAddr s.dec.cur.toNat) 2
  | element {c : Nat} (running : (s.channel c).remaining ≠ 0) : MayStore s (s.writeAt c) (s.elemSize c)

/-- The memories a step from `s` may leave: that of `s`, or that after one store at a place it may store at. -/
inductive MemoryAfter (s : State) : Memory → Prop
  | kept : MemoryAfter s s.mem
  | stored {a n : Nat} (v : U32) (place : MayStore s a n) : MemoryAfter s (s.store a n v).mem

theorem MemoryAfter.of_eq {s : State} {m : Memory} (h : m = s.mem) : MemoryAfter s m := h ▸ .kept

/-- The memory after a store depends on the memory before and on the parameters only. -/
theorem store_mem_congr {s u : State} (mem : u.mem = s.mem) (cfg : u.cfg = s.cfg) (a n : Nat) (v : U32) :
    (u.store a n v).mem = (s.store a n v).mem := by
  unfold State.store
  rw [cfg, mem]
  split <;> rfl

theorem Untouched.mayStore {s u : State} (h : Untouched s u) {a n : Nat} (place : MayStore u a n) : MayStore s a n := by
  cases place with
  | host checked => exact .host (h.cfg ▸ checked)
  | slot st => rw [h.dec] at st ⊢; exact .slot st
  | element running => rw [State.writeAt, State.elemSize, h.channel]; exact .element (h.channel _ ▸ running)

theorem Untouched.memoryAfter {s u : State} (h : Untouched s u) {m : Memory} (hm : MemoryAfter u m) :
    MemoryAfter s m := by
  cases hm with
  | kept => exact .of_eq h.mem
  | stored v place => rw [store_mem_congr h.mem h.cfg]; exact .stored v (h.mayStore place)

theorem configureOp_mem {scan : Bool} {c src dst esize count opts : U32} {s t : State}
    (h : configureOp scan c src dst esize count opts s = .ok t) : t.mem = s.mem := by
  obtain ⟨_, rfl⟩ := configureOp_eq_ok h
  rfl

theorem startOp_mem {scan : Bool} {c : U32} {s t : State} (h : startOp scan c s = .ok t) : t.mem = s.mem := by
  obtain ⟨_, rfl⟩ := startOp_eq_ok h
  rfl

theorem scanStartOp_mem {s t : State} (h : scanStartOp s = .ok t) : t.mem = s.mem := by
  obtain ⟨u, v, hcfg, hstart, rfl⟩ := scanStartOp_eq_ok h
  exact (startOp_mem hstart).trans (configureOp_mem hcfg)

theorem waitOp_mem {c : U32} {s t : State} (h : waitOp c s = .ok t) : t.mem = s.mem := by
  obtain ⟨_, rfl⟩ := waitOp_eq_ok h
  rfl

theorem vsyncWaitOp_mem {s t : State} (h : vsyncWaitOp s = .ok t) : t.mem = s.mem := by
  cases h
  rfl

theorem vsyncSample_mem (s : State) : (vsyncSample s).mem = s.mem := by
  unfold vsyncSample
  split <;> [skip; split; split] <;> rfl

/-- The literal and the repeat step, HOST_WRITE and the element step store once; nothing else writes memory. -/
theorem Effect.memoryAfter {a : Agent} {u t : State} (h : Effect a u t) : MemoryAfter u t.mem := by
  cases h with
  | untouched h => exact .of_eq h.mem
  | hdr _ _ h => obtain ⟨_, _, rfl⟩ := hdrOp_eq_ok h; exact .kept
  | skip _ _ h => obtain ⟨_, _, _, _, rfl⟩ := skipOp_eq_ok h; exact .kept
  | litrun _ _ h => obtain ⟨_, _, rfl⟩ := litrunOp_eq_ok h; exact .kept
  | literal _ st => exact .stored _ (.slot (.inl st))
  | repeated _ st => exact .stored _ (.slot (.inr st))
  | decompress _ _ _ h => obtain ⟨_, rfl⟩ := decompressOp_eq_ok h; exact .kept
  | hostWrite _ _ h => obtain ⟨checked, rfl⟩ := hostWriteOp_eq_ok h; exact .stored _ (.host checked)
  | configure _ _ h rest => exact .of_eq (rest.mem.trans (configureOp_mem h))
  | start _ _ h => exact .of_eq (startOp_mem h)
  | scanStart _ _ h => exact .of_eq (scanStartOp_mem h)
  | wait _ _ h rest => exact .of_eq (rest.mem.trans (waitOp_mem h))
  | vsyncWait _ _ h rest => exact .of_eq (rest.mem.trans (vsyncWaitOp_mem h))
  | vsyncSample => exact .of_eq (vsyncSample_mem u)
  | decompressReturns | waitReturns => exact .kept
  | element _ running => exact .stored _ (.element running)

theorem step_memoryAfter {s t : State} (h : step s = .next t) : MemoryAfter s t.mem := by
  obtain ⟨_, u, hu, _, _, heffect⟩ := step_cases h
  exact hu.memoryAfter heffect.memoryAfter

theorem MemoryAfter.wf {s : State} {m : Memory} (h : MemoryAfter s m) (hs : s.mem.wf) : m.wf := by
  cases h with
  | kept => exact hs
  | stored v _ => exact s.store_wf _ _ v hs

/-- Settles O56: a step stores at most once, and a store keeps the form. -/
theorem stepKeepsMemoryForm : Obligations.StepKeepsMemoryForm :=
  fun _ _ hs h => (step_memoryAfter h).wf hs

/-! ## Where a step stores under the invariants (R65, R143, R201) -/

/-- DEC has a slot left to write in its buffer while a literal or a repeat is to be written (R143). -/
theorem DecInv.cur_lt_outLen {s : State} (hs : DecInv s) (st : s.dec.st = .lit ∨ s.dec.st = .rep) :
    s.dec.cur.toNat < s.dec.outLen.toNat := by
  obtain ⟨_, _, _, hlit, hrep, _⟩ := hs
  rcases st with st | st
  · obtain ⟨_, _, _, _⟩ := hlit st; omega
  · obtain ⟨_, _, _, _⟩ := hrep st; omega

/-- The slot at the cursor lies where DEC may write (R65, R133). -/
theorem DecInv.slot_inside {s : State} (hs : DecInv s) (st : s.dec.st = .lit ∨ s.dec.st = .rep) :
    EmptyOrInside (decWritable s.cfg) (s.dec.outAddr s.dec.cur.toNat) 2 := by
  have hcur := hs.cur_lt_outLen st
  obtain ⟨hcheck, _⟩ := hs
  obtain ⟨_, _, _, hout, _⟩ :=
    (decompressCheck_eq_none ..).mp (hcheck (by rcases st with st | st <;> simp [st]))
  exact EmptyOrInside.part ((admitted_iff ..).mp hout) (List.Subset.refl _) (by simp [Dec.outAddr])
    (by simp only [Dec.outAddr]; omega)

/-- A channel that runs is one of the machine's. -/
theorem channel_mem_of_running {s : State} {c : Nat} (h : (s.channel c).remaining ≠ 0) : s.channel c ∈ s.bte := by
  by_cases hc : c < s.bte.length
  · simp [State.channel, hc]
  · simp [State.channel, hc, Channel.reset] at h

/-- The next element of a running channel is written where a channel may write (R65, R185). -/
theorem ChannelsInv.element_inside {s : State} (hs : ChannelsInv s) {c : Nat} (h : (s.channel c).remaining ≠ 0) :
    EmptyOrInside (bteWritable s.cfg) (s.writeAt c) (s.elemSize c) := by
  obtain ⟨_, _, hrun⟩ := hs _ (channel_mem_of_running h)
  obtain ⟨_, _, _, hwrite⟩ := hrun h
  have hfirst := le_rangeLen (s.channel c).incWr (s.channel c).esize.toNat
    (show (s.channel c).remaining.toNat ≠ 0 from fun h0 => h (BitVec.eq_of_toNat_eq h0))
  exact EmptyOrInside.part ((admitted_iff ..).mp hwrite) (List.Subset.refl _) le_rfl (Nat.add_le_add_left hfirst _)

/-- Every store of a step lies in the display port or where HOST may write, as all that DEC and the channels may write
does (R65). -/
theorem MayStore.inside {s : State} (hdec : DecInv s) (hbte : ChannelsInv s) {a n : Nat} (place : MayStore s a n) :
    EmptyOrInside (s.cfg.display :: hostWritable s.cfg) a n := by
  cases place with
  | host checked =>
    obtain ⟨_, _, hin⟩ := (hostAccessCheck_eq_none ..).mp checked
    exact EmptyOrInside.part ((admitted_iff ..).mp hin) (List.subset_cons_self ..) le_rfl le_rfl
  | slot st =>
    exact (hdec.slot_inside st).part (by simp [decWritable, hostWritable]) le_rfl le_rfl
  | element running =>
    exact (hbte.element_inside running).part (by simp [bteWritable, hostWritable]) le_rfl le_rfl

/-- A store into the display port changes no byte of memory (R68), and one into another region bytes of that region
only. -/
theorem inRegion_of_byte_store_ne {s : State} {rs : List Region} {a n x : Nat} {v : U32}
    (place : EmptyOrInside (s.cfg.display :: rs) a n) (h : (s.store a n v).mem.byte x ≠ s.mem.byte x) :
    ∃ r ∈ rs, inRegion r x := by
  rw [State.byte_store] at h
  split at h
  · next hin =>
    obtain ⟨hport, hfirst, hlast⟩ := hin
    rcases place with hn | ⟨r, hr, hbase, hend⟩
    · omega
    · rcases List.mem_cons.mp hr with rfl | hr
      · have hin : inRegion s.cfg.display a := ⟨hbase, by omega⟩
        simp [holds_one_iff.mpr hin] at hport
      · exact ⟨r, hr, by omega, by omega⟩
  · exact absurd rfl h

/-- A byte that a step may change is one HOST may write (R65). -/
theorem MemoryAfter.inRegion_of_byte_ne {s : State} {m : Memory} (h : MemoryAfter s m) (hdec : DecInv s)
    (hbte : ChannelsInv s) {x : Nat} (hx : m.byte x ≠ s.mem.byte x) : ∃ r ∈ hostWritable s.cfg, inRegion r x := by
  cases h with
  | kept => exact absurd rfl hx
  | stored _ place => exact inRegion_of_byte_store_ne (place.inside hdec hbte) hx

/-- Settles O57: a step stores in a writable region or the display port, and `ASSET` is apart from them. -/
theorem onlyWritableRegionsChange : Obligations.OnlyWritableRegionsChange := by
  intro s t x hs h
  have changed := (step_memoryAfter h).inRegion_of_byte_ne hs.dec hs.channels (x := x)
  refine ⟨fun hx => by simpa [hostWritable] using changed hx, fun hasset => ?_⟩
  by_contra hx
  obtain ⟨r, hr, hin⟩ := changed hx
  obtain ⟨hwf, _⟩ := hs.params
  exact not_inRegion_of_apart (asset_apart_of_wf hwf hr) hasset hin

/-! ## HOST's accesses (R86, R62, R65, R71, R113, R295) -/

theorem legalSize_iff {n : Nat} : legalSize n = true ↔ SizeOk n := by
  simp [legalSize, SizeOk, or_assoc]

theorem aligned_iff {a n : Nat} : aligned a n = true ↔ a % n = 0 := by
  simp [aligned]

theorem admitted_iff_inside {rs : List Region} {a n : Nat} (hn : SizeOk n) : admitted rs a n = true ↔ Inside rs a n := by
  have : n ≠ 0 := by rcases hn with rfl | rfl | rfl <;> decide
  simp [admitted_iff, this]

section
variable {rs : List Region} {addr n v : U32} {s : State}

theorem hostAccessCheck_pass (size : SizeOk n.toNat) (align : addr.toNat % n.toNat = 0)
    (inside : Inside rs addr.toNat n.toNat) : hostAccessCheck rs addr n = none :=
  (hostAccessCheck_eq_none ..).mpr ⟨legalSize_iff.mpr size, aligned_iff.mpr align, (admitted_iff_inside size).mpr inside⟩

theorem hostAccessCheck_size (size : ¬SizeOk n.toNat) :
    hostAccessCheck rs addr n = some (.raise .configInvalid addr) := by
  simp [hostAccessCheck, mt legalSize_iff.mp size]

theorem hostAccessCheck_misaligned (size : SizeOk n.toNat) (align : addr.toNat % n.toNat ≠ 0) :
    hostAccessCheck rs addr n = some (.raise .misaligned addr) := by
  simp [hostAccessCheck, legalSize_iff.mpr size, mt aligned_iff.mp align]

theorem hostAccessCheck_outside (size : SizeOk n.toNat) (align : addr.toNat % n.toNat = 0)
    (outside : ¬Inside rs addr.toNat n.toNat) : hostAccessCheck rs addr n = some (.raise .access addr) := by
  simp [hostAccessCheck, legalSize_iff.mpr size, aligned_iff.mpr align, mt (admitted_iff_inside size).mp outside]

theorem exec_hostRead_of_pass (h : hostAccessCheck (hostReadable s.cfg) addr n = none) :
    exec (.hostRead addr n) s = .next { s with ret := s.load addr.toNat n.toNat } := by
  simp [exec, execHostRead, hostReadOp, h]

theorem exec_hostRead_of_trap {e : Trap} (h : hostAccessCheck (hostReadable s.cfg) addr n = some e) :
    exec (.hostRead addr n) s = .next (s.trap e) := by
  simp [exec, execHostRead, hostReadOp, h]

theorem exec_hostWrite_of_pass (h : hostAccessCheck (hostWritable s.cfg) addr n = none) :
    exec (.hostWrite addr n v) s = .next (s.store addr.toNat n.toNat v) := by
  simp [exec, execHostWrite, hostWriteOp, h]

theorem exec_hostWrite_of_trap {e : Trap} (h : hostAccessCheck (hostWritable s.cfg) addr n = some e) :
    exec (.hostWrite addr n v) s = .next (s.trap e) := by
  simp [exec, execHostWrite, hostWriteOp, h]

/-- No access inside a region HOST may write starts in the display port (R64, R65). -/
theorem not_holds_display (hk : s.cfg.wf) (size : SizeOk n.toNat)
    (inside : Inside (hostWritable s.cfg) addr.toNat n.toNat) : holds s.cfg.display addr.toNat 1 = false := by
  obtain ⟨r, hr, hbase, hend⟩ := inside
  have hin : inRegion r addr.toNat := ⟨hbase, by omega⟩
  exact Bool.eq_false_iff.mpr fun h =>
    not_inRegion_of_apart (apart_display_of_wf hk hr) hin (holds_one_iff.mp h)

end

/-- Settles O33, check by check. -/
theorem hostWrite : Obligations.HostWrite := by
  intro addr n v s hk
  refine ⟨fun size align inside => ?_, fun size => ?_, fun size align => ?_, fun size align outside => ?_⟩
  · have memory := not_holds_display hk size inside
    exact ⟨_, exec_hostWrite_of_pass (hostAccessCheck_pass size align inside), s.store_writesOnly _ _ v memory,
      by rw [s.store_memory _ _ v memory]⟩
  · exact exec_hostWrite_of_trap (hostAccessCheck_size size)
  · exact exec_hostWrite_of_trap (hostAccessCheck_misaligned size align)
  · exact exec_hostWrite_of_trap (hostAccessCheck_outside size align outside)

/-- Settles O32, check by check. -/
theorem hostRead : Obligations.HostRead := by
  intro addr n s
  refine ⟨fun size align inside => ?_, fun size => ?_, fun size align => ?_, fun size align outside => ?_⟩
  · exact exec_hostRead_of_pass (hostAccessCheck_pass size align inside)
  · exact exec_hostRead_of_trap (hostAccessCheck_size size)
  · exact exec_hostRead_of_trap (hostAccessCheck_misaligned size align)
  · exact exec_hostRead_of_trap (hostAccessCheck_outside size align outside)

end Sys2Proof.Machine

/-! SUPPORT and the settled statements of the family 30_encoding.md: the decoder and the encoder (O1 to O5), the refusal
of an unknown command code (O8), and the composites of SCAN (O51). -/

namespace Sys2Proof

/-! ## Words and their bytes (R62, R102, R104) -/

@[simp] theorem word16_bytes (w : U16) : word16 (w.extractLsb' 0 8) (w.extractLsb' 8 8) = w :=
  BitVec.extractLsb'_append_extractLsb'

theorem low_word16 (lo hi : Byte) : (word16 lo hi).extractLsb' 0 8 = lo := BitVec.extractLsb'_append_eq_right

theorem high_word16 (lo hi : Byte) : (word16 lo hi).extractLsb' 8 8 = hi := BitVec.extractLsb'_append_eq_left

theorem bytes16_word16 (lo hi : Byte) : bytes16 (word16 lo hi) = [lo, hi] := by
  rw [bytes16, low_word16, high_word16]

@[simp] theorem word32_bytes (v : U32) :
    word32 (v.extractLsb' 0 8) (v.extractLsb' 8 8) (v.extractLsb' 16 8) (v.extractLsb' 24 8) = v := by
  have upper2 : v.extractLsb' 24 8 ++ v.extractLsb' 16 8 = v.extractLsb' 16 16 :=
    BitVec.extractLsb'_append_extractLsb'_eq_extractLsb' rfl
  have upper3 : v.extractLsb' 16 16 ++ v.extractLsb' 8 8 = v.extractLsb' 8 24 :=
    BitVec.extractLsb'_append_extractLsb'_eq_extractLsb' rfl
  rw [word32, upper2, upper3]
  exact BitVec.extractLsb'_append_extractLsb'

/-- A byte put below a value moves the value's bytes up by one place. -/
theorem extractLsb'_append_byte {n : Nat} (x : BitVec n) (b : Byte) (k : Nat) :
    (x ++ b).extractLsb' (k + 8) 8 = x.extractLsb' k 8 :=
  BitVec.extractLsb'_append_eq_of_le (by omega)

theorem bytes32_word32 (b0 b1 b2 b3 : Byte) : bytes32 (word32 b0 b1 b2 b3) = [b0, b1, b2, b3] := by
  have byte0 : (word32 b0 b1 b2 b3).extractLsb' 0 8 = b0 := BitVec.extractLsb'_append_eq_right
  have byte1 : (word32 b0 b1 b2 b3).extractLsb' 8 8 = b1 :=
    (extractLsb'_append_byte _ b0 0).trans BitVec.extractLsb'_append_eq_right
  have byte2 : (word32 b0 b1 b2 b3).extractLsb' 16 8 = b2 :=
    (extractLsb'_append_byte _ b0 8).trans <| (extractLsb'_append_byte _ b1 0).trans BitVec.extractLsb'_append_eq_right
  have byte3 : (word32 b0 b1 b2 b3).extractLsb' 24 8 = b3 :=
    (extractLsb'_append_byte _ b0 16).trans <| (extractLsb'_append_byte _ b1 8).trans BitVec.extractLsb'_append_eq_left
  rw [bytes32, byte0, byte1, byte2, byte3]

/-- A control word has `dataLength` as its low byte and `runLength` as its high byte (R102). -/
theorem ctrl_eq_word16 (d r : Byte) : ctrl d r = word16 d r := by
  have hword : (word16 d r).toNat = 256 * r.toNat + d.toNat := Machine.toNat_append_byte r d
  have hshift : r.toNat <<< 8 % 2 ^ 16 = r.toNat <<< 8 := Nat.mod_eq_of_lt (by rw [Nat.shiftLeft_eq]; omega)
  rw [← BitVec.toNat_inj, hword, ctrl, BitVec.toNat_or, BitVec.toNat_shiftLeft,
    BitVec.toNat_setWidth_of_le (by decide), BitVec.toNat_setWidth_of_le (by decide), hshift,
    ← Nat.shiftLeft_add_eq_or_of_lt d.isLt, Nat.shiftLeft_eq, Nat.mul_comm]

theorem ctrl_bytes (w : U16) : ctrl (w.extractLsb' 0 8) (w.extractLsb' 8 8) = w := by
  rw [ctrl_eq_word16, word16_bytes]

/-! ## Control words (R102, R106, R108, R122) -/

theorem decodeControl_of_low_zero {w : U16} (h : w.extractLsb' 0 8 = 0#8) :
    decodeControl w = .skip (w.extractLsb' 8 8) := if_pos ((Machine.low_byte_eq_zero w).mpr h)

theorem decodeControl_of_low_ne_zero {w : U16} (h : w.extractLsb' 0 8 ≠ 0#8) :
    decodeControl w = .litrun (w.extractLsb' 8 8) (w.extractLsb' 0 8) := if_neg (mt (Machine.low_byte_eq_zero w).mp h)

theorem decodeControl_ctrl_zero (r : Byte) : decodeControl (ctrl 0#8 r) = .skip r := by
  rw [ctrl_eq_word16, decodeControl_of_low_zero (low_word16 ..), high_word16]

theorem decodeControl_ctrl {d : Byte} (r : Byte) (h : d ≠ 0#8) : decodeControl (ctrl d r) = .litrun r d := by
  rw [ctrl_eq_word16, decodeControl_of_low_ne_zero (by rwa [low_word16]), low_word16, high_word16]

theorem encode_decodeControl (w : U16) : encode (decodeControl w) = bytes16 w := by
  by_cases h : w.extractLsb' 0 8 = 0#8
  · rw [decodeControl_of_low_zero h, encode, ← h, ctrl_bytes]
  · rw [decodeControl_of_low_ne_zero h, encode, ctrl_bytes]

/-! ## Reading what was written (R104, R111) -/

@[simp] theorem halfword_bytes16 (f : U16 → Instr) (w : U16) (rest : List Byte) :
    halfword f (bytes16 w ++ rest) = .ok (f w) rest := by
  simp [halfword, bytes16]

@[simp] theorem operand_bytes32 (k : U32 → List Byte → DecodeResult) (v : U32) (rest : List Byte) :
    operand k (bytes32 v ++ rest) = k v rest := by
  simp [operand, bytes32]

section
variable (a b c d e f : U32) (rest : List Byte)

@[simp] theorem operands1_bytes32 (g : U32 → Instr) : operands1 g (bytes32 a ++ rest) = .ok (g a) rest := by
  rw [operands1, operand_bytes32]

@[simp] theorem operands2_bytes32 (g : U32 → U32 → Instr) :
    operands2 g (bytes32 a ++ (bytes32 b ++ rest)) = .ok (g a b) rest := by
  rw [operands2, operand_bytes32, operands1_bytes32]

@[simp] theorem operands3_bytes32 (g : U32 → U32 → U32 → Instr) :
    operands3 g (bytes32 a ++ (bytes32 b ++ (bytes32 c ++ rest))) = .ok (g a b c) rest := by
  rw [operands3, operand_bytes32, operands2_bytes32]

@[simp] theorem operands4_bytes32 (g : U32 → U32 → U32 → U32 → Instr) :
    operands4 g (bytes32 a ++ (bytes32 b ++ (bytes32 c ++ (bytes32 d ++ rest)))) = .ok (g a b c d) rest := by
  rw [operands4, operand_bytes32, operands3_bytes32]

@[simp] theorem operands5_bytes32 (g : U32 → U32 → U32 → U32 → U32 → Instr) :
    operands5 g (bytes32 a ++ (bytes32 b ++ (bytes32 c ++ (bytes32 d ++ (bytes32 e ++ rest))))) =
      .ok (g a b c d e) rest := by
  rw [operands5, operand_bytes32, operands4_bytes32]

@[simp] theorem operands6_bytes32 (g : U32 → U32 → U32 → U32 → U32 → U32 → Instr) :
    operands6 g (bytes32 a ++ (bytes32 b ++ (bytes32 c ++ (bytes32 d ++ (bytes32 e ++ (bytes32 f ++ rest)))))) =
      .ok (g a b c d e f) rest := by
  rw [operands6, operand_bytes32, operands5_bytes32]

end

/-- Settles O3: the word is read off the stream whole, and a control word is told apart by its low byte. -/
theorem streamWordsDecodeByPosition : Obligations.StreamWordsDecodeByPosition := by
  intro w rest
  refine ⟨halfword_bytes16 .hdr w rest, halfword_bytes16 .pixel w rest, fun hlow => ?skip, fun hlow => ?litrun⟩ <;>
    rw [decode, halfword_bytes16]
  case skip => rw [decodeControl_of_low_zero hlow]
  case litrun => rw [decodeControl_of_low_ne_zero hlow]

/-- Settles O1, constructor by constructor: the position, and for a command its code, selects the reader, and the reader
takes each word of the encoding off the front. -/
theorem decodeInvertsEncode : Obligations.DecodeInvertsEncode := by
  intro i rest wf
  cases i with
  | hdr n => exact halfword_bytes16 .hdr n rest
  | pixel v => exact halfword_bytes16 .pixel v rest
  | skip r => exact (halfword_bytes16 decodeControl _ rest).trans (by rw [decodeControl_ctrl_zero])
  | litrun r d =>
    have hd : d ≠ 0#8 := by simpa [Instr.wellFormed] using wf
    exact (halfword_bytes16 decodeControl _ rest).trans (by rw [decodeControl_ctrl r hd])
  | vsyncWait | scanStart | flushProgress | drawBegin | drawEnd | flush | scanoutCfg => rfl
  | clear | start | wait | pollRemaining | hostRead | hostWrite | decompress | bulkRead | fill | configure | copy =>
    simp [Instr.position, encode, decode, decodeCommand]

/-! ## Writing what was read (R106, R108, R111) -/

/-- `i` is a well-formed instruction of position `p`, and `bs` are its bytes. -/
structure Encodes (p : Position) (i : Instr) (bs : List Byte) : Prop where
  position : i.position = p
  wellFormed : i.wellFormed = true
  bytes : encode i = bs

/-- Whatever instruction the reader `k` answers after the bytes `taken` have been read, `taken` and the bytes it reads
are the encoding of that instruction, followed by the bytes it leaves. -/
def Faithful (p : Position) (taken : List Byte) (k : List Byte → DecodeResult) : Prop :=
  ∀ bs i rest, k bs = .ok i rest → ∃ read, bs = read ++ rest ∧ Encodes p i (taken ++ read)

section
variable {p : Position} {taken : List Byte}

/-- A reader that takes no more bytes. -/
theorem faithful_plain {i : Instr} (h : Encodes p i taken) : Faithful p taken fun bs => .ok i bs := by
  rintro bs _ _ ⟨⟩
  exact ⟨[], rfl, by rwa [List.append_nil]⟩

/-- A reader that knows no code answers nothing. -/
theorem faithful_unknown (op : Byte) : Faithful p taken fun _ => .unknownOp op := nofun

/-- A choice by the code just read. -/
theorem faithful_ite {op c : Byte} {k l : List Byte → DecodeResult} (hk : Faithful p [c] k) (hl : Faithful p [op] l) :
    Faithful p [op] fun bs => if op = c then k bs else l bs := by
  by_cases h : op = c
  · subst h; simpa only [if_pos] using hk
  · simpa only [if_neg h] using hl

theorem halfword_faithful {g : U16 → Instr} (h : ∀ w, Encodes p (g w) (taken ++ bytes16 w)) :
    Faithful p taken (halfword g) := by
  intro bs i rest hk
  match bs with
  | [] | [_] => cases hk
  | lo :: hi :: bs =>
    cases hk
    exact ⟨[lo, hi], rfl, bytes16_word16 lo hi ▸ h _⟩

/-- A reader of one operand, when what it goes on with is faithful after that operand's bytes. -/
theorem operand_faithful {k : U32 → List Byte → DecodeResult} (h : ∀ v, Faithful p (taken ++ bytes32 v) (k v)) :
    Faithful p taken (operand k) := by
  intro bs i rest hk
  match bs with
  | [] | [_] | [_, _] | [_, _, _] => cases hk
  | b0 :: b1 :: b2 :: b3 :: bs =>
    obtain ⟨read, rfl, henc⟩ := h _ bs i rest hk
    refine ⟨[b0, b1, b2, b3] ++ read, rfl, ?_⟩
    rwa [bytes32_word32, List.append_assoc] at henc

theorem operands1_faithful {g : U32 → Instr} (h : ∀ a, Encodes p (g a) (taken ++ bytes32 a)) :
    Faithful p taken (operands1 g) := operand_faithful fun a => faithful_plain (h a)

theorem operands2_faithful {g : U32 → U32 → Instr} (h : ∀ a b, Encodes p (g a b) (taken ++ bytes32 a ++ bytes32 b)) :
    Faithful p taken (operands2 g) := operand_faithful fun a => operands1_faithful (h a)

theorem operands3_faithful {g : U32 → U32 → U32 → Instr}
    (h : ∀ a b c, Encodes p (g a b c) (taken ++ bytes32 a ++ bytes32 b ++ bytes32 c)) :
    Faithful p taken (operands3 g) := operand_faithful fun a => operands2_faithful (h a)

theorem operands4_faithful {g : U32 → U32 → U32 → U32 → Instr}
    (h : ∀ a b c d, Encodes p (g a b c d) (taken ++ bytes32 a ++ bytes32 b ++ bytes32 c ++ bytes32 d)) :
    Faithful p taken (operands4 g) := operand_faithful fun a => operands3_faithful (h a)

theorem operands5_faithful {g : U32 → U32 → U32 → U32 → U32 → Instr}
    (h : ∀ a b c d e, Encodes p (g a b c d e)
      (taken ++ bytes32 a ++ bytes32 b ++ bytes32 c ++ bytes32 d ++ bytes32 e)) :
    Faithful p taken (operands5 g) := operand_faithful fun a => operands4_faithful (h a)

theorem operands6_faithful {g : U32 → U32 → U32 → U32 → U32 → U32 → Instr}
    (h : ∀ a b c d e f, Encodes p (g a b c d e f)
      (taken ++ bytes32 a ++ bytes32 b ++ bytes32 c ++ bytes32 d ++ bytes32 e ++ bytes32 f)) :
    Faithful p taken (operands6 g) := operand_faithful fun a => operands5_faithful (h a)

end

/-- The table of R111, row by row: a command is read as one whose encoding begins with the code. -/
theorem decodeCommand_faithful (op : Byte) : Faithful .command [op] (decodeCommand op) := by
  unfold decodeCommand
  refine faithful_ite (operands2_faithful (g := .hostRead) fun _ _ => ⟨rfl, rfl, rfl⟩) ?_
  refine faithful_ite (operands3_faithful (g := .hostWrite) fun _ _ _ => ⟨rfl, rfl, rfl⟩) ?_
  refine faithful_ite (operands4_faithful (g := .decompress) fun _ _ _ _ => ⟨rfl, rfl, rfl⟩) ?_
  refine faithful_ite (operands6_faithful (g := .configure) fun _ _ _ _ _ _ => ⟨rfl, rfl, rfl⟩) ?_
  refine faithful_ite (operands1_faithful (g := .start) fun _ => ⟨rfl, rfl, rfl⟩) ?_
  refine faithful_ite (operands1_faithful (g := .wait) fun _ => ⟨rfl, rfl, rfl⟩) ?_
  refine faithful_ite (operands1_faithful (g := .pollRemaining) fun _ => ⟨rfl, rfl, rfl⟩) ?_
  refine faithful_ite (faithful_plain (i := .vsyncWait) ⟨rfl, rfl, rfl⟩) ?_
  refine faithful_ite (faithful_plain (i := .scanStart) ⟨rfl, rfl, rfl⟩) ?_
  refine faithful_ite (faithful_plain (i := .flushProgress) ⟨rfl, rfl, rfl⟩) ?_
  refine faithful_ite (halfword_faithful (g := .clear) fun _ => ⟨rfl, rfl, rfl⟩) ?_
  refine faithful_ite (faithful_plain (i := .drawBegin) ⟨rfl, rfl, rfl⟩) ?_
  refine faithful_ite (faithful_plain (i := .drawEnd) ⟨rfl, rfl, rfl⟩) ?_
  refine faithful_ite (faithful_plain (i := .flush) ⟨rfl, rfl, rfl⟩) ?_
  refine faithful_ite (operands5_faithful (g := .fill) fun _ _ _ _ _ => ⟨rfl, rfl, rfl⟩) ?_
  refine faithful_ite (operands6_faithful (g := .copy) fun _ _ _ _ _ _ => ⟨rfl, rfl, rfl⟩) ?_
  refine faithful_ite (operands4_faithful (g := .bulkRead) fun _ _ _ _ => ⟨rfl, rfl, rfl⟩) ?_
  refine faithful_ite (faithful_plain (i := .scanoutCfg) ⟨rfl, rfl, rfl⟩) ?_
  exact faithful_unknown op

/-- The decoder is faithful at every position. -/
theorem decode_faithful (p : Position) : Faithful p [] (decode p) := by
  cases p with
  | header => exact halfword_faithful fun _ => ⟨rfl, rfl, rfl⟩
  | payload => exact halfword_faithful fun _ => ⟨rfl, rfl, rfl⟩
  | control =>
    refine halfword_faithful fun w => ?_
    obtain ⟨position, wellFormed⟩ := Machine.decodeControl_wellFormed w
    exact ⟨position, wellFormed, encode_decodeControl w⟩
  | command =>
    intro bs i rest h
    match bs with
    | [] => cases h
    | op :: bs =>
      obtain ⟨read, rfl, henc⟩ := decodeCommand_faithful op bs i rest h
      exact ⟨op :: read, rfl, henc⟩

/-- Settles O2: the decoder is faithful. -/
theorem encodeInvertsDecode : Obligations.EncodeInvertsDecode := by
  intro p bs i rest h
  obtain ⟨read, rfl, position, wellFormed, hbytes⟩ := decode_faithful p bs i rest h
  exact ⟨position, wellFormed, by rw [hbytes, List.nil_append]⟩

/-! ## Encodings written out (R102, R104, R111, R121) -/

/-- Settles O4, by evaluation: the statement is about the fixed values of R121. -/
theorem workedEncodings : Obligations.WorkedEncodings := by
  refine ⟨rfl, rfl, rfl, rfl, rfl, ?listing, ?memory⟩
  case listing => decide
  case memory => decide

/-- Settles O5, by evaluation: the statement is about fixed bytes. -/
theorem writtenWordsDecode : Obligations.WrittenWordsDecode := by
  unfold Obligations.WrittenWordsDecode
  decide

end Sys2Proof

namespace Sys2Proof.Machine

/-! ## A command code outside the table (R111, R299) -/

/-- HOST in no composite command finds a code outside the table at the front of its program. -/
theorem hostFetch_of_unknown {s : State} {op : Byte} (hp : s.pending = [])
    (hd : decode .command s.prog = .unknownOp op) : s.hostFetch = .unknown { s with prog := s.prog.tail } := by
  simp [State.hostFetch, hp, hd]

/-- HOST that is not blocked refuses a code outside the table (R299). -/
theorem hostStep_of_unknown {s t : State} (hw : s.hostWait = .none) (hf : s.hostFetch = .unknown t) :
    hostStep s = .next t.refuse := by
  simp [hostStep, hw, hostIssue, hf]

/-- Settles O8: the step is HOST's, which finds the unknown code and refuses it. -/
theorem unknownCommandIsRefused : Obligations.UnknownCommandIsRefused := by
  intro s op hs ha hw hp hd
  rw [step_of_turn hs ha, agentStep]
  exact hostStep_of_unknown (s := s.passTurn) hw (hostFetch_of_unknown hp hd)

/-! ## The composites of SCAN (R119, R228 to R232) -/

/-- WAIT on a channel of the machine returns at once when nothing remains, and blocks HOST otherwise (R187). -/
theorem waitOp_of_channel {c : U32} {s : State} (hc : c.toNat < s.numCh) :
    waitOp c s = .ok { s with
      hostWait := if (s.channel c.toNat).remaining = 0 then .none else .onCh c.toNat } := by
  rw [waitOp, if_neg (by omega)]
  split <;> rfl

/-- Settles O51: CLEAR and DRAW_BEGIN begin with a WAIT, DRAW_END and FLUSH with a VSYNC_WAIT. -/
theorem scanCompositesExpand : Obligations.ScanCompositesExpand := by
  intro s
  refine ⟨fun color hc => ?clear, fun hc => ?drawBegin, rfl, rfl⟩
  case clear =>
    have hwait := waitOp_of_channel (c := BitVec.ofNat 32 fillCh) hc
    simp only [exec, execClear, hwait]
    rfl
  case drawBegin =>
    have hwait := waitOp_of_channel (c := BitVec.ofNat 32 scanCh) hc
    simp only [exec, execDrawBegin, hwait]
    rfl

end Sys2Proof.Machine

/-! SUPPORT and the settled statements of the family 40_codec_decompress.md: the function Decompress and the round trip
(O26, O27, O28), DECOMPRESS and the steps of DEC (O17 to O22), the invariant of a decompression (O24), its return (O23),
and the refinement of Decompress by DEC's steps (O25). -/

namespace Sys2Proof.Machine

/-! ## Writing over a buffer (R137) -/

section
variable {α : Type} (xs : List α) (j : Nat)

@[simp] theorem length_overwrite (vs : List α) : (overwrite xs j vs).length = xs.length := by
  simp only [overwrite, List.length_append, List.length_take, List.length_drop]
  omega

@[simp] theorem overwrite_nil : overwrite xs j [] = xs := by
  simp [overwrite]

/-- From the end of what was written on, the buffer is as it was. -/
theorem getElem?_overwrite_of_le {vs : List α} {i : Nat} (h : j + vs.length ≤ i) :
    (overwrite xs j vs)[i]? = xs[i]? := by
  by_cases hj : j ≤ xs.length
  · rw [overwrite, List.getElem?_append_right (by simp; omega), List.getElem?_drop]
    simp only [List.length_append, List.length_take]
    by_cases hi : i < xs.length
    · congr 1; omega
    · rw [List.getElem?_eq_none (by omega), List.getElem?_eq_none (by omega)]
  · rw [List.getElem?_eq_none (by simp; omega), List.getElem?_eq_none (by omega)]

variable {xs j}

/-- Writing a list of values is writing its first value and then the others behind it. -/
theorem overwrite_cons (v : α) (vs : List α) (h : j < xs.length) :
    overwrite xs j (v :: vs) = overwrite (xs.set j v) (j + 1) vs := by
  have hspace : xs.length - j = xs.length - (j + 1) + 1 := by omega
  have hbefore : (xs.set j v).take (j + 1) = xs.take j ++ [v] := by
    rw [List.take_succ_eq_append_getElem (by simpa), List.take_set_of_le le_rfl, List.getElem_set_self]
  have hbehind : (xs.set j v).drop (j + 1 + vs.length) = xs.drop (j + (vs.length + 1)) := by
    rw [List.drop_set_of_lt (by omega), Nat.add_right_comm, Nat.add_assoc]
  rw [overwrite, overwrite, hbefore, hbehind, hspace, List.length_set, List.take_succ_cons, List.length_cons]
  simp

theorem overwrite_append (vs ws : List α) (h : j + vs.length ≤ xs.length) :
    overwrite xs j (vs ++ ws) = overwrite (overwrite xs j vs) (j + vs.length) ws := by
  induction vs generalizing xs j with
  | nil => simp
  | cons v vs ih =>
    rw [List.length_cons] at h
    rw [List.cons_append, overwrite_cons _ _ (by omega), overwrite_cons _ _ (by omega), ih (by simp; omega),
      List.length_cons, Nat.add_right_comm, Nat.add_assoc]

theorem take_overwrite_zero (vs : List α) (h : vs.length ≤ xs.length) : (overwrite xs 0 vs).take vs.length = vs := by
  simp [overwrite, List.take_of_length_le h]

end

@[simp] theorem length_recordSlots (lits : List U16) (r : Nat) : (recordSlots lits r).length = lits.length + r := by
  simp [recordSlots]

/-! ## The record loop of Decompress, case by case (R132) -/

section
variable {S : List U16} {n fuel ip cur : Nat} {O : List U16}

/-- The loop ends when the cursor has reached N (R139). -/
theorem decompressLoop_done (h : n ≤ cur) : decompressLoop S n fuel ip cur O = .ok O := by
  cases fuel <;> simp [decompressLoop, h]

theorem decompressLoop_ended (h : cur < n) (hS : S.length ≤ ip) :
    decompressLoop S n fuel ip cur O = .error (.streamUnderrun, BitVec.ofNat 32 ip) := by
  cases fuel <;> simp [decompressLoop, h.not_ge, hS]

theorem decompressLoop_skip {r : Nat} (h : cur < n) (hS : ip < S.length)
    (hd : (ctrlDataLength (S.getD ip 0)).toNat = 0) (hr : (ctrlRunLength (S.getD ip 0)).toNat = r) :
    decompressLoop S n (fuel + 1) ip cur O =
      if n < cur + r then .error (.outputOverrun, BitVec.ofNat 32 ip)
      else decompressLoop S n fuel (ip + 1) (cur + r) O := by
  subst hr
  rw [decompressLoop, if_neg h.not_ge, if_neg hS.not_ge]
  simp only [hd, if_true]

theorem decompressLoop_litrun {d r : Nat} (h : cur < n) (hS : ip < S.length)
    (hd : (ctrlDataLength (S.getD ip 0)).toNat = d) (hd0 : d ≠ 0) (hr : (ctrlRunLength (S.getD ip 0)).toNat = r) :
    decompressLoop S n (fuel + 1) ip cur O =
      if S.length < ip + 1 + d then .error (.streamUnderrun, BitVec.ofNat 32 S.length)
      else if n < cur + d + r then .error (.outputOverrun, BitVec.ofNat 32 ip)
      else decompressLoop S n fuel (ip + 1 + d) (cur + d + r)
        (overwrite O cur (recordSlots ((S.drop (ip + 1)).take d) r)) := by
  subst hd hr
  rw [decompressLoop, if_neg h.not_ge, if_neg hS.not_ge]
  simp only [if_neg hd0]

/-- What the loop gives keeps the buffer's length and every slot from N on (R144). -/
theorem decompressLoop_keeps_tail {O' : List U16} (h : decompressLoop S n fuel ip cur O = .ok O') :
    O'.length = O.length ∧ ∀ j, n ≤ j → O'[j]? = O[j]? := by
  fun_induction decompressLoop S n fuel ip cur O with
  | case1 | case3 => cases h; exact ⟨rfl, fun _ _ => rfl⟩
  | case2 | case4 | case5 | case7 | case8 => cases h
  | case6 _ _ _ _ _ _ _ _ _ _ _ ih => exact ih h
  | case9 _ _ cur O _ hS w d r _ hpayload hover ih =>
    obtain ⟨hlen, htail⟩ := ih h
    refine ⟨hlen.trans (length_overwrite ..), fun j hj => (htail j hj).trans (getElem?_overwrite_of_le _ _ ?_)⟩
    simp only [length_recordSlots, List.length_take]
    omega

theorem wellFormedRecords_reached (h : cur = n) : wellFormedRecords S n fuel ip cur = true := by
  cases fuel <;> simp [wellFormedRecords, h]

theorem wellFormedRecords_ended (h : cur < n) (hS : S.length ≤ ip) : wellFormedRecords S n fuel ip cur = false := by
  cases fuel <;> simp [wellFormedRecords, h.not_ge, h.ne, hS]

theorem wellFormedRecords_skip {r : Nat} (h : cur < n) (hS : ip < S.length)
    (hd : (ctrlDataLength (S.getD ip 0)).toNat = 0) (hr : (ctrlRunLength (S.getD ip 0)).toNat = r) :
    wellFormedRecords S n (fuel + 1) ip cur =
      if n < cur + r then false else wellFormedRecords S n fuel (ip + 1) (cur + r) := by
  subst hr
  rw [wellFormedRecords, if_neg h.not_ge, if_neg hS.not_ge]
  simp only [hd, if_true]
  split
  · rw [decide_eq_false (by omega), Bool.false_and]
  · rw [decide_eq_true (by omega), Bool.true_and]

theorem wellFormedRecords_litrun {d r : Nat} (h : cur < n) (hS : ip < S.length)
    (hd : (ctrlDataLength (S.getD ip 0)).toNat = d) (hd0 : d ≠ 0) (hr : (ctrlRunLength (S.getD ip 0)).toNat = r) :
    wellFormedRecords S n (fuel + 1) ip cur =
      if S.length < ip + 1 + d then false
      else if n < cur + d + r then false
      else wellFormedRecords S n fuel (ip + 1 + d) (cur + d + r) := by
  subst hd hr
  rw [wellFormedRecords, if_neg h.not_ge, if_neg hS.not_ge]
  simp only [if_neg hd0]
  split
  · rw [decide_eq_false (by omega), Bool.false_and, Bool.false_and]
  · rw [decide_eq_true (by omega), Bool.true_and]
    split
    · rw [decide_eq_false (by omega), Bool.false_and]
    · rw [decide_eq_true (by omega), Bool.true_and]

/-- The records are well-formed exactly when the loop raises no fault on them, from a cursor not past N and with fuel
for the words left (R131). -/
theorem wellFormedRecords_iff (h : cur ≤ n) (hfuel : S.length ≤ ip + fuel) :
    wellFormedRecords S n fuel ip cur = true ↔ ∃ O', decompressLoop S n fuel ip cur O = .ok O' := by
  induction fuel generalizing ip cur O with
  | zero =>
    have hS : S.length ≤ ip := hfuel
    rcases h.eq_or_lt with h | h
    · simp [wellFormedRecords_reached h, decompressLoop_done h.ge]
    · simp [wellFormedRecords_ended h hS, decompressLoop_ended h hS]
  | succ fuel ih =>
    rcases h.eq_or_lt with h | h
    · simp [wellFormedRecords_reached h, decompressLoop_done h.ge]
    rcases Nat.lt_or_ge ip S.length with hS | hS
    · by_cases hd : (ctrlDataLength (S.getD ip 0)).toNat = 0
      · rw [wellFormedRecords_skip h hS hd rfl, decompressLoop_skip h hS hd rfl]
        split
        · simp
        · exact ih (by omega) (by omega)
      · rw [wellFormedRecords_litrun h hS rfl hd rfl, decompressLoop_litrun h hS rfl hd rfl]
        split
        · simp
        · split
          · simp
          · exact ih (by omega) (by omega)
    · simp [wellFormedRecords_ended h hS, decompressLoop_ended h hS]

end

/-- Settles O26: every record is written below N. -/
theorem decompressKeepsTheTail : Obligations.DecompressKeepsTheTail := by
  intro S O O' h
  unfold decompressRef at h
  split at h
  · cases h
  · split at h
    · cases h
    · exact decompressLoop_keeps_tail h

/-- Settles O27: the header and the records are checked alike. -/
theorem wellFormedExactlyWhenNoFault : Obligations.WellFormedExactlyWhenNoFault := by
  intro S O
  match S with
  | [] => simp [wellFormedStream, decompressRef]
  | n :: S =>
    rw [wellFormedStream, decompressRef]
    by_cases hn : n.toNat ≤ O.length
    · rw [decide_eq_true hn, Bool.true_and, if_neg hn.not_gt]
      exact wellFormedRecords_iff (Nat.zero_le _) (Nat.le_add_left ..)
    · rw [decide_eq_false hn, Bool.false_and, if_pos (not_le.mp hn)]
      simp

/-! ## What Compress writes, and the round trip (R145, R162 to R165) -/

/-- A record the encoder may emit (R163, R164): 1 to `DLEN_MAX` literals, and at most `RLEN_MAX` repeats. -/
structure EncRecord where
  lits : List U16
  reps : Nat
  lits_ne : lits ≠ []
  lits_le : lits.length ≤ dlenMax
  reps_le : reps ≤ rlenMax

/-- The words of a record: its control word, then its literals (R162). -/
def EncRecord.words (e : EncRecord) : List U16 :=
  ctrl (BitVec.ofNat 8 e.lits.length) (BitVec.ofNat 8 e.reps) :: e.lits

/-- The pixels a record stands for (R137). -/
def EncRecord.pixels (e : EncRecord) : List U16 := recordSlots e.lits e.reps

theorem EncRecord.length_words (e : EncRecord) : e.words.length = 1 + e.lits.length := by
  simp [words, Nat.add_comm]

theorem EncRecord.length_pixels (e : EncRecord) : e.pixels.length = e.lits.length + e.reps := by
  simp [pixels]

theorem EncRecord.length_lits_pos (e : EncRecord) : 0 < e.lits.length := List.length_pos_iff.mpr e.lits_ne

theorem EncRecord.dataLength (e : EncRecord) :
    (ctrlDataLength (ctrl (BitVec.ofNat 8 e.lits.length) (BitVec.ofNat 8 e.reps))).toNat = e.lits.length := by
  rw [ctrlDataLength, ctrl_eq_word16, low_word16]
  exact Nat.mod_eq_of_lt (Nat.lt_succ_of_le e.lits_le)

theorem EncRecord.runLength (e : EncRecord) :
    (ctrlRunLength (ctrl (BitVec.ofNat 8 e.lits.length) (BitVec.ofNat 8 e.reps))).toNat = e.reps := by
  rw [ctrlRunLength, ctrl_eq_word16, high_word16]
  exact Nat.mod_eq_of_lt (Nat.lt_succ_of_le e.reps_le)

/-- The encoder has written the header and the records `rs`, and they and its pending run stand for the pixels `X`
(R162). -/
structure EncoderInv (n : U16) (X : List U16) (e : Encoder) (rs : List EncRecord) : Prop where
  out : e.out = n :: rs.flatMap EncRecord.words
  pixels : X = rs.flatMap EncRecord.pixels ++ recordSlots e.lit e.rep
  lit_le : e.lit.length ≤ dlenMax
  rep_le : e.rep ≤ rlenMax
  rep_of_nil : e.lit = [] → e.rep = 0

@[simp] theorem recordSlots_zero (lits : List U16) : recordSlots lits 0 = lits := by
  simp [recordSlots]

theorem recordSlots_of_getLast? {lits : List U16} {last : U16} (h : lits.getLast? = some last) (r : Nat) :
    recordSlots lits r = lits ++ List.replicate r last := by
  simp [recordSlots, List.getLastD_eq_getLast?, h]

section
variable {n : U16} {X : List U16} {e : Encoder} {rs : List EncRecord}

/-- Ending the pending run writes one more record, for the pixels of the run. -/
theorem EncoderInv.emit (h : EncoderInv n X e rs) (hne : e.lit ≠ []) :
    ∃ rs' : List EncRecord, e.emit = n :: rs'.flatMap EncRecord.words ∧ X = rs'.flatMap EncRecord.pixels :=
  ⟨rs ++ [⟨e.lit, e.rep, hne, h.lit_le, h.rep_le⟩],
    by simp [Encoder.emit, h.out, EncRecord.words],
    h.pixels.trans (by simp [EncRecord.pixels])⟩

/-- A new run of one pixel after complete records. -/
theorem EncoderInv.of_new_run {out : List U16} (v : U16) (hout : out = n :: rs.flatMap EncRecord.words)
    (hX : X = rs.flatMap EncRecord.pixels) : EncoderInv n (X ++ [v]) ⟨out, [v], 0⟩ rs where
  out := hout
  pixels := by rw [hX, recordSlots_zero]
  lit_le := by simp [dlenMax]
  rep_le := Nat.zero_le _
  rep_of_nil := nofun

/-- Every pixel of the pass keeps the encoder's invariant. -/
theorem EncoderInv.push (k : Config) (v : U16) (h : EncoderInv n X e rs) :
    ∃ rs', EncoderInv n (X ++ [v]) (e.push k v) rs' := by
  cases hlast : e.lit.getLast? with
  | none =>
    have hnil : e.lit = [] := List.getLast?_eq_none_iff.mp hlast
    refine ⟨rs, ?_⟩
    rw [Encoder.push, hlast]
    exact .of_new_run v h.out (by rw [h.pixels, hnil, h.rep_of_nil hnil, recordSlots_zero, List.append_nil])
  | some last =>
    have hne : e.lit ≠ [] := by rintro hnil; simp [hnil] at hlast
    have hX := h.pixels
    rw [recordSlots_of_getLast? hlast] at hX
    obtain ⟨rs', hemit, hpixels⟩ := h.emit hne
    rw [Encoder.push, hlast]
    dsimp only
    split
    · next hv =>
      subst hv
      split
      · next hrep =>
        refine ⟨rs, h.out, ?_, h.lit_le, hrep, fun hnil => absurd hnil hne⟩
        rw [recordSlots_of_getLast? hlast, hX, List.replicate_succ']
        simp
      · exact ⟨rs', .of_new_run v hemit hpixels⟩
    · split
      · exact ⟨rs', .of_new_run v hemit hpixels⟩
      · next hshort =>
        refine ⟨rs, h.out, ?_, ?_, Nat.zero_le _, by simp⟩
        · rw [recordSlots_zero, hX]
          simp
        · simp only [List.length_append, List.length_replicate, List.length_singleton]
          omega

theorem encoderInv_foldl (k : Config) (n : U16) (X : List U16) :
    ∃ rs, EncoderInv n X (X.foldl (Encoder.push k) ⟨[n], [], 0⟩) rs := by
  induction X using List.reverseRecOn with
  | nil => exact ⟨[], rfl, rfl, Nat.zero_le _, Nat.zero_le _, fun _ => rfl⟩
  | append_singleton X v ih =>
    obtain ⟨rs, h⟩ := ih
    rw [List.foldl_append]
    exact h.push k v

/-- Compress writes the header and then records that stand for its pixels. -/
theorem compress_eq_records (k : Config) (hX : X.length ≤ nMax) :
    ∃ rs : List EncRecord, compress k X = some (BitVec.ofNat 16 X.length :: rs.flatMap EncRecord.words) ∧
      X = rs.flatMap EncRecord.pixels := by
  obtain ⟨rs, h⟩ := encoderInv_foldl k (BitVec.ofNat 16 X.length) X
  rw [compress, if_neg hX.not_gt, Encoder.finish]
  split
  · next hnil =>
    refine ⟨rs, by rw [h.out], h.pixels.trans ?_⟩
    rw [hnil, h.rep_of_nil hnil, recordSlots_zero, List.append_nil]
  · next hne =>
    obtain ⟨rs', hemit, hpixels⟩ := h.emit hne
    exact ⟨rs', by rw [hemit], hpixels⟩

end

/-- Decompress reads records written one after another back: it writes their pixels from the cursor on. -/
theorem decompressLoop_records {S pre O : List U16} {n fuel cur : Nat} {rs : List EncRecord}
    (hS : S = pre ++ rs.flatMap EncRecord.words) (hn : n = cur + (rs.flatMap EncRecord.pixels).length)
    (hO : n ≤ O.length) (hfuel : S.length ≤ pre.length + fuel) :
    decompressLoop S n fuel pre.length cur O = .ok (overwrite O cur (rs.flatMap EncRecord.pixels)) := by
  induction rs generalizing pre fuel cur O with
  | nil =>
    have hn : n = cur := by simpa using hn
    simp [decompressLoop_done hn.le]
  | cons e rs ih =>
    simp only [List.flatMap_cons] at hS hn ⊢
    have hlen := congrArg List.length hS
    have hpos := e.length_lits_pos
    simp only [List.length_append, e.length_words, e.length_pixels] at hlen hn
    have hctrl : S.getD pre.length 0 = ctrl (BitVec.ofNat 8 e.lits.length) (BitVec.ofNat 8 e.reps) := by
      simp [hS, EncRecord.words]
    have hlits : (S.drop (pre.length + 1)).take e.lits.length = e.lits := by
      rw [hS, List.drop_length_add_append]
      simp [EncRecord.words]
    obtain ⟨fuel, rfl⟩ : ∃ m, fuel = m + 1 := ⟨fuel - 1, by omega⟩
    have hspace : cur + e.pixels.length ≤ O.length := by rw [e.length_pixels]; omega
    rw [decompressLoop_litrun (by omega) (by omega) (by rw [hctrl, e.dataLength]) hpos.ne'
      (by rw [hctrl, e.runLength]), if_neg (by omega), if_neg (by omega), hlits, overwrite_append _ _ hspace]
    have hnext := ih (pre := pre ++ e.words) (fuel := fuel) (cur := cur + e.lits.length + e.reps)
      (O := overwrite O cur e.pixels) (by rw [hS, List.append_assoc]) (by omega) (by simpa)
      (by simp only [List.length_append, e.length_words]; omega)
    rw [List.length_append, e.length_words, ← Nat.add_assoc] at hnext
    rw [e.length_pixels, ← Nat.add_assoc]
    exact hnext

/-- Settles O28: Compress writes records for its pixels, and Decompress writes the pixels of records. -/
theorem roundTrip : Obligations.RoundTrip := by
  intro k X O hX hO
  obtain ⟨rs, hcompress, hpixels⟩ := compress_eq_records k hX
  have hheader : (BitVec.ofNat 16 X.length).toNat = X.length := Nat.mod_eq_of_lt (by omega)
  refine ⟨_, overwrite O 0 X, hcompress, ?_, take_overwrite_zero X hO⟩
  rw [decompressRef, hheader, if_neg hO.not_gt]
  have hloop := decompressLoop_records (S := BitVec.ofNat 16 X.length :: rs.flatMap EncRecord.words)
    (pre := [BitVec.ofNat 16 X.length]) (O := O) (n := X.length) (cur := 0) (rs := rs) rfl
    (by rw [← hpixels, Nat.zero_add]) hO (Nat.le_add_left ..)
  rwa [← hpixels] at hloop

/-! ## DECOMPRESS (R133, R295) -/

theorem admitted_iff_emptyOrInside {rs : List Region} {a len : Nat} :
    admitted rs a len = true ↔ EmptyOrInside rs a len := admitted_iff rs a len

theorem shareNoByte_iff {a alen b blen : Nat} : shareNoByte a alen b blen = true ↔ ¬ShareByte a alen b blen := by
  simp only [shareNoByte, ShareByte, Bool.or_eq_true, beq_iff_eq, decide_eq_true_eq]
  omega

section
variable {k : Config} {a al b bl : U32}

theorem decompressCheck_pass (evenIn : a.toNat % 2 = 0) (evenOut : b.toNat % 2 = 0)
    (input : EmptyOrInside (decReadable k) a.toNat (2 * al.toNat))
    (output : EmptyOrInside (decWritable k) b.toNat (2 * bl.toNat))
    (apart : ¬ShareByte a.toNat (2 * al.toNat) b.toNat (2 * bl.toNat)) : decompressCheck k a al b bl = none :=
  (decompressCheck_eq_none ..).mpr ⟨aligned_iff.mpr evenIn, aligned_iff.mpr evenOut,
    admitted_iff_emptyOrInside.mpr input, admitted_iff_emptyOrInside.mpr output, shareNoByte_iff.mpr apart⟩

theorem decompressCheck_input_odd (oddIn : a.toNat % 2 ≠ 0) :
    decompressCheck k a al b bl = some (.raise .misaligned a) := by
  simp [decompressCheck, mt aligned_iff.mp oddIn]

theorem decompressCheck_output_odd (evenIn : a.toNat % 2 = 0) (oddOut : b.toNat % 2 ≠ 0) :
    decompressCheck k a al b bl = some (.raise .misaligned b) := by
  simp [decompressCheck, aligned_iff.mpr evenIn, mt aligned_iff.mp oddOut]

theorem decompressCheck_input_outside (evenIn : a.toNat % 2 = 0) (evenOut : b.toNat % 2 = 0)
    (input : ¬EmptyOrInside (decReadable k) a.toNat (2 * al.toNat)) :
    decompressCheck k a al b bl = some (.raise .access a) := by
  simp [decompressCheck, aligned_iff.mpr evenIn, aligned_iff.mpr evenOut, mt admitted_iff_emptyOrInside.mp input]

theorem decompressCheck_output_outside (evenIn : a.toNat % 2 = 0) (evenOut : b.toNat % 2 = 0)
    (input : EmptyOrInside (decReadable k) a.toNat (2 * al.toNat))
    (output : ¬EmptyOrInside (decWritable k) b.toNat (2 * bl.toNat)) :
    decompressCheck k a al b bl = some (.raise .access b) := by
  simp [decompressCheck, aligned_iff.mpr evenIn, aligned_iff.mpr evenOut, admitted_iff_emptyOrInside.mpr input,
    mt admitted_iff_emptyOrInside.mp output]

theorem decompressCheck_overlap (evenIn : a.toNat % 2 = 0) (evenOut : b.toNat % 2 = 0)
    (input : EmptyOrInside (decReadable k) a.toNat (2 * al.toNat))
    (output : EmptyOrInside (decWritable k) b.toNat (2 * bl.toNat))
    (overlap : ShareByte a.toNat (2 * al.toNat) b.toNat (2 * bl.toNat)) :
    decompressCheck k a al b bl = some (.raise .overlap b) := by
  simp [decompressCheck, aligned_iff.mpr evenIn, aligned_iff.mpr evenOut, admitted_iff_emptyOrInside.mpr input,
    admitted_iff_emptyOrInside.mpr output, mt shareNoByte_iff.mp (not_not.mpr overlap)]

variable {s : State}

theorem exec_decompress_of_pass (idle : s.decBusy = false) (h : decompressCheck s.cfg a al b bl = none) :
    exec (.decompress a al b bl) s =
      .next { s with
        dec := { s.dec with inBase := a, inLen := al, outBase := b, outLen := bl, ip := 0, cur := 0, st := .hdr }
        hostWait := .onDec } := by
  simp [exec, execDecompress, decompressOp, idle, h]

theorem exec_decompress_of_trap {e : Trap} (idle : s.decBusy = false)
    (h : decompressCheck s.cfg a al b bl = some e) : exec (.decompress a al b bl) s = .next (s.trap e) := by
  simp [exec, execDecompress, decompressOp, idle, h]

end

/-- Settles O17, check by check. -/
theorem decompressCommand : Obligations.DecompressCommand := by
  intro a al b bl s hst
  have idle := decBusy_eq_false_iff.mpr hst
  refine ⟨fun evenIn evenOut input output apart => ?_, fun oddIn => ?_, fun evenIn oddOut => ?_,
    fun evenIn evenOut input => ?_, fun evenIn evenOut input output => ?_,
    fun evenIn evenOut input output overlap => ?_⟩
  · exact exec_decompress_of_pass idle (decompressCheck_pass evenIn evenOut input output apart)
  · exact exec_decompress_of_trap idle (decompressCheck_input_odd oddIn)
  · exact exec_decompress_of_trap idle (decompressCheck_output_odd evenIn oddOut)
  · exact exec_decompress_of_trap idle (decompressCheck_input_outside evenIn evenOut input)
  · exact exec_decompress_of_trap idle (decompressCheck_output_outside evenIn evenOut input output)
  · exact exec_decompress_of_trap idle (decompressCheck_overlap evenIn evenOut input output overlap)

/-! ## The stream words where their step is enabled (R134 to R138) -/

/-- The DEC registers after a header that fits the buffer (R134). -/
def Dec.afterHeader (d : Dec) (n : U16) : Dec :=
  { d with ip := d.ip + 1, n := n, st := if n = 0 then .done else .ctrl }

/-- The DEC registers after a SKIP that stays below N (R136). -/
def Dec.afterSkip (d : Dec) (r : Byte) : Dec :=
  { d with
    ip := d.ip + 1, cur := d.cur + r.setWidth 17,
    st := if d.cur.toNat + r.toNat = d.n.toNat then .done else .ctrl }

/-- The DEC registers after the control word of a LITRUN that passes its checks (R137). -/
def Dec.afterLitrun (d : Dec) (r literals : Byte) : Dec :=
  { d with ip := d.ip + 1, d := literals, r := r, st := .lit }

section
variable {s : State}

theorem exec_hdr {n : U16} (h : s.dec.st = .hdr) : exec (.hdr n) s = settle s (hdrOp n s) := by
  simp [exec, execHdr, decStepWhen, h]

theorem exec_skip {r : Byte} (h : s.dec.st = .ctrl) : exec (.skip r) s = settle s (skipOp r s) := by
  simp [exec, execSkip, decStepWhen, h]

theorem exec_litrun {r d : Byte} (h : s.dec.st = .ctrl) : exec (.litrun r d) s = settle s (litrunOp r d s) := by
  simp [exec, execLitrun, decStepWhen, h]

theorem exec_pixel {v : U16} (h : s.dec.st = .lit) : exec (.pixel v) s = .next (literalOp v s) := by
  simp [exec, execPixel, decStepWhen, h]

theorem hdrOp_ended {n : U16} (h : s.dec.inLen.toNat ≤ s.dec.ip.toNat) :
    hdrOp n s = .error (.raise .streamUnderrun s.dec.ip) := if_pos h

theorem hdrOp_exceeds {n : U16} (h : s.dec.ip.toNat < s.dec.inLen.toNat) (hn : s.dec.outLen.toNat < n.toNat) :
    hdrOp n s = .error (.raise .lengthExceedsBuffer (zext32 n)) := by
  rw [hdrOp, if_neg h.not_ge, if_pos hn]

theorem hdrOp_fits {n : U16} (h : s.dec.ip.toNat < s.dec.inLen.toNat) (hn : n.toNat ≤ s.dec.outLen.toNat) :
    hdrOp n s = .ok { s with dec := s.dec.afterHeader n } := by
  rw [hdrOp, if_neg h.not_ge, if_neg hn.not_gt]
  rfl

theorem skipOp_ended {r : Byte} (h : s.dec.inLen.toNat ≤ s.dec.ip.toNat) :
    skipOp r s = .error (.raise .streamUnderrun s.dec.ip) := if_pos h

theorem skipOp_overrun {r : Byte} (h : s.dec.ip.toNat < s.dec.inLen.toNat)
    (hr : s.dec.n.toNat < s.dec.cur.toNat + r.toNat) : skipOp r s = .error (.raise .outputOverrun s.dec.ip) := by
  rw [skipOp, if_neg h.not_ge, if_pos hr]

/-- The cursor is a 17-bit register, so it holds every index up to N (R21). -/
theorem toNat_cur_add {cur : U17} {r : Byte} {n : U16} (h : cur.toNat + r.toNat ≤ n.toNat) :
    (cur + r.setWidth 17).toNat = cur.toNat + r.toNat := by
  have := n.isLt
  rw [BitVec.toNat_add, BitVec.toNat_setWidth_of_le (by decide)]
  exact Nat.mod_eq_of_lt (by omega)

theorem skipOp_fits {r : Byte} (h : s.dec.ip.toNat < s.dec.inLen.toNat)
    (hr : s.dec.cur.toNat + r.toNat ≤ s.dec.n.toNat) :
    skipOp r s = .ok { s with dec := s.dec.afterSkip r } := by
  rw [skipOp, if_neg h.not_ge, if_neg hr.not_gt]
  simp only [Dec.nextSt, toNat_cur_add hr]
  rfl

theorem litrunOp_ended {r d : Byte} (h : s.dec.inLen.toNat ≤ s.dec.ip.toNat) :
    litrunOp r d s = .error (.raise .streamUnderrun s.dec.ip) := if_pos h

theorem litrunOp_payload {r d : Byte} (h : s.dec.ip.toNat < s.dec.inLen.toNat)
    (hd : s.dec.inLen.toNat < s.dec.ip.toNat + 1 + d.toNat) :
    litrunOp r d s = .error (.raise .streamUnderrun s.dec.inLen) := by
  rw [litrunOp, if_neg h.not_ge, if_pos hd]

theorem litrunOp_overrun {r d : Byte} (hd : s.dec.ip.toNat + 1 + d.toNat ≤ s.dec.inLen.toNat)
    (hr : s.dec.n.toNat < s.dec.cur.toNat + d.toNat + r.toNat) :
    litrunOp r d s = .error (.raise .outputOverrun s.dec.ip) := by
  rw [litrunOp, if_neg (by omega), if_neg hd.not_gt, if_pos hr]

theorem litrunOp_fits {r d : Byte} (hd : s.dec.ip.toNat + 1 + d.toNat ≤ s.dec.inLen.toNat)
    (hr : s.dec.cur.toNat + d.toNat + r.toNat ≤ s.dec.n.toNat) :
    litrunOp r d s = .ok { s with dec := s.dec.afterLitrun r d } := by
  rw [litrunOp, if_neg (by omega), if_neg hd.not_gt, if_neg hr.not_gt]
  rfl

end

/-- Settles O18, check by check. -/
theorem headerStep : Obligations.HeaderStep := by
  intro n s st
  rw [exec_hdr st]
  refine ⟨fun h hn => ?_, fun h => ?_, fun h hn => ?_⟩
  · rw [hdrOp_fits h hn, settle_ok]; rfl
  · rw [hdrOp_ended h, settle_error, trap_raise]
  · rw [hdrOp_exceeds h hn, settle_error, trap_raise]

/-- Settles O19, check by check. -/
theorem skipStep : Obligations.SkipStep := by
  intro r s st
  rw [exec_skip st]
  refine ⟨fun h hr => ?_, fun h => ?_, fun h hr => ?_⟩
  · rw [skipOp_fits h hr, settle_ok]; rfl
  · rw [skipOp_ended h, settle_error, trap_raise]
  · rw [skipOp_overrun h hr, settle_error, trap_raise]

/-- Settles O20, check by check. -/
theorem litrunControlStep : Obligations.LitrunControlStep := by
  intro r d s st _
  rw [exec_litrun st]
  refine ⟨fun hd hr => ?_, fun h => ?_, fun h hd => ?_, fun hd hr => ?_⟩
  · rw [litrunOp_fits hd hr, settle_ok]; rfl
  · rw [litrunOp_ended h, settle_error, trap_raise]
  · rw [litrunOp_payload h hd, settle_error, trap_raise]
  · rw [litrunOp_overrun hd hr, settle_error, trap_raise]

/-! ## The two steps that write a slot (R138) -/

/-- The DEC registers after the literal step (R138). -/
def Dec.afterLiteral (d : Dec) (v : U16) : Dec :=
  { d with
    ip := d.ip + 1, cur := d.cur + 1, last := v, d := d.d - 1,
    st :=
      if d.d ≠ 1 then .lit else if d.r ≠ 0 then .rep else if d.cur.toNat + 1 = d.n.toNat then .done else .ctrl }

/-- The DEC registers after the repeat step (R138). -/
def Dec.afterRepeat (d : Dec) : Dec :=
  { d with
    cur := d.cur + 1, r := d.r - 1,
    st := if d.r ≠ 1 then .rep else if d.cur.toNat + 1 = d.n.toNat then .done else .ctrl }

section
variable {d : Dec} {v : U16}

theorem Dec.afterLiteral_more (h : d.d ≠ 1) : (d.afterLiteral v).st = .lit := if_pos h

theorem Dec.afterLiteral_repeats (h : d.d = 1) (hr : d.r ≠ 0) : (d.afterLiteral v).st = .rep := by
  rw [afterLiteral, if_neg (not_not.mpr h), if_pos hr]

theorem Dec.afterLiteral_record_end (h : d.d = 1) (hr : d.r = 0) :
    (d.afterLiteral v).st = if d.cur.toNat + 1 = d.n.toNat then .done else .ctrl := by
  rw [afterLiteral, if_neg (not_not.mpr h), if_neg (not_not.mpr hr)]

theorem Dec.afterRepeat_more (h : d.r ≠ 1) : d.afterRepeat.st = .rep := if_pos h

theorem Dec.afterRepeat_record_end (h : d.r = 1) :
    d.afterRepeat.st = if d.cur.toNat + 1 = d.n.toNat then .done else .ctrl := if_neg (not_not.mpr h)

end

theorem toNat_add_one {w : Nat} {x : BitVec w} (hw : 0 < w) (h : x.toNat + 1 < 2 ^ w) :
    (x + 1).toNat = x.toNat + 1 := by
  have hone : (1 : BitVec w).toNat = 1 := BitVec.toNat_one hw
  rw [BitVec.toNat_add, hone, Nat.mod_eq_of_lt h]

/-- The next slot of a buffer of N slots has an index that the cursor holds. -/
theorem toNat_cur_add_one {cur : U17} {n : U16} (h : cur.toNat < n.toNat) : (cur + 1).toNat = cur.toNat + 1 :=
  toNat_add_one (by decide) (by have := n.isLt; omega)

theorem toNat_byte_sub_one {x : Byte} (h : 1 ≤ x.toNat) : (x - 1).toNat = x.toNat - 1 := by
  bv_omega

theorem byte_sub_one_eq_zero {x : Byte} : x - 1 = 0 ↔ x = 1 := sub_eq_zero

section
variable {s : State}

theorem literalOp_dec (v : U16) (h : s.dec.cur.toNat < s.dec.n.toNat) :
    (literalOp v s).dec = s.dec.afterLiteral v := by
  simp only [literalOp, State.storeSlot_dec, Dec.afterLiteral, Dec.nextSt, toNat_cur_add_one h, byte_sub_one_eq_zero,
    ne_eq, ite_not]

theorem repeatOp_dec (h : s.dec.cur.toNat < s.dec.n.toNat) : (repeatOp s).dec = s.dec.afterRepeat := by
  simp only [repeatOp, State.storeSlot_dec, Dec.afterRepeat, Dec.nextSt, toNat_cur_add_one h, byte_sub_one_eq_zero,
    ne_eq, ite_not]

/-- DEC has a slot left to write below N while a literal or a repeat is to be written (R143). -/
theorem DecInv.cur_lt_n (hs : DecInv s) (st : s.dec.st = .lit ∨ s.dec.st = .rep) :
    s.dec.cur.toNat < s.dec.n.toNat := by
  obtain ⟨_, _, _, hlit, hrep, _⟩ := hs
  rcases st with st | st
  · obtain ⟨_, _, _, _⟩ := hlit st; omega
  · obtain ⟨_, _, _, _⟩ := hrep st; omega

/-- No slot DEC writes is in the display port (R64, R65). -/
theorem DecInv.slot_not_display (hs : DecInv s) (hk : s.cfg.wf) (st : s.dec.st = .lit ∨ s.dec.st = .rep) :
    holds s.cfg.display (s.dec.outAddr s.dec.cur.toNat) 1 = false := by
  rcases hs.slot_inside st with h | ⟨r, hr, hbase, hend⟩
  · cases h
  · have hin : inRegion r (s.dec.outAddr s.dec.cur.toNat) := ⟨hbase, by omega⟩
    have hwritable : r ∈ hostWritable s.cfg := List.mem_append_left [s.cfg.fillCell] hr
    exact Bool.eq_false_iff.mpr fun h =>
      not_inRegion_of_apart (apart_display_of_wf hk hwritable) hin (holds_one_iff.mp h)

/-- The memory after a value is written to the slot at the cursor (R62). -/
def State.slotWritten (s : State) (v : U16) : Memory :=
  s.mem.write (s.dec.outAddr s.dec.cur.toNat) 2 (zext32 v).toNat

theorem storeSlot_eq (v : U16) (h : holds s.cfg.display (s.dec.outAddr s.dec.cur.toNat) 1 = false) :
    s.storeSlot v = { s with mem := s.slotWritten v } := s.store_memory _ 2 (zext32 v) h

theorem slotWritten_writesOnly (s : State) (v : U16) :
    WritesOnly s.mem (s.slotWritten v) (s.dec.outAddr s.dec.cur.toNat) 2 (zext32 v) := by
  intro x
  rw [State.slotWritten, Memory.byte_write]
  simp only [ofNat_div_eq_byteOf]

/-- The literal step writes one slot and the DEC registers, and nothing else (R138). -/
theorem literalOp_eq (hs : DecInv s) (hk : s.cfg.wf) (st : s.dec.st = .lit) (v : U16) :
    literalOp v s = { s with mem := s.slotWritten v, dec := s.dec.afterLiteral v } := by
  have hdec := literalOp_dec v (hs.cur_lt_n (.inl st))
  rw [literalOp, storeSlot_eq v (hs.slot_not_display hk (.inl st))] at hdec ⊢
  rw [← hdec]

/-- The repeat step writes one slot and the DEC registers, and nothing else (R138). -/
theorem repeatOp_eq (hs : DecInv s) (hk : s.cfg.wf) (st : s.dec.st = .rep) :
    repeatOp s = { s with mem := s.slotWritten s.dec.last, dec := s.dec.afterRepeat } := by
  have hdec := repeatOp_dec (hs.cur_lt_n (.inr st))
  rw [repeatOp, storeSlot_eq _ (hs.slot_not_display hk (.inr st))] at hdec ⊢
  rw [← hdec]

end

/-- Settles O21: the word is the literal step's, which writes one slot. -/
theorem literalStep : Obligations.LiteralStep := by
  intro v s st hs hk
  exact ⟨_, (exec_pixel st).trans (congrArg _ (literalOp_eq hs hk st v)), slotWritten_writesOnly s v, rfl⟩

/-! ## One step of DEC (R23, R106, R134 to R138) -/

/-- A control word's operation: SKIP where `dataLength` is 0, LITRUN where not (R108, R135). -/
def controlOp (w : U16) (s : State) : Attempt :=
  if ctrlDataLength w = 0 then skipOp (ctrlRunLength w) s else litrunOp (ctrlRunLength w) (ctrlDataLength w) s

/-- What DEC attempts in its state (R22): the stream word at `dec.ip`, or a repeat, or nothing. -/
def State.decAttempt (s : State) : Attempt :=
  match s.dec.st with
  | .idle => .ok s
  | .hdr => hdrOp (s.streamWord s.dec.ip.toNat) s
  | .ctrl => controlOp (s.streamWord s.dec.ip.toNat) s
  | .lit => .ok (literalOp (s.streamWord s.dec.ip.toNat) s)
  | .rep => .ok (repeatOp s)
  | .done => .ok s

/-- The two bytes of a stream word are the word (R62, R104). -/
theorem word16_stream_bytes (s : State) (i : Nat) :
    word16 (s.mem.byte (s.dec.inAddr i)) (s.mem.byte (s.dec.inAddr i + 1)) = s.streamWord i := by
  have hlo := (s.mem.byte (s.dec.inAddr i)).isLt
  have hhi := (s.mem.byte (s.dec.inAddr i + 1)).isLt
  rw [← BitVec.toNat_inj, word16, toNat_append_byte, State.streamWord, BitVec.toNat_ofNat]
  simp only [Memory.read]
  omega

theorem exec_decodeControl {s : State} (st : s.dec.st = .ctrl) (w : U16) :
    exec (decodeControl w) s = settle s (controlOp w s) := by
  by_cases h : ctrlDataLength w = 0
  · rw [decodeControl_of_low_zero h, exec_skip st, controlOp, if_pos h, ctrlRunLength]
  · rw [decodeControl_of_low_ne_zero h, exec_litrun st, controlOp, if_neg h, ctrlRunLength, ctrlDataLength]

theorem controlOp_ended {s : State} (w : U16) (h : s.dec.inLen.toNat ≤ s.dec.ip.toNat) :
    controlOp w s = .error (.raise .streamUnderrun s.dec.ip) := by
  unfold controlOp
  split
  · exact skipOp_ended h
  · exact litrunOp_ended h

/-- DEC fetches the stream word at `dec.ip`, as the position reads it. -/
theorem decFetch_eq {s : State} {p : Position} (f : U16 → Instr) (hp : s.dec.st.position = some p)
    (hf : ∀ lo hi, decode p [lo, hi] = .ok (f (word16 lo hi)) []) :
    s.decFetch = some (f (s.streamWord s.dec.ip.toNat)) := by
  rw [decFetch_of_decode hp (hf ..), word16_stream_bytes]

/-- A DEC step is what DEC attempts, settled: the missing word of an ended stream is the first check of `hdrOp` and
`controlOp`. -/
theorem decStep_eq (s : State) : decStep s = settle s s.decAttempt := by
  unfold State.decAttempt
  cases st : s.dec.st with
  | idle => exact decStep_of_not_busy (.inl st)
  | done => exact decStep_of_not_busy (.inr st)
  | rep => simp [decStep, State.streamEnded, State.decFetch, DecState.position, st]
  | lit =>
    have hp : s.dec.st.position = some .payload := by rw [st]; rfl
    rw [decStep_of_fetch (streamEnded_eq_false hp (.inl rfl)) (decFetch_eq .pixel hp fun _ _ => rfl), exec_pixel st,
      settle_ok]
  | hdr =>
    have hp : s.dec.st.position = some .header := by rw [st]; rfl
    rcases Nat.lt_or_ge s.dec.ip.toNat s.dec.inLen.toNat with h | h
    · rw [decStep_of_fetch (streamEnded_eq_false hp (.inr h)) (decFetch_eq .hdr hp fun _ _ => rfl), exec_hdr st]
    · dsimp only
      rw [decStep_of_stream_ended (streamEnded_iff.mpr ⟨.inl st, h⟩), hdrOp_ended h, settle_error, trap_raise]
  | ctrl =>
    have hp : s.dec.st.position = some .control := by rw [st]; rfl
    rcases Nat.lt_or_ge s.dec.ip.toNat s.dec.inLen.toNat with h | h
    · rw [decStep_of_fetch (streamEnded_eq_false hp (.inr h)) (decFetch_eq decodeControl hp fun _ _ => rfl),
        exec_decodeControl st]
    · dsimp only
      rw [decStep_of_stream_ended (streamEnded_iff.mpr ⟨.inr st, h⟩), controlOp_ended _ h, settle_error, trap_raise]

/-- Settles O22: DEC's step is the repeat step, which writes one slot. -/
theorem repeatStep : Obligations.RepeatStep := by
  intro s hs turn st hinv hk
  have hattempt : s.passTurn.decAttempt = .ok (repeatOp s.passTurn) := by
    simp [State.decAttempt, st]
  have hstep : step s = .next { s.passTurn with mem := s.slotWritten s.dec.last, dec := s.dec.afterRepeat } := by
    rw [step_of_turn hs turn, agentStep, decStep_eq, hattempt, settle_ok, repeatOp_eq (s := s.passTurn) hinv hk st]
    rfl
  exact ⟨_, hstep, slotWritten_writesOnly s s.dec.last, rfl⟩

/-! ## The invariant of a decompression (R133, R143) -/

/-- The checks that DECOMPRESS made of its ranges (R133). -/
abbrev State.rangesChecked (s : State) : Prop :=
  decompressCheck s.cfg s.dec.inBase s.dec.inLen s.dec.outBase s.dec.outLen = none

section
variable {s t : State}

/-- While DEC is not idle its ranges have passed the checks. -/
theorem DecInv.rangesChecked (hs : DecInv s) (st : s.dec.st ≠ .idle) : s.rangesChecked := by
  obtain ⟨hcheck, _⟩ := hs
  exact hcheck st

/-- The invariant reads the DEC registers and the parameters only. -/
theorem DecInv.of_eq (hs : DecInv s) (dec : t.dec = s.dec) (cfg : t.cfg = s.cfg) : DecInv t := by
  simpa only [DecInv, dec, cfg] using hs

theorem DecInv.of_hdr (st : t.dec.st = .hdr) (ranges : t.rangesChecked) (ip : t.dec.ip = 0) (cur : t.dec.cur = 0) :
    DecInv t := by
  simp [DecInv, st, ranges, ip, cur]

theorem DecInv.of_lit (st : t.dec.st = .lit) (ranges : t.rangesChecked) (d : 1 ≤ t.dec.d.toNat)
    (ip : t.dec.ip.toNat + t.dec.d.toNat ≤ t.dec.inLen.toNat)
    (cur : t.dec.cur.toNat + t.dec.d.toNat + t.dec.r.toNat ≤ t.dec.n.toNat)
    (n : t.dec.n.toNat ≤ t.dec.outLen.toNat) : DecInv t := by
  simp [DecInv, st, ranges, d, ip, cur, n]

theorem DecInv.of_rep (st : t.dec.st = .rep) (ranges : t.rangesChecked) (r : 1 ≤ t.dec.r.toNat)
    (ip : t.dec.ip.toNat ≤ t.dec.inLen.toNat) (cur : t.dec.cur.toNat + t.dec.r.toNat ≤ t.dec.n.toNat)
    (n : t.dec.n.toNat ≤ t.dec.outLen.toNat) : DecInv t := by
  simp [DecInv, st, ranges, r, ip, cur, n]

/-- At the end of a record DEC is done or reads a control word, as the cursor has reached N or not (R139). -/
theorem DecInv.of_record_end (st : t.dec.st = if t.dec.cur.toNat = t.dec.n.toNat then .done else .ctrl)
    (ranges : t.rangesChecked) (ip : t.dec.ip.toNat ≤ t.dec.inLen.toNat) (cur : t.dec.cur.toNat ≤ t.dec.n.toNat)
    (n : t.dec.n.toNat ≤ t.dec.outLen.toNat) : DecInv t := by
  by_cases h : t.dec.cur.toNat = t.dec.n.toNat
  · rw [if_pos h] at st
    simp [DecInv, st, ranges, ip, h, n]
  · rw [if_neg h] at st
    simp [DecInv, st, ranges, ip, cur.lt_of_ne h, n]

/-- The header is the stream's first word, and no slot is passed yet (R134). -/
theorem DecInv.hdr_registers (hs : DecInv s) (st : s.dec.st = .hdr) : s.dec.ip = 0 ∧ s.dec.cur = 0 := by
  obtain ⟨_, hhdr, _⟩ := hs
  exact hhdr st

/-- The header step keeps the invariant (R134). -/
theorem hdrOp_decInv {n : U16} (hs : DecInv s) (st : s.dec.st = .hdr) (h : hdrOp n s = .ok t) : DecInv t := by
  have ranges := hs.rangesChecked (by simp [st])
  obtain ⟨hip, hcur⟩ := hs.hdr_registers st
  obtain ⟨hin, hn, rfl⟩ := hdrOp_eq_ok h
  refine .of_record_end ?_ ranges ?_ ?_ hn
  · simp [hcur, ← BitVec.toNat_inj, eq_comm]
  · simpa [hip, Nat.one_le_iff_ne_zero, Nat.pos_iff_ne_zero] using hin
  · simp [hcur]

theorem skipOp_decInv {r : Byte} (hs : DecInv s) (st : s.dec.st = .ctrl) (h : skipOp r s = .ok t) : DecInv t := by
  have ranges := hs.rangesChecked (by simp [st])
  obtain ⟨_, _, hctrl, _⟩ := hs
  obtain ⟨_, _, hn⟩ := hctrl st
  obtain ⟨hin, hr, _⟩ := skipOp_eq_ok h
  rw [skipOp_fits hin hr] at h
  cases h
  have hcur := toNat_cur_add hr
  have hip : (s.dec.ip + 1).toNat = s.dec.ip.toNat + 1 := toNat_add_one (by decide) (by omega)
  refine .of_record_end ?_ ranges ?_ ?_ hn <;> simp only [Dec.afterSkip, hip, hcur]
  all_goals omega

theorem litrunOp_decInv {r d : Byte} (hs : DecInv s) (st : s.dec.st = .ctrl) (hd : d ≠ 0)
    (h : litrunOp r d s = .ok t) : DecInv t := by
  have ranges := hs.rangesChecked (by simp [st])
  obtain ⟨_, _, hctrl, _⟩ := hs
  obtain ⟨_, _, hn⟩ := hctrl st
  obtain ⟨hin, hout, rfl⟩ := litrunOp_eq_ok h
  have hd1 : 1 ≤ d.toNat := by bv_omega
  have hip : (s.dec.ip + 1).toNat = s.dec.ip.toNat + 1 := toNat_add_one (by decide) (by omega)
  exact .of_lit rfl ranges hd1 (by simp only [hip]; omega) hout hn

/-- The registers after a literal meet the invariant (R138, R143). -/
theorem DecInv.afterLiteral {v : U16} (hs : DecInv s) (st : s.dec.st = .lit) (dec : t.dec = s.dec.afterLiteral v)
    (cfg : t.cfg = s.cfg) : DecInv t := by
  have ranges : t.rangesChecked := by
    rw [State.rangesChecked, cfg, dec]; exact hs.rangesChecked (by simp [st])
  have hcur : (s.dec.cur + 1).toNat = s.dec.cur.toNat + 1 := toNat_cur_add_one (hs.cur_lt_n (.inl st))
  obtain ⟨_, _, _, hlit, _⟩ := hs
  obtain ⟨hd, hin, hout, hn⟩ := hlit st
  have hip : (s.dec.ip + 1).toNat = s.dec.ip.toNat + 1 := toNat_add_one (by decide) (by omega)
  have hd' := toNat_byte_sub_one hd
  by_cases h1 : s.dec.d = 1
  · have hd1 : s.dec.d.toNat = 1 := by rw [h1]; rfl
    by_cases h0 : s.dec.r = 0
    · refine .of_record_end ?_ ranges ?_ ?_ ?_ <;> rw [dec]
      · exact (Dec.afterLiteral_record_end h1 h0).trans (by simp only [Dec.afterLiteral, hcur])
      all_goals simp only [Dec.afterLiteral, hip, hcur]; omega
    · have hr1 : 1 ≤ s.dec.r.toNat := by bv_omega
      refine .of_rep ?_ ranges ?_ ?_ ?_ ?_ <;> rw [dec]
      · exact Dec.afterLiteral_repeats h1 h0
      all_goals simp only [Dec.afterLiteral, hip, hcur]; omega
  · have hd2 : 2 ≤ s.dec.d.toNat := by bv_omega
    refine .of_lit ?_ ranges ?_ ?_ ?_ ?_ <;> rw [dec]
    · exact Dec.afterLiteral_more h1
    all_goals simp only [Dec.afterLiteral, hip, hcur, hd']; omega

/-- The registers after a repeat meet the invariant (R138, R143). -/
theorem DecInv.afterRepeat (hs : DecInv s) (st : s.dec.st = .rep) (dec : t.dec = s.dec.afterRepeat)
    (cfg : t.cfg = s.cfg) : DecInv t := by
  have ranges : t.rangesChecked := by
    rw [State.rangesChecked, cfg, dec]; exact hs.rangesChecked (by simp [st])
  have hcur : (s.dec.cur + 1).toNat = s.dec.cur.toNat + 1 := toNat_cur_add_one (hs.cur_lt_n (.inr st))
  obtain ⟨_, _, _, _, hrep, _⟩ := hs
  obtain ⟨hr, hin, hout, hn⟩ := hrep st
  have hr' := toNat_byte_sub_one hr
  by_cases h1 : s.dec.r = 1
  · have hr1 : s.dec.r.toNat = 1 := by rw [h1]; rfl
    refine .of_record_end ?_ ranges ?_ ?_ ?_ <;> rw [dec]
    · exact (Dec.afterRepeat_record_end h1).trans (by simp only [Dec.afterRepeat, hcur])
    all_goals simp only [Dec.afterRepeat, hcur]; omega
  · have hr2 : 2 ≤ s.dec.r.toNat := by bv_omega
    refine .of_rep ?_ ranges ?_ ?_ ?_ ?_ <;> rw [dec]
    · exact Dec.afterRepeat_more h1
    all_goals simp only [Dec.afterRepeat, hcur, hr']; omega

theorem literalOp_decInv (v : U16) (hs : DecInv s) (st : s.dec.st = .lit) : DecInv (literalOp v s) :=
  hs.afterLiteral st (literalOp_dec v (hs.cur_lt_n (.inl st))) (literalOp_keepsLegal v s).cfg

theorem repeatOp_decInv (hs : DecInv s) (st : s.dec.st = .rep) : DecInv (repeatOp s) :=
  hs.afterRepeat st (repeatOp_dec (hs.cur_lt_n (.inr st))) (repeatOp_keepsLegal s).cfg

/-- DECOMPRESS sets DEC to read the header of ranges it has checked (R133). -/
theorem decompressOp_decInv {a al b bl : U32} (h : decompressOp a al b bl s = .ok t) : DecInv t := by
  obtain ⟨hcheck, rfl⟩ := decompressOp_eq_ok h
  exact .of_hdr rfl hcheck rfl rfl

theorem configureOp_dec {scan : Bool} {c src dst esize count opts : U32}
    (h : configureOp scan c src dst esize count opts s = .ok t) : t.dec = s.dec := by
  obtain ⟨_, rfl⟩ := configureOp_eq_ok h
  rfl

theorem startOp_dec {scan : Bool} {c : U32} (h : startOp scan c s = .ok t) : t.dec = s.dec := by
  obtain ⟨_, rfl⟩ := startOp_eq_ok h
  rfl

theorem scanStartOp_dec (h : scanStartOp s = .ok t) : t.dec = s.dec := by
  obtain ⟨u, v, hcfg, hstart, rfl⟩ := scanStartOp_eq_ok h
  exact (startOp_dec hstart).trans (configureOp_dec hcfg)

theorem waitOp_dec {c : U32} (h : waitOp c s = .ok t) : t.dec = s.dec := by
  obtain ⟨_, rfl⟩ := waitOp_eq_ok h
  rfl

theorem vsyncSample_dec (s : State) : (vsyncSample s).dec = s.dec := by
  unfold vsyncSample
  split <;> [skip; split; split] <;> rfl

/-- Every effect of a step keeps the invariant: DEC's own steps and DECOMPRESS by their rules, the others by leaving the
DEC registers alone. A free HOST finds DEC not busy, so no LITRUN of length 0 reaches it. -/
theorem Effect.decInv {a : Agent} {u t : State} (h : Effect a u t) (hhost : HostInv u) (hu : DecInv u) : DecInv t := by
  have cfg := h.keepsLegal.cfg
  cases h with
  | untouched h => exact hu.of_eq h.dec cfg
  | hdr _ st h => exact hdrOp_decInv hu st h
  | skip _ st h => exact skipOp_decInv hu st h
  | litrun who st h =>
    rcases who with free | ⟨_, hd⟩
    · have hidle := hhost.not_busy (by simp [free])
      simp [decBusy_eq_false_iff, st] at hidle
    · exact litrunOp_decInv hu st hd h
  | literal _ st => exact literalOp_decInv _ hu st
  | repeated _ st => exact repeatOp_decInv hu st
  | decompress _ _ _ h => exact decompressOp_decInv h
  | hostWrite _ _ h => obtain ⟨_, rfl⟩ := hostWriteOp_eq_ok h; exact hu.of_eq (by simp) cfg
  | configure _ _ h rest => exact hu.of_eq (rest.dec.trans (configureOp_dec h)) cfg
  | start _ _ h => exact hu.of_eq (startOp_dec h) cfg
  | scanStart _ _ h => exact hu.of_eq (scanStartOp_dec h) cfg
  | wait _ _ h rest => exact hu.of_eq (rest.dec.trans (waitOp_dec h)) cfg
  | vsyncWait _ _ h rest => cases h; exact hu.of_eq rest.dec cfg
  | vsyncSample => exact hu.of_eq (vsyncSample_dec u) cfg
  | decompressReturns | waitReturns => exact hu
  | element => exact hu.of_eq (by simp [elementOp]) cfg

end

/-- Settles O24, by the case analysis of what a step can do. -/
theorem stepKeepsDecInvariant : Obligations.StepKeepsDecInvariant := by
  intro s t hhost hs h
  obtain ⟨_, u, hu, _, _, heffect⟩ := step_cases h
  exact heffect.decInv (hu.hostInv hhost) (hs.of_eq hu.dec hu.cfg)

/-! ## What DEC's attempt keeps, and that it comes to an end (R138, R142) -/

theorem controlOp_eq_ok {w : U16} {s t : State} (h : controlOp w s = .ok t) :
    (∃ r, skipOp r s = .ok t) ∨ ∃ r d, d ≠ 0 ∧ litrunOp r d s = .ok t := by
  unfold controlOp at h
  split at h
  · exact .inl ⟨_, h⟩
  · exact .inr ⟨_, _, ‹_›, h⟩

/-- How much DEC has still to do: the stream words left to read, and below them the repeats a record has begun. -/
def State.decWork (s : State) : Nat :=
  256 * (s.dec.inLen.toNat - s.dec.ip.toNat) + if s.dec.st = .rep then s.dec.r.toNat else 0

/-- From `s` to `t` DEC did a part of its work and stopped nothing, and HOST stays in its wait. -/
structure DecWorked (s t : State) : Prop where
  fault : t.fault = s.fault
  refused : t.refused = s.refused
  hostWait : t.hostWait = s.hostWait
  less : t.decWork < s.decWork

section
variable {s t : State}

/-- Reading a word lowers the work, whatever repeats come next. -/
theorem decWork_lt_of_word (inside : s.dec.ip.toNat < s.dec.inLen.toNat) (inLen : t.dec.inLen = s.dec.inLen)
    (ip : t.dec.ip = s.dec.ip + 1) : t.decWork < s.decWork := by
  have hip : (s.dec.ip + 1).toNat = s.dec.ip.toNat + 1 := toNat_add_one (by decide) (by omega)
  have hr := t.dec.r.isLt
  have hrep : (if t.dec.st = .rep then t.dec.r.toNat else 0) < 256 := by split <;> omega
  rw [State.decWork, State.decWork, inLen, ip, hip]
  omega

theorem repeatOp_decWork (hs : DecInv s) (st : s.dec.st = .rep) : (repeatOp s).decWork < s.decWork := by
  have hdec := repeatOp_dec (hs.cur_lt_n (.inr st))
  obtain ⟨_, _, _, _, hrep, _⟩ := hs
  obtain ⟨hr, _⟩ := hrep st
  have hr' := toNat_byte_sub_one hr
  have hrep : (if s.dec.afterRepeat.st = .rep then (s.dec.r - 1).toNat else 0) < s.dec.r.toNat := by
    split <;> omega
  rw [State.decWork, State.decWork, hdec, if_pos st]
  exact Nat.add_lt_add_left hrep _

/-- What a busy DEC attempts, where it is not trapped, is a part of its work. -/
theorem decAttempt_worked (hs : DecInv s) (busy : s.decBusy = true) (h : s.decAttempt = .ok t) : DecWorked s t := by
  obtain ⟨hidle, hdone⟩ := decBusy_iff.mp busy
  unfold State.decAttempt at h
  cases st : s.dec.st with
  | idle => exact absurd st hidle
  | done => exact absurd st hdone
  | hdr =>
    rw [st] at h
    obtain ⟨hin, _, rfl⟩ := hdrOp_eq_ok h
    exact ⟨rfl, rfl, rfl, decWork_lt_of_word hin rfl rfl⟩
  | ctrl =>
    rw [st] at h
    rcases controlOp_eq_ok h with ⟨r, h⟩ | ⟨r, d, _, h⟩
    · obtain ⟨hin, _, d, rfl, rfl⟩ := skipOp_eq_ok h
      exact ⟨rfl, rfl, rfl, decWork_lt_of_word hin rfl rfl⟩
    · obtain ⟨hin, _, rfl⟩ := litrunOp_eq_ok h
      exact ⟨rfl, rfl, rfl, decWork_lt_of_word (by omega) rfl rfl⟩
  | lit =>
    rw [st] at h
    cases h
    have hdec := literalOp_dec (s.streamWord s.dec.ip.toNat) (hs.cur_lt_n (.inl st))
    obtain ⟨_, _, _, hlit, _⟩ := hs
    obtain ⟨_, hin, _⟩ := hlit st
    exact ⟨by simp [literalOp], by simp [literalOp], by simp [literalOp],
      decWork_lt_of_word (by omega) (by rw [hdec]; rfl) (by rw [hdec]; rfl)⟩
  | rep =>
    rw [st] at h
    cases h
    exact ⟨by simp [repeatOp], by simp [repeatOp], by simp [repeatOp], repeatOp_decWork hs st⟩

/-- DEC refuses nothing: what traps it is a fault (R299). -/
theorem decAttempt_error {e : Trap} (h : s.decAttempt = .error e) : ∃ f info, e = .raise f info := by
  cases e with
  | raise f info => exact ⟨f, info, rfl⟩
  | refuse =>
    unfold State.decAttempt at h
    split at h
    case h_2 => simp [hdrOp, ite_eq_iff] at h
    case h_3 => simp [controlOp, skipOp, litrunOp, ite_eq_iff] at h
    all_goals cases h

end

/-! ## HOST's wait on DEC in a run (R85, R141, R300) -/

/-- HOST is blocked in a DECOMPRESS and nothing has stopped the machine. -/
structure Decompressing (s : State) : Prop where
  safe : s.safe
  wait : s.hostWait = .onDec
  host : HostInv s
  dec : DecInv s

/-- The state an agent's step starts from at its turn in a run, the program's next bytes in the queue. -/
abbrev State.atTurn (s : State) (bs : List Byte) : State :=
  { s with tape := [], turns := s.turns + 1, prog := s.prog ++ bs }

section
variable {s : State}

/-- Turns keep the invariants of HOST and of a decompression. -/
theorem afterTurn_inv (a : Agent) (bs : List Byte) (hhost : HostInv s) (hdec : DecInv s) :
    HostInv (s.afterTurn a bs) ∧ DecInv (s.afterTurn a bs) := by
  rcases afterTurn_cases s a bs with h | h
  · rw [h]; exact ⟨hhost, hdec⟩
  · exact ⟨stepKeepsHostInvariant { s with tape := [a], prog := s.prog ++ bs } _ hhost h,
      stepKeepsDecInvariant { s with tape := [a], prog := s.prog ++ bs } _ hhost hdec h⟩

/-- A turn in which neither DEC nor HOST has a step leaves the decompression where it is. -/
theorem Decompressing.afterTurn_quiet (h : Decompressing s) {a : Agent} (bs : List Byte)
    (idle : a = .dec → s.decBusy = false) (blocked : a = .host → s.dec.st ≠ .done) :
    Decompressing (s.afterTurn a bs) ∧ (s.afterTurn a bs).dec = s.dec := by
  obtain ⟨hhost, hdec⟩ := afterTurn_inv a bs h.host h.dec
  have key : (s.afterTurn a bs).safe ∧ (s.afterTurn a bs).hostWait = .onDec ∧ (s.afterTurn a bs).dec = s.dec := by
    cases a with
    | host =>
      have hstep : agentStep .host (s.atTurn bs) = .next (s.atTurn bs) := hostStep_of_onDec h.wait (blocked rfl)
      rw [afterTurn_of_agentStep h.safe hstep]
      exact ⟨h.safe, h.wait, rfl⟩
    | dec => rw [afterTurn_dec_idle h.safe bs (idle rfl)]; exact ⟨h.safe, h.wait, rfl⟩
    | env => rw [afterTurn_env h.safe bs]; exact ⟨h.safe, h.wait, rfl⟩
    | bte c =>
      rw [afterTurn_bte h.safe c bs]
      obtain ⟨wait, _, dec, _, fault, refused, _⟩ :=
        elementStep_keeps c (s.atTurn bs)
      exact ⟨by rw [State.safe, fault, refused]; exact h.safe, wait.trans h.wait, dec⟩
  obtain ⟨safe, wait, dec⟩ := key
  exact ⟨⟨safe, wait, hhost, hdec⟩, dec⟩

/-- A turn of a busy DEC does a part of its work, or records a fault. -/
theorem Decompressing.afterTurn_dec (h : Decompressing s) (bs : List Byte) (busy : s.decBusy = true) :
    (s.afterTurn .dec bs).fault.valid = true ∨
      (Decompressing (s.afterTurn .dec bs) ∧ (s.afterTurn .dec bs).decWork < s.decWork) := by
  obtain ⟨hhost, hdec⟩ := afterTurn_inv .dec bs h.host h.dec
  have hstep : agentStep .dec (s.atTurn bs) = settle (s.atTurn bs) (s.atTurn bs).decAttempt := decStep_eq _
  cases hattempt : (s.atTurn bs).decAttempt with
  | error e =>
    left
    obtain ⟨f, info, rfl⟩ := decAttempt_error hattempt
    rw [hattempt, settle_error] at hstep
    rw [afterTurn_of_agentStep h.safe hstep, trap_raise, State.raise_fault]
    split
    · assumption
    · rfl
  | ok t =>
    right
    have hw := decAttempt_worked (s := s.atTurn bs) h.dec busy hattempt
    rw [hattempt, settle_ok] at hstep
    rw [afterTurn_of_agentStep h.safe hstep] at hhost hdec ⊢
    exact ⟨⟨by rw [State.safe, hw.fault, hw.refused]; exact h.safe, hw.hostWait.trans h.wait, hhost, hdec⟩, hw.less⟩

/-- HOST's turn after DEC is done is the return of its DECOMPRESS (R141). -/
theorem Decompressing.afterTurn_host (h : Decompressing s) (bs : List Byte) (done : s.dec.st = .done) :
    (s.afterTurn .host bs).stopped = false ∧ (s.afterTurn .host bs).hostWait = .none := by
  have hstep : agentStep .host (s.atTurn bs) = .next { s.atTurn bs with hostWait := .none } := by
    simp [agentStep, hostStep, h.wait, done]
  rw [afterTurn_of_agentStep h.safe hstep]
  exact ⟨stopped_eq_false.mpr h.safe, rfl⟩

end

/-- An agent that has a turn from `n` on has a first one. -/
theorem exists_first_turn {f : Schedule} {a : Agent} {n : Nat} (h : ∃ m, n ≤ m ∧ f m = a) :
    ∃ m, n ≤ m ∧ f m = a ∧ ∀ j, n ≤ j → j < m → f j ≠ a := by
  classical
  obtain ⟨hle, ha⟩ := Nat.find_spec h
  exact ⟨Nat.find h, hle, ha, fun j hj hlt hfj => Nat.find_min h hlt ⟨hj, hfj⟩⟩

section
variable {s : State} {f : Schedule} {p : Program}

/-- Until DEC or HOST has a step, a decompression stands where it is. -/
theorem Decompressing.until {m n : Nat} (h : Decompressing (s.runTo f p m)) (hn : m ≤ n)
    (quiet : ∀ j, m ≤ j → j < n → (f j = .dec → (s.runTo f p m).decBusy = false) ∧
      (f j = .host → (s.runTo f p m).dec.st ≠ .done)) :
    Decompressing (s.runTo f p n) ∧ (s.runTo f p n).dec = (s.runTo f p m).dec := by
  induction n, hn using Nat.le_induction with
  | base => exact ⟨h, rfl⟩
  | succ n hmn ih =>
    obtain ⟨hn, hdec⟩ := ih fun j hj hlt => quiet j hj (by omega)
    obtain ⟨idle, blocked⟩ := quiet n hmn (by omega)
    rw [decBusy_eq_false_iff, ← hdec, ← decBusy_eq_false_iff] at idle
    rw [← hdec] at blocked
    obtain ⟨hnext, hdec'⟩ := hn.afterTurn_quiet (p n) idle blocked
    exact ⟨hnext, hdec'.trans hdec⟩

/-- Once DEC is done, HOST's next turn is the return. -/
theorem Decompressing.returns_of_done {n : Nat} (h : Decompressing (s.runTo f p n)) (hturns : HostTurns f)
    (done : (s.runTo f p n).dec.st = .done) : s.hostReturns f p := by
  obtain ⟨m, hm, hfm, hfirst⟩ := exists_first_turn (hturns n)
  obtain ⟨hwait, hdec⟩ := h.until hm fun j hj hlt =>
    ⟨fun _ => decBusy_eq_false_iff.mpr (.inr done), fun hfj => absurd hfj (hfirst j hj hlt)⟩
  have hreturn := hwait.afterTurn_host (p m) (by rw [hdec]; exact done)
  rw [← hfm] at hreturn
  exact ⟨m + 1, hreturn⟩

/-- In a weakly fair run DEC's work comes to an end: HOST returns, or a fault is recorded (R85, R300). -/
theorem Decompressing.returns {n : Nat} (h : Decompressing (s.runTo f p n)) (hfair : WeaklyFair f p s)
    (hturns : HostTurns f) : s.hostReturns f p ∨ ∃ n, (s.runTo f p n).fault.valid = true := by
  induction hw : (s.runTo f p n).decWork using Nat.strong_induction_on generalizing n with
  | _ w ih =>
    cases busy : (s.runTo f p n).decBusy with
    | false =>
      obtain ⟨_, hidle, _⟩ := h.host
      exact .inl (h.returns_of_done hturns ((decBusy_eq_false_iff.mp busy).resolve_left (hidle h.wait)))
    | true =>
      obtain ⟨_, notDone⟩ := decBusy_iff.mp busy
      obtain ⟨m, hm, hfm, hfirst⟩ := exists_first_turn (hfair.dec n (stopped_eq_false.mpr h.safe) busy)
      obtain ⟨hwait, hdec⟩ := h.until hm fun j hj hlt => ⟨fun hfj => absurd hfj (hfirst j hj hlt), fun _ => notDone⟩
      have hbusy : (s.runTo f p m).decBusy = true := by rw [decBusy_iff, hdec, ← decBusy_iff]; exact busy
      have hturn := hwait.afterTurn_dec (p m) hbusy
      rw [← hfm, ← runTo_succ] at hturn
      rcases hturn with hfault | ⟨hnext, hless⟩
      · exact .inr ⟨m + 1, hfault⟩
      · refine ih _ ?_ hnext rfl
        rwa [State.decWork, State.decWork, hdec, ← State.decWork, ← State.decWork, hw] at hless

end

/-- Settles O23: the return is HOST's step, and in a fair run DEC's work comes to an end. -/
theorem decompressReturnsWhenDone : Obligations.DecompressReturnsWhenDone := by
  refine ⟨fun s hs turn wait done => ?_, fun f p s hs hhost hdec hfair hturns wait => ?_⟩
  · rw [step_of_turn hs turn, agentStep]
    simp [hostStep, wait, done]
  · exact Decompressing.returns (n := 0) ⟨hs, wait, hhost, hdec⟩ hfair hturns

/-! ## The stream and the buffer in memory (R15, R130) -/

section
variable {s t : State}

@[simp] theorem length_inputWords (s : State) : s.inputWords.length = s.dec.inLen.toNat := by
  simp [State.inputWords]

@[simp] theorem length_outputWords (s : State) : s.outputWords.length = s.dec.outLen.toNat := by
  simp [State.outputWords]

theorem getElem?_inputWords {i : Nat} (h : i < s.dec.inLen.toNat) : s.inputWords[i]? = some (s.streamWord i) := by
  simp [State.inputWords, h]

theorem getD_inputWords {i : Nat} (h : i < s.dec.inLen.toNat) : s.inputWords.getD i 0 = s.streamWord i := by
  rw [List.getD_eq_getElem?_getD, getElem?_inputWords h, Option.getD_some]

/-- A word of the stream and the words behind it. -/
theorem drop_inputWords {i : Nat} (h : i < s.dec.inLen.toNat) :
    s.inputWords.drop i = s.streamWord i :: s.inputWords.drop (i + 1) := by
  have hi : i < s.inputWords.length := by rwa [length_inputWords]
  rw [List.drop_eq_getElem_cons hi]
  congr 1
  exact Option.some.inj ((List.getElem?_eq_getElem hi).symm.trans (getElem?_inputWords h))

/-- The slot written reads back as the value, and every other slot as before. -/
theorem slot_of_slotWritten {v : U16} (mem : t.mem = s.slotWritten v) (outBase : t.dec.outBase = s.dec.outBase)
    (j : Nat) : t.slot j = if j = s.dec.cur.toNat then v else s.slot j := by
  simp only [State.slot, Dec.outAddr, mem, outBase, State.slotWritten]
  split
  · next h =>
    have hv : (zext32 v).toNat % 256 ^ 2 = v.toNat := by
      rw [zext32, BitVec.toNat_setWidth_of_le (by decide)]
      exact Nat.mod_eq_of_lt v.isLt
    rw [h, Memory.read_write, hv, BitVec.ofNat_toNat, BitVec.setWidth_eq]
  · next h => rw [Memory.read_write_apart _ _ _ _ _ _ (by omega)]

theorem outputWords_of_slotWritten {v : U16} (mem : t.mem = s.slotWritten v) (outBase : t.dec.outBase = s.dec.outBase)
    (outLen : t.dec.outLen = s.dec.outLen) : t.outputWords = s.outputWords.set s.dec.cur.toNat v := by
  refine List.ext_getElem (by simp [outLen]) fun j hj _ => ?_
  simp only [State.outputWords, List.getElem_map, List.getElem_range, List.getElem_set,
    slot_of_slotWritten mem outBase, eq_comm (a := s.dec.cur.toNat)]

end

/-! ## DEC's turns one after another (R76, R142) -/

/-- `k` turns of DEC lead from `s` to `t`, whatever turns are given after them. -/
def DecTurns (k : Nat) (s t : State) : Prop :=
  ∀ l, core.run k { s with tape := List.replicate k .dec ++ l } = .next { t with tape := l }

theorem DecTurns.refl (s : State) : DecTurns 0 s s := fun _ => rfl

theorem DecTurns.trans {m n : Nat} {s t u : State} (h : DecTurns m s t) (k : DecTurns n t u) :
    DecTurns (m + n) s u := by
  intro l
  rw [List.replicate_add, List.append_assoc]
  exact run_append (h _) (k l)

/-- The state DEC's step starts from at its turn, the turns `l` given after it. -/
abbrev State.decTurn (s : State) (l : List Agent) : State := { s with tape := l, turns := s.turns + 1 }

/-- A turn of DEC is what DEC attempts, settled. -/
theorem DecTurns.of_settle {s t : State} (hs : s.safe)
    (h : ∀ l, settle (s.decTurn l) (s.decTurn l).decAttempt = .next { t with tape := l }) : DecTurns 1 s t := by
  intro l
  have hstep := step_of_turn (s := { s with tape := List.replicate 1 .dec ++ l }) (a := .dec) hs rfl
  rw [run_one, hstep, agentStep, decStep_eq]
  exact h l

/-- What DEC's steps without a fault keep: the parameters, where the stream and the buffer are, and every byte outside
the buffer. -/
structure DecMoves (s t : State) : Prop where
  turns : ∃ k, DecTurns k s t
  fault : t.fault = s.fault
  refused : t.refused = s.refused
  cfg : t.cfg = s.cfg
  inBase : t.dec.inBase = s.dec.inBase
  inLen : t.dec.inLen = s.dec.inLen
  outBase : t.dec.outBase = s.dec.outBase
  outLen : t.dec.outLen = s.dec.outLen
  byte : ∀ x, (x < s.dec.outBase.toNat ∨ s.dec.outBase.toNat + 2 * s.dec.outLen.toNat ≤ x) →
    t.mem.byte x = s.mem.byte x

section
variable {s t u : State}

theorem DecMoves.refl (s : State) : DecMoves s s :=
  ⟨⟨0, .refl s⟩, rfl, rfl, rfl, rfl, rfl, rfl, rfl, fun _ _ => rfl⟩

theorem DecMoves.trans (h : DecMoves s t) (k : DecMoves t u) : DecMoves s u where
  turns := by
    obtain ⟨m, hm⟩ := h.turns
    obtain ⟨n, hn⟩ := k.turns
    exact ⟨m + n, hm.trans hn⟩
  fault := k.fault.trans h.fault
  refused := k.refused.trans h.refused
  cfg := k.cfg.trans h.cfg
  inBase := k.inBase.trans h.inBase
  inLen := k.inLen.trans h.inLen
  outBase := k.outBase.trans h.outBase
  outLen := k.outLen.trans h.outLen
  byte x hx := (k.byte x (by rwa [h.outBase, h.outLen])).trans (h.byte x hx)

theorem DecMoves.safe (h : DecMoves s t) (hs : s.safe) : t.safe := by
  rw [State.safe, h.fault, h.refused]
  exact hs

/-- DEC does not write its own stream: the two ranges share no byte (R133). -/
theorem DecMoves.inputWords (h : DecMoves s t) (ranges : s.rangesChecked) : t.inputWords = s.inputWords := by
  obtain ⟨_, _, _, _, happart⟩ := (decompressCheck_eq_none ..).mp ranges
  rw [shareNoByte_iff] at happart
  rw [State.inputWords, State.inputWords, h.inLen]
  refine List.map_congr_left fun i hi => ?_
  have hi : i < s.dec.inLen.toNat := List.mem_range.mp hi
  simp only [State.streamWord, Dec.inAddr, h.inBase]
  rw [Memory.read_congr _ _ _ _ fun x hlo hhi => h.byte x (by omega)]

/-- A turn that changes registers of DEC only, not the ranges. -/
theorem DecMoves.of_registers {d : Dec} (hs : s.safe)
    (attempt : ∀ l, (s.decTurn l).decAttempt = .ok { s.decTurn l with dec := d })
    (inBase : d.inBase = s.dec.inBase) (inLen : d.inLen = s.dec.inLen) (outBase : d.outBase = s.dec.outBase)
    (outLen : d.outLen = s.dec.outLen) : DecMoves s { s with turns := s.turns + 1, dec := d } :=
  ⟨⟨1, .of_settle hs fun l => by rw [attempt l]; rfl⟩, rfl, rfl, rfl, inBase, inLen, outBase, outLen, fun _ _ => rfl⟩

/-- `s` after DEC's turn has written `v` to the slot at the cursor and taken the registers `d`. -/
abbrev State.afterSlot (s : State) (v : U16) (d : Dec) : State :=
  { s with turns := s.turns + 1, mem := s.slotWritten v, dec := d }

theorem DecMoves.of_slot {v : U16} {d : Dec} (turn : DecTurns 1 s (s.afterSlot v d))
    (cur : s.dec.cur.toNat < s.dec.outLen.toNat) (inBase : d.inBase = s.dec.inBase) (inLen : d.inLen = s.dec.inLen)
    (outBase : d.outBase = s.dec.outBase) (outLen : d.outLen = s.dec.outLen) : DecMoves s (s.afterSlot v d) :=
  ⟨⟨1, turn⟩, rfl, rfl, rfl, inBase, inLen, outBase, outLen, fun x hx =>
    Memory.byte_write_outside _ _ _ _ _ (by simp only [Dec.outAddr]; omega)⟩

/-- DEC's turn in LIT: one literal is written (R138). -/
theorem decMoves_literal (hs : s.safe) (hk : s.cfg.wf) (inv : DecInv s) (st : s.dec.st = .lit) :
    DecMoves s (s.afterSlot (s.streamWord s.dec.ip.toNat) (s.dec.afterLiteral (s.streamWord s.dec.ip.toNat))) := by
  refine .of_slot (.of_settle hs fun l => ?_) (inv.cur_lt_outLen (.inl st)) rfl rfl rfl rfl
  have hattempt : (s.decTurn l).decAttempt = .ok (literalOp (s.streamWord s.dec.ip.toNat) (s.decTurn l)) := by
    rw [State.decAttempt, st]; rfl
  rw [hattempt, settle_ok, literalOp_eq (s := s.decTurn l) inv hk st]
  rfl

/-- DEC's turn in REP: the last literal is written once more (R138). -/
theorem decMoves_repeat (hs : s.safe) (hk : s.cfg.wf) (inv : DecInv s) (st : s.dec.st = .rep) :
    DecMoves s (s.afterSlot s.dec.last s.dec.afterRepeat) := by
  refine .of_slot (.of_settle hs fun l => ?_) (inv.cur_lt_outLen (.inr st)) rfl rfl rfl rfl
  have hattempt : (s.decTurn l).decAttempt = .ok (repeatOp (s.decTurn l)) := by
    rw [State.decAttempt, st]
  rw [hattempt, settle_ok, repeatOp_eq (s := s.decTurn l) inv hk st]
  rfl

end

/-! ## The slots of a record (R137, R138) -/

/-- DEC's turns from `s` to `t` end the record it is in: they read `words` more stream words and write `slots` from the
cursor on. -/
structure EndsRecord (s t : State) (words : Nat) (slots : List U16) : Prop where
  moves : DecMoves s t
  inv : DecInv t
  st : t.dec.st = .ctrl ∨ t.dec.st = .done
  n : t.dec.n = s.dec.n
  ip : t.dec.ip.toNat = s.dec.ip.toNat + words
  cur : t.dec.cur.toNat = s.dec.cur.toNat + slots.length
  output : t.outputWords = overwrite s.outputWords s.dec.cur.toNat slots

section
variable {s t u : State}

theorem EndsRecord.nil (inv : DecInv s) (st : s.dec.st = .ctrl ∨ s.dec.st = .done) : EndsRecord s s 0 [] :=
  ⟨.refl s, inv, st, rfl, rfl, rfl, (overwrite_nil ..).symm⟩

/-- One slot, and then the rest of the record. -/
theorem EndsRecord.cons {v : U16} {d : Dec} {w words : Nat} {slots : List U16} (first : DecMoves s (s.afterSlot v d))
    (n : d.n = s.dec.n) (ip : d.ip.toNat = s.dec.ip.toNat + w) (cur : d.cur.toNat = s.dec.cur.toNat + 1)
    (inside : s.dec.cur.toNat < s.dec.outLen.toNat) (rest : EndsRecord (s.afterSlot v d) t words slots) :
    EndsRecord s t (w + words) (v :: slots) where
  moves := first.trans rest.moves
  inv := rest.inv
  st := rest.st
  n := rest.n.trans n
  ip := by rw [rest.ip, ip, Nat.add_assoc]
  cur := by rw [rest.cur, cur, List.length_cons, Nat.add_assoc, Nat.add_comm 1]
  output := by
    rw [rest.output, cur, outputWords_of_slotWritten rfl first.outBase first.outLen,
      overwrite_cons _ _ (by rwa [length_outputWords])]

/-- At the end of a record DEC is in CTRL or DONE (R139). -/
theorem st_of_record_end {d : Dec} {p : Prop} [Decidable p] (h : d.st = if p then .done else .ctrl) :
    d.st = .ctrl ∨ d.st = .done := by
  split at h
  · exact .inr h
  · exact .inl h

/-- DEC in REP writes the last literal as often as `dec.r` says. -/
theorem exists_endsRecord_of_rep (hs : s.safe) (hk : s.cfg.wf) (inv : DecInv s) (st : s.dec.st = .rep) :
    ∃ t, EndsRecord s t 0 (List.replicate s.dec.r.toNat s.dec.last) := by
  induction hr : s.dec.r.toNat generalizing s with
  | zero =>
    obtain ⟨_, _, _, _, hrep, _⟩ := inv
    obtain ⟨hr1, _⟩ := hrep st
    omega
  | succ m ih =>
    have first := decMoves_repeat hs hk inv st
    have inv' : DecInv (s.afterSlot s.dec.last s.dec.afterRepeat) := inv.afterRepeat st rfl rfl
    have hcur := toNat_cur_add_one (inv.cur_lt_n (.inr st))
    have hr' : (s.dec.r - 1).toNat = m := by rw [toNat_byte_sub_one (by omega), hr]; rfl
    have rest : ∃ t, EndsRecord (s.afterSlot s.dec.last s.dec.afterRepeat) t 0 (List.replicate m s.dec.last) := by
      by_cases h1 : s.dec.r = 1
      · obtain rfl : m = 0 := by rw [← hr', h1]; rfl
        exact ⟨_, .nil inv' (st_of_record_end (Dec.afterRepeat_record_end h1))⟩
      · exact ih (first.safe hs) hk inv' (Dec.afterRepeat_more h1) hr'
    obtain ⟨t, rest⟩ := rest
    exact ⟨t, .cons first rfl rfl hcur (inv.cur_lt_outLen (.inr st)) rest⟩

/-- The first literal of a record and the slots of its rest. -/
theorem recordSlots_cons (v : U16) {lits : List U16} (h : lits ≠ []) (r : Nat) :
    recordSlots (v :: lits) r = v :: recordSlots lits r := by
  obtain ⟨w, ws, rfl⟩ := List.exists_cons_of_ne_nil h
  simp [recordSlots]

theorem recordSlots_singleton (v : U16) (r : Nat) : recordSlots [v] r = v :: List.replicate r v := by
  simp [recordSlots]

/-- DEC in LIT writes the `dec.d` literals that come next in the stream, then the last of them `dec.r` more times. -/
theorem exists_endsRecord_of_lit (hs : s.safe) (hk : s.cfg.wf) (inv : DecInv s) (st : s.dec.st = .lit) :
    ∃ t, EndsRecord s t s.dec.d.toNat
      (recordSlots ((s.inputWords.drop s.dec.ip.toNat).take s.dec.d.toNat) s.dec.r.toNat) := by
  induction hd : s.dec.d.toNat generalizing s with
  | zero =>
    obtain ⟨_, _, _, hlit, _⟩ := inv
    obtain ⟨hd1, _⟩ := hlit st
    omega
  | succ m ih =>
    have ranges := inv.rangesChecked (by simp [st])
    have first := decMoves_literal hs hk inv st
    have hcur := toNat_cur_add_one (inv.cur_lt_n (.inl st))
    have hinside := inv.cur_lt_outLen (.inl st)
    have inv' : DecInv (s.afterSlot (s.streamWord s.dec.ip.toNat)
      (s.dec.afterLiteral (s.streamWord s.dec.ip.toNat))) := inv.afterLiteral st rfl rfl
    have hd' : (s.dec.d - 1).toNat = m := by rw [toNat_byte_sub_one (by omega), hd]; rfl
    obtain ⟨_, _, _, hlit, _⟩ := inv
    obtain ⟨_, hin, _⟩ := hlit st
    have hip : (s.dec.ip + 1).toNat = s.dec.ip.toNat + 1 := toNat_add_one (by decide) (by omega)
    rw [drop_inputWords (by omega), List.take_succ_cons, Nat.add_comm m 1]
    by_cases h1 : s.dec.d = 1
    · obtain rfl : m = 0 := by rw [← hd', h1]; rfl
      rw [List.take_zero, recordSlots_singleton]
      by_cases h0 : s.dec.r = 0
      · rw [h0]
        exact ⟨_, .cons first rfl hip hcur hinside
          (.nil inv' (st_of_record_end (Dec.afterLiteral_record_end h1 h0)))⟩
      · obtain ⟨t, rest⟩ := exists_endsRecord_of_rep (first.safe hs) hk inv' (Dec.afterLiteral_repeats h1 h0)
        exact ⟨t, .cons first rfl hip hcur hinside rest⟩
    · obtain ⟨t, rest⟩ := ih (first.safe hs) hk inv' (Dec.afterLiteral_more h1) hd'
      have hd2 : 2 ≤ s.dec.d.toNat := by bv_omega
      have hne : (s.inputWords.drop (s.dec.ip.toNat + 1)).take m ≠ [] :=
        List.ne_nil_of_length_pos (by simp; omega)
      have hip' : (s.dec.afterLiteral (s.streamWord s.dec.ip.toNat)).ip.toNat = s.dec.ip.toNat + 1 := hip
      rw [first.inputWords ranges, hip'] at rest
      rw [recordSlots_cons _ hne]
      exact ⟨t, .cons first rfl hip hcur hinside rest⟩

end

/-! ## DEC's turns compute Decompress (R132, R142) -/

/-- DEC's turns lead from `s` to `t`, and there to what Decompress gives: DONE with its buffer, or its fault. -/
def Delivers (s t : State) : Except StreamFault (List U16) → Prop
  | .ok O => DecMoves s t ∧ t.dec.st = .done ∧ t.outputWords = O
  | .error (f, info) => (∃ k, DecTurns k s t) ∧ t.fault = ⟨true, f.code, info⟩

section
variable {s t u : State} {result : Except StreamFault (List U16)}

theorem Delivers.of_moves (h : DecMoves s u) (k : Delivers u t result) : Delivers s t result := by
  match result, k with
  | .ok O, ⟨moves, done, output⟩ => exact ⟨h.trans moves, done, output⟩
  | .error (f, info), ⟨⟨n, turns⟩, fault⟩ =>
    obtain ⟨m, hm⟩ := h.turns
    exact ⟨⟨m + n, hm.trans turns⟩, fault⟩

/-- DEC's turn raises a fault (R294). -/
theorem exists_delivers_of_trap {f : FaultCode} {info : U32} (hs : s.safe)
    (h : ∀ l, (s.decTurn l).decAttempt = .error (.raise f info)) : ∃ t, Delivers s t (.error (f, info)) := by
  have hvalid := hs.1
  refine ⟨{ s with turns := s.turns + 1, fault := ⟨true, f.code, info⟩ }, ⟨1, .of_settle hs fun l => ?_⟩, rfl⟩
  rw [h l, settle_error, trap_raise, raise_of_no_fault (s := s.decTurn l) hvalid]

/-- What the record loop of Decompress gives from where DEC stands (R132). -/
def State.loopResult (s : State) (fuel : Nat) : Except StreamFault (List U16) :=
  decompressLoop s.inputWords s.dec.n.toNat fuel s.dec.ip.toNat s.dec.cur.toNat s.outputWords

/-- A DEC that is done has delivered the loop's result (R139). -/
theorem delivers_of_done {fuel : Nat} (inv : DecInv s) (st : s.dec.st = .done) :
    Delivers s s (s.loopResult fuel) := by
  obtain ⟨_, _, _, _, _, hdone⟩ := inv
  obtain ⟨hcur, _⟩ := hdone st
  rw [State.loopResult, decompressLoop_done hcur.ge]
  exact ⟨.refl s, st, rfl⟩

theorem DecInv.ctrl_cur_lt (inv : DecInv s) (st : s.dec.st = .ctrl) : s.dec.cur.toNat < s.dec.n.toNat := by
  obtain ⟨_, _, hctrl, _⟩ := inv
  obtain ⟨hcur, _⟩ := hctrl st
  exact hcur

theorem decAttempt_of_ctrl (st : s.dec.st = .ctrl) (l : List Agent) :
    (s.decTurn l).decAttempt = controlOp (s.streamWord s.dec.ip.toNat) (s.decTurn l) := by
  rw [State.decAttempt, st]
  rfl

theorem ofNat_toNat_self (v : U32) : BitVec.ofNat 32 v.toNat = v := by
  rw [BitVec.ofNat_toNat, BitVec.setWidth_eq]

/-- A control word missing (R135). -/
theorem exists_delivers_of_ended {fuel : Nat} (hs : s.safe) (inv : DecInv s) (st : s.dec.st = .ctrl)
    (hend : s.dec.inLen.toNat ≤ s.dec.ip.toNat) : ∃ t, Delivers s t (s.loopResult fuel) := by
  rw [State.loopResult, decompressLoop_ended (inv.ctrl_cur_lt st) (by rwa [length_inputWords]), ofNat_toNat_self]
  exact exists_delivers_of_trap hs fun l => (decAttempt_of_ctrl st l).trans (controlOp_ended _ hend)

/-- DEC's turns from `s` to `u` do what one more round of the record loop does. -/
structure LoopRound (s u : State) (fuel : Nat) : Prop where
  moves : DecMoves s u
  inv : DecInv u
  st : u.dec.st = .ctrl ∨ u.dec.st = .done
  ip : s.dec.ip.toNat < u.dec.ip.toNat
  result : s.loopResult (fuel + 1) = u.loopResult fuel

/-- A SKIP: the overrun, or the cursor moved (R136). -/
theorem skip_delivers_or_round (fuel : Nat) (hs : s.safe) (inv : DecInv s) (st : s.dec.st = .ctrl)
    (hin : s.dec.ip.toNat < s.dec.inLen.toNat) (hd : ctrlDataLength (s.streamWord s.dec.ip.toNat) = 0) :
    (∃ t, Delivers s t (s.loopResult (fuel + 1))) ∨ ∃ u, LoopRound s u fuel := by
  have attempt (l) : (s.decTurn l).decAttempt =
      skipOp (ctrlRunLength (s.streamWord s.dec.ip.toNat)) (s.decTurn l) :=
    (decAttempt_of_ctrl st l).trans (if_pos hd)
  have hw := getD_inputWords hin
  have hloop := decompressLoop_skip (fuel := fuel) (O := s.outputWords) (inv.ctrl_cur_lt st)
    (by rwa [length_inputWords]) (by rw [hw, hd]; rfl) (congrArg (fun w => (ctrlRunLength w).toNat) hw)
  rw [← State.loopResult] at hloop
  generalize ctrlRunLength (s.streamWord s.dec.ip.toNat) = r at attempt hloop
  by_cases hr : s.dec.n.toNat < s.dec.cur.toNat + r.toNat
  · rw [hloop, if_pos hr, ofNat_toNat_self]
    exact .inl (exists_delivers_of_trap hs fun l => (attempt l).trans (skipOp_overrun hin hr))
  · have hfits := not_lt.mp hr
    have hip : (s.dec.afterSkip r).ip.toNat = s.dec.ip.toNat + 1 := toNat_add_one (by decide) (by omega)
    have inv' := skipOp_decInv inv st (skipOp_fits hin hfits)
    refine .inr ⟨_, .of_registers (d := s.dec.afterSkip r) hs
      (fun l => (attempt l).trans (skipOp_fits (s := s.decTurn l) hin hfits)) rfl rfl rfl rfl,
      inv', st_of_record_end rfl, by simp only [hip]; omega, ?_⟩
    rw [hloop, if_neg hr, ← toNat_cur_add hfits, ← hip]
    rfl

/-- A LITRUN: the payload missing, the overrun, or its slots written (R137, R138). -/
theorem litrun_delivers_or_round (fuel : Nat) (hs : s.safe) (hk : s.cfg.wf) (inv : DecInv s) (st : s.dec.st = .ctrl)
    (hin : s.dec.ip.toNat < s.dec.inLen.toNat) (hd : ctrlDataLength (s.streamWord s.dec.ip.toNat) ≠ 0) :
    (∃ t, Delivers s t (s.loopResult (fuel + 1))) ∨ ∃ u, LoopRound s u fuel := by
  have attempt (l) : (s.decTurn l).decAttempt = litrunOp (ctrlRunLength (s.streamWord s.dec.ip.toNat))
      (ctrlDataLength (s.streamWord s.dec.ip.toNat)) (s.decTurn l) :=
    (decAttempt_of_ctrl st l).trans (if_neg hd)
  have hw := getD_inputWords hin
  have hd0 : (ctrlDataLength (s.streamWord s.dec.ip.toNat)).toNat ≠ 0 := fun h => hd (BitVec.eq_of_toNat_eq h)
  have hloop := decompressLoop_litrun (fuel := fuel) (O := s.outputWords) (inv.ctrl_cur_lt st)
    (by rwa [length_inputWords]) (congrArg (fun w => (ctrlDataLength w).toNat) hw) hd0
    (congrArg (fun w => (ctrlRunLength w).toNat) hw)
  rw [← State.loopResult, length_inputWords] at hloop
  generalize ctrlRunLength (s.streamWord s.dec.ip.toNat) = r at attempt hloop
  generalize ctrlDataLength (s.streamWord s.dec.ip.toNat) = d at attempt hloop hd hd0
  by_cases hpayload : s.dec.inLen.toNat < s.dec.ip.toNat + 1 + d.toNat
  · rw [hloop, if_pos hpayload, ofNat_toNat_self]
    exact .inl (exists_delivers_of_trap hs fun l => (attempt l).trans (litrunOp_payload hin hpayload))
  rw [if_neg hpayload] at hloop
  have hpresent := not_lt.mp hpayload
  by_cases hr : s.dec.n.toNat < s.dec.cur.toNat + d.toNat + r.toNat
  · rw [hloop, if_pos hr, ofNat_toNat_self]
    exact .inl (exists_delivers_of_trap hs fun l => (attempt l).trans (litrunOp_overrun hpresent hr))
  have hfits := not_lt.mp hr
  have moves := DecMoves.of_registers (d := s.dec.afterLitrun r d) hs
    (fun l => (attempt l).trans (litrunOp_fits (s := s.decTurn l) hpresent hfits)) rfl rfl rfl rfl
  have inv' := litrunOp_decInv inv st hd (litrunOp_fits hpresent hfits)
  have hip : (s.dec.afterLitrun r d).ip.toNat = s.dec.ip.toNat + 1 := toNat_add_one (by decide) (by omega)
  obtain ⟨u, hu⟩ : ∃ u, EndsRecord { s with turns := s.turns + 1, dec := s.dec.afterLitrun r d } u d.toNat
      (recordSlots ((s.inputWords.drop (s.dec.ip.toNat + 1)).take d.toNat) r.toNat) := by
    rw [← hip]
    exact exists_endsRecord_of_lit (moves.safe hs) hk inv' rfl
  have hlits : ((s.inputWords.drop (s.dec.ip.toNat + 1)).take d.toNat).length = d.toNat := by
    rw [List.length_take, List.length_drop, length_inputWords]; omega
  have hu_ip : u.dec.ip.toNat = s.dec.ip.toNat + 1 + d.toNat := hu.ip.trans (congrArg (· + d.toNat) hip)
  have hu_cur : u.dec.cur.toNat = s.dec.cur.toNat + d.toNat + r.toNat :=
    hu.cur.trans (by rw [length_recordSlots, hlits, Nat.add_assoc]; rfl)
  have moves' := moves.trans hu.moves
  refine .inr ⟨u, moves', hu.inv, hu.st, by omega, ?_⟩
  rw [hloop, if_neg hr, State.loopResult, moves'.inputWords (inv.rangesChecked (by simp [st])), hu_ip, hu_cur, hu.n,
    hu.output]
  rfl

/-- DEC's turns from the start of a record, or from DONE, deliver what the record loop gives (R135 to R139). -/
theorem exists_delivers_loop {fuel : Nat} (hs : s.safe) (hk : s.cfg.wf) (inv : DecInv s)
    (st : s.dec.st = .ctrl ∨ s.dec.st = .done) (hfuel : s.dec.inLen.toNat ≤ s.dec.ip.toNat + fuel) :
    ∃ t, Delivers s t (s.loopResult fuel) := by
  rcases st with st | st
  case inr => exact ⟨s, delivers_of_done inv st⟩
  induction fuel generalizing s with
  | zero => exact exists_delivers_of_ended hs inv st hfuel
  | succ fuel ih =>
    rcases Nat.lt_or_ge s.dec.ip.toNat s.dec.inLen.toNat with hin | hend
    case inr => exact exists_delivers_of_ended hs inv st hend
    have hround : (∃ t, Delivers s t (s.loopResult (fuel + 1))) ∨ ∃ u, LoopRound s u fuel := by
      by_cases hd : ctrlDataLength (s.streamWord s.dec.ip.toNat) = 0
      · exact skip_delivers_or_round fuel hs inv st hin hd
      · exact litrun_delivers_or_round fuel hs hk inv st hin hd
    rcases hround with ended | ⟨u, hu⟩
    · exact ended
    · have hku : u.cfg.wf := by rw [hu.moves.cfg]; exact hk
      have next : ∃ t, Delivers u t (u.loopResult fuel) := by
        rcases hu.st with hctrl | hdone
        · exact ih (hu.moves.safe hs) hku hu.inv (by rw [hu.moves.inLen]; have := hu.ip; omega) hctrl
        · exact ⟨u, delivers_of_done hu.inv hdone⟩
      obtain ⟨t, ht⟩ := next
      rw [hu.result]
      exact ⟨t, ht.of_moves hu.moves⟩

/-- DEC's turns from the header deliver what Decompress gives (R134). -/
theorem exists_delivers_decompressRef (hs : s.safe) (hk : s.cfg.wf) (inv : DecInv s) (st : s.dec.st = .hdr) :
    ∃ t, Delivers s t (decompressRef s.inputWords s.outputWords) := by
  have attempt (l) : (s.decTurn l).decAttempt = hdrOp (s.streamWord s.dec.ip.toNat) (s.decTurn l) := by
    rw [State.decAttempt, st]; rfl
  obtain ⟨hip, hcur⟩ := inv.hdr_registers st
  have hip0 : s.dec.ip.toNat = 0 := by rw [hip]; rfl
  rcases Nat.eq_zero_or_pos s.dec.inLen.toNat with hend | hin
  · have hS : s.inputWords = [] := List.eq_nil_of_length_eq_zero (by simpa)
    rw [hS, decompressRef, ← hip]
    exact exists_delivers_of_trap hs fun l => (attempt l).trans (hdrOp_ended (by simp only; omega))
  · have hS : s.inputWords = s.streamWord 0 :: s.inputWords.drop 1 := drop_inputWords (i := 0) hin
    rw [hip0] at attempt
    rw [hS, decompressRef, ← hS, length_outputWords]
    split
    · next hlong =>
      exact exists_delivers_of_trap hs fun l => (attempt l).trans (hdrOp_exceeds (by simp only; omega) hlong)
    · next hfits =>
      have hin' : s.dec.ip.toNat < s.dec.inLen.toNat := by omega
      have inv' := hdrOp_decInv inv st (hdrOp_fits (n := s.streamWord 0) hin' (not_lt.mp hfits))
      have moves := DecMoves.of_registers (d := s.dec.afterHeader (s.streamWord 0)) hs
        (fun l => (attempt l).trans (hdrOp_fits (s := s.decTurn l) hin' (not_lt.mp hfits))) rfl rfl rfl rfl
      obtain ⟨t, ht⟩ := exists_delivers_loop (fuel := s.inputWords.length) (moves.safe hs) hk inv'
        (st_of_record_end rfl) (by rw [length_inputWords]; exact Nat.le_add_left ..)
      have hip' : (s.dec.afterHeader (s.streamWord 0)).ip.toNat = 1 := by
        rw [Dec.afterHeader, hip]; rfl
      have hcur' : (s.dec.afterHeader (s.streamWord 0)).cur.toNat = 0 := by
        rw [Dec.afterHeader, hcur]; rfl
      rw [State.loopResult, hip', hcur'] at ht
      exact ⟨t, ht.of_moves moves⟩

end

/-- Settles O25: DEC's turns deliver what Decompress gives, the rest of the schedule untouched. -/
theorem decStepsComputeDecompress : Obligations.DecStepsComputeDecompress := by
  intro s hs hk inv st
  obtain ⟨t, ht⟩ := exists_delivers_decompressRef hs hk inv st
  refine ⟨fun O hO => ?_, fun f info herr => ?_⟩
  · rw [hO] at ht
    obtain ⟨moves, done, output⟩ := ht
    obtain ⟨k, turns⟩ := moves.turns
    exact ⟨k, { t with tape := s.tape }, turns s.tape, done, output, moves.safe hs, rfl, moves.byte⟩
  · rw [herr] at ht
    obtain ⟨⟨k, turns⟩, fault⟩ := ht
    exact ⟨k, { t with tape := s.tape }, turns s.tape, fault⟩

end Sys2Proof.Machine

/-! SUPPORT and the settled statements of the family 41_codec_compress.md: the length of what Compress writes (O29), the
control words in it (O30), and the document's vectors (O31). The first two are read off the records Compress writes
(`compress_eq_records`). -/

namespace Sys2Proof.Machine

/-! ## The length of the records (R168) -/

/-- A record takes at most two words for each pixel: its literals, and a control word that the first literal pays for. -/
theorem EncRecord.length_words_le (e : EncRecord) : e.words.length ≤ 2 * e.pixels.length := by
  have hpos := e.length_lits_pos
  rw [e.length_words, e.length_pixels]
  omega

theorem length_words_records_le (rs : List EncRecord) :
    (rs.flatMap EncRecord.words).length ≤ 2 * (rs.flatMap EncRecord.pixels).length := by
  induction rs with
  | nil => simp
  | cons e rs ih =>
    have he := e.length_words_le
    simp only [List.flatMap_cons, List.length_append]
    omega

/-- What Compress gives, where it gives anything (R161): the header and then records that stand for the pixels. -/
theorem eq_records_of_compress {k : Config} {X S : List U16} (h : compress k X = some S) :
    ∃ rs : List EncRecord, S = BitVec.ofNat 16 X.length :: rs.flatMap EncRecord.words ∧
      X = rs.flatMap EncRecord.pixels := by
  have hX : X.length ≤ nMax := by
    by_contra hlong
    rw [compress, if_pos (not_le.mp hlong)] at h
    cases h
  obtain ⟨rs, hcompress, hpixels⟩ := compress_eq_records k hX
  exact ⟨rs, Option.some.inj (h.symm.trans hcompress), hpixels⟩

/-- Settles O29: no record takes more than two words for a pixel, and the header is one word. -/
theorem compressBound : Obligations.CompressBound := by
  intro k X S h
  obtain ⟨rs, rfl, hpixels⟩ := eq_records_of_compress h
  rw [List.length_cons, hpixels]
  exact Nat.succ_le_succ (length_words_records_le rs)

/-! ## The control words of the records (R166, R167) -/

/-- A decoder that starts at a record boundary meets control words of the records only: each gives the number of
literals behind it, so that the next word looked at is again a control word. -/
theorem mem_controlWordsFrom_records {S pre : List U16} {n fuel cur : Nat} {rs : List EncRecord} {w : U16}
    (hS : S = pre ++ rs.flatMap EncRecord.words) (hw : w ∈ controlWordsFrom S n fuel pre.length cur) :
    ∃ e ∈ rs, w = ctrl (BitVec.ofNat 8 e.lits.length) (BitVec.ofNat 8 e.reps) := by
  induction fuel generalizing pre cur rs with
  | zero => simp [controlWordsFrom] at hw
  | succ fuel ih =>
    cases rs with
    | nil => simp [controlWordsFrom, hS] at hw
    | cons e rs =>
      have hctrl : S.getD pre.length 0 = ctrl (BitVec.ofNat 8 e.lits.length) (BitVec.ofNat 8 e.reps) := by
        simp [hS, EncRecord.words]
      rw [controlWordsFrom] at hw
      split at hw
      · simp at hw
      · simp only [hctrl, e.dataLength] at hw
        rcases List.mem_cons.mp hw with rfl | hw
        · exact ⟨e, List.mem_cons_self, rfl⟩
        · have hnext : pre.length + 1 + e.lits.length = (pre ++ e.words).length := by
            rw [List.length_append, e.length_words, Nat.add_assoc]
          rw [hnext] at hw
          obtain ⟨e', he', rfl⟩ := ih (rs := rs) (by rw [hS, List.flatMap_cons, List.append_assoc]) hw
          exact ⟨e', List.mem_cons_of_mem e he', rfl⟩

/-- Settles O30: the control words met are those of records, and every record has a literal. -/
theorem compressEmitsNoSkip : Obligations.CompressEmitsNoSkip := by
  intro k X S h w hw
  obtain ⟨rs, rfl, -⟩ := eq_records_of_compress h
  obtain ⟨e, -, rfl⟩ := mem_controlWordsFrom_records
    (pre := [BitVec.ofNat 16 X.length]) (rs := rs) rfl hw
  intro hzero
  exact e.length_lits_pos.ne' (e.dataLength.symm.trans (congrArg BitVec.toNat hzero))

/-! ## A run of one value (R163) -/

section
variable {k : Config} {e : Encoder} {v : U16} {m : Nat}

/-- Another pixel of the last value is one more repeat. -/
theorem Encoder.push_repeat (hlast : e.lit.getLast? = some v) (hrep : e.rep < rlenMax) :
    e.push k v = ⟨e.out, e.lit, e.rep + 1⟩ := by
  simp [push, hlast, hrep]

/-- Past `RLEN_MAX` repeats the record is written and the pixel starts a new run. -/
theorem Encoder.push_repeat_full (hlast : e.lit.getLast? = some v) (hrep : rlenMax ≤ e.rep) :
    e.push k v = ⟨e.emit, [v], 0⟩ := by
  simp [push, hlast, hrep.not_gt]

theorem Encoder.foldl_push_replicate (hlast : e.lit.getLast? = some v) (hrep : e.rep + m ≤ rlenMax) :
    (List.replicate m v).foldl (Encoder.push k) e = ⟨e.out, e.lit, e.rep + m⟩ := by
  induction m with
  | zero => rfl
  | succ m ih =>
    rw [List.replicate_succ', List.foldl_append, ih (by omega), List.foldl_cons, List.foldl_nil,
      push_repeat (e := ⟨e.out, e.lit, e.rep + m⟩) hlast (Nat.lt_of_succ_le hrep), Nat.add_assoc]

/-- From the start of a run, its first value is the literal and the others are repeats. -/
theorem Encoder.foldl_push_run (out : List U16) (hm : m ≤ rlenMax) :
    (List.replicate (m + 1) v).foldl (Encoder.push k) ⟨out, [], 0⟩ = ⟨out, [v], m⟩ := by
  rw [List.replicate_succ, List.foldl_cons, show push k ⟨out, [], 0⟩ v = ⟨out, [v], 0⟩ from rfl,
    foldl_push_replicate rfl (by simpa), Nat.zero_add]

/-- A run that fits in a record is compressed to that one record. -/
theorem compress_run (hm : m ≤ rlenMax) :
    compress k (List.replicate (m + 1) v) =
      some [BitVec.ofNat 16 (m + 1), ctrl 1 (BitVec.ofNat 8 m), v] := by
  have hshort : ¬ nMax < m + 1 := by simp only [nMax, rlenMax] at *; omega
  rw [compress, List.length_replicate, if_neg hshort, Encoder.foldl_push_run _ hm]
  rfl

/-- A run of one pixel too many for a record takes a second one. -/
theorem compress_run_one_more :
    compress k (List.replicate (rlenMax + 2) v) =
      some [BitVec.ofNat 16 (rlenMax + 2), ctrl 1 (BitVec.ofNat 8 rlenMax), v, ctrl 1 0, v] := by
  have hshort : ¬ nMax < rlenMax + 2 := by decide
  rw [compress, List.length_replicate, if_neg hshort, List.replicate_succ', List.foldl_append,
    Encoder.foldl_push_run _ le_rfl, List.foldl_cons, List.foldl_nil, Encoder.push_repeat_full rfl le_rfl]
  rfl

end

/-- Settles O31: the two long vectors are runs of 256 and 257 pixels; the short ones are run. -/
theorem compressVectors : Obligations.CompressVectors := by
  refine ⟨rfl, rfl, ?twoRuns, ?fourValues, compress_run le_rfl, compress_run_one_more⟩
  case twoRuns => decide
  case fourValues => decide

end Sys2Proof.Machine

/-! SUPPORT and the settled statements of the family 42_block_transfer.md: the commands of the engine (O34, O35, O38,
O41), the element step (O39), the channels' invariant (O42), whole transfers (O43), channels in either order (O44), and
the return of WAIT (O37). -/

namespace Sys2Proof.Machine

/-! ## The pointers of a transfer (R185, R186, R201) -/

theorem SizeOk.pos {n : Nat} (h : SizeOk n) : 0 < n := by rcases h with rfl | rfl | rfl <;> decide

/-- A pointer that advances passes over every element (R185). -/
theorem rangeLen_increments (n esize : Nat) : rangeLen true n esize = n * esize := by
  by_cases h : n = 0 <;> simp [rangeLen, h]

/-- How far element `k` of a transfer lies from its first: nowhere when the pointer stands still (R185). -/
def elementOffset (inc : Bool) (k esize : Nat) : Nat := if inc then k * esize else 0

/-- A pointer register after `k` elements (R186). -/
def pointerAfter (inc : Bool) (p : U32) (esize k : Nat) : U32 := if inc then p + BitVec.ofNat 32 (k * esize) else p

/-- The elements after the first `k` lie within the range of the transfer. -/
theorem elementOffset_add_rangeLen_le (inc : Bool) (esize : Nat) {k n : Nat} (hk : k ≤ n) :
    elementOffset inc k esize + rangeLen inc (n - k) esize ≤ rangeLen inc n esize := by
  cases inc
  · simp only [elementOffset, rangeLen, Bool.false_eq_true, if_false]
    split <;> split <;> omega
  · rw [rangeLen_increments, rangeLen_increments, elementOffset, if_pos rfl, ← Nat.add_mul, Nat.add_sub_cancel' hk]

/-- Element `k` lies within the range of the transfer. -/
theorem elementOffset_add_esize_le (inc : Bool) (esize : Nat) {k n : Nat} (hk : k < n) :
    elementOffset inc k esize + esize ≤ rangeLen inc n esize :=
  (Nat.add_le_add_left (le_rangeLen inc esize (by omega)) _).trans (elementOffset_add_rangeLen_le inc esize hk.le)

/-- A pointer with elements left has not wrapped (R201). -/
theorem toNat_pointerAfter {inc : Bool} {p : U32} {esize k n : Nat} (hpos : 0 < esize) (hk : k < n)
    (fits : p.toNat + rangeLen inc n esize ≤ 2 ^ 32) :
    (pointerAfter inc p esize k).toNat = p.toNat + elementOffset inc k esize := by
  have hinside := elementOffset_add_esize_le inc esize hk
  cases inc
  · rfl
  · simp only [elementOffset, pointerAfter, if_true] at hinside ⊢
    rw [BitVec.toNat_add, BitVec.toNat_ofNat, Nat.add_mod_mod, Nat.mod_eq_of_lt (by omega)]

theorem pointerAfter_succ (inc : Bool) (p : U32) (esize : BitVec 3) (k : Nat) :
    pointerAfter inc p esize.toNat (k + 1) =
      if inc then pointerAfter inc p esize.toNat k + zext32 esize else pointerAfter inc p esize.toNat k := by
  cases inc
  · rfl
  · have hsize : zext32 esize = BitVec.ofNat 32 esize.toNat := by simp [zext32]
    simp [pointerAfter, hsize, Nat.succ_mul, BitVec.ofNat_add, BitVec.add_assoc]

/-- A channel's registers after `k` of its elements (R186). -/
def Channel.afterElements (ch : Channel) (k : Nat) : Channel :=
  { ch with
    rdPtr := pointerAfter ch.incRd ch.rdPtr ch.esize.toNat k
    wrPtr := pointerAfter ch.incWr ch.wrPtr ch.esize.toNat k
    remaining := ch.remaining - BitVec.ofNat 32 k }

theorem Channel.afterElements_zero (ch : Channel) : ch.afterElements 0 = ch := by
  have hptr (inc : Bool) (p : U32) (esize : Nat) : pointerAfter inc p esize 0 = p := by
    cases inc <;> simp [pointerAfter]
  simp [Channel.afterElements, hptr]

theorem Channel.advance_afterElements (ch : Channel) (k : Nat) :
    (ch.afterElements k).advance = ch.afterElements (k + 1) := by
  simp only [Channel.afterElements, Channel.advance, pointerAfter_succ, BitVec.ofNat_add, ← BitVec.sub_sub]
  rfl

theorem Channel.advance_eq (ch : Channel) : ch.advance = ch.afterElements 1 := by
  rw [← ch.advance_afterElements 0, ch.afterElements_zero]

theorem Channel.toNat_remaining_afterElements {ch : Channel} {k : Nat} (hk : k ≤ ch.remaining.toNat) :
    (ch.afterElements k).remaining.toNat = ch.remaining.toNat - k := by
  have hn := ch.remaining.isLt
  have hofNat : (BitVec.ofNat 32 k).toNat = k := by rw [BitVec.toNat_ofNat, Nat.mod_eq_of_lt (by omega)]
  simp only [Channel.afterElements]
  rw [BitVec.toNat_sub_of_le (by rw [BitVec.le_def, hofNat]; exact hk), hofNat]

theorem toNat_ne_zero {v : U32} (h : v ≠ 0) : v.toNat ≠ 0 := fun h0 => h (BitVec.eq_of_toNat_eq h0)

/-- A channel with an element `k` still to move runs. -/
theorem Channel.running_of_lt {ch : Channel} {k : Nat} (hlt : k < ch.remaining.toNat) : ch.remaining ≠ 0 :=
  fun h0 => by simp [h0] at hlt

/-- A channel runs until it has moved all its elements. -/
theorem Channel.afterElements_running {ch : Channel} {k : Nat} (hlt : k < ch.remaining.toNat) :
    (ch.afterElements k).remaining ≠ 0 := by
  have hleft := Channel.toNat_remaining_afterElements hlt.le
  exact Channel.running_of_lt (k := 0) (by omega)

/-! ## The invariant of one channel (R26, R71, R185, R201) -/

/-- A range that is empty or in a region ends at `2^32` at the latest (R64). -/
theorem add_le_of_admitted {k : Config} {rs : List Region} {a len : Nat} (hk : k.wf) (sub : rs ⊆ k.regions)
    (ha : a ≤ 2 ^ 32) (h : admitted rs a len = true) : a + len ≤ 2 ^ 32 := by
  rcases (admitted_iff ..).mp h with rfl | ⟨r, hr, _, hend⟩
  · exact ha
  · obtain ⟨⟨hbits, _, _, hplaced⟩, _⟩ := hk
    obtain ⟨_, hspace⟩ := hplaced r (sub hr)
    have hpow : 2 ^ k.addrBits ≤ 2 ^ 32 := Nat.pow_le_pow_right (by decide) hbits
    omega

theorem bteReadable_subset (k : Config) : bteReadable k ⊆ k.regions := by simp [bteReadable, Config.regions]

theorem bteWritable_subset (k : Config) : bteWritable k ⊆ k.regions := by simp [bteWritable, Config.regions]

section
variable {k : Config} {ch : Channel}

/-- A channel that is configured and does not run promises its registers only (R26). -/
theorem ChannelInv.of_idle (idle : ch.remaining = 0) (size : SizeOk ch.esize.toNat)
    (src : aligned ch.src.toNat ch.esize.toNat = true) (dst : aligned ch.dst.toNat ch.esize.toNat = true) :
    ChannelInv k ch :=
  ⟨absurd idle, fun _ => ⟨legalSize_iff.mpr size, src, dst⟩, absurd idle⟩

theorem ChannelInv.size (h : ChannelInv k ch) (running : ch.remaining ≠ 0) : SizeOk ch.esize.toNat := by
  obtain ⟨hconfigured, hregisters, _⟩ := h
  obtain ⟨hsize, _⟩ := hregisters (hconfigured running)
  exact legalSize_iff.mp hsize

/-- What a running channel has still to read ends at `2^32` at the latest. -/
theorem ChannelInv.read_fits (h : ChannelInv k ch) (hk : k.wf) (running : ch.remaining ≠ 0) :
    ch.rdPtr.toNat + rangeLen ch.incRd ch.remaining.toNat ch.esize.toNat ≤ 2 ^ 32 := by
  obtain ⟨_, _, hrun⟩ := h
  obtain ⟨_, _, hread, _⟩ := hrun running
  exact add_le_of_admitted hk (bteReadable_subset k) ch.rdPtr.isLt.le hread

/-- What a running channel has still to write ends at `2^32` at the latest. -/
theorem ChannelInv.write_fits (h : ChannelInv k ch) (hk : k.wf) (running : ch.remaining ≠ 0) :
    ch.wrPtr.toNat + rangeLen ch.incWr ch.remaining.toNat ch.esize.toNat ≤ 2 ^ 32 := by
  obtain ⟨_, _, hrun⟩ := h
  obtain ⟨_, _, _, hwrite⟩ := hrun running
  exact add_le_of_admitted hk (bteWritable_subset k) ch.wrPtr.isLt.le hwrite

end

theorem aligned_pointerAfter {inc : Bool} {p : U32} {esize j n : Nat} (hpos : 0 < esize) (hj : j < n)
    (fits : p.toNat + rangeLen inc n esize ≤ 2 ^ 32) (h : aligned p.toNat esize = true) :
    aligned (pointerAfter inc p esize j).toNat esize = true := by
  rw [aligned_iff] at h ⊢
  rw [toNat_pointerAfter hpos hj fits]
  cases inc <;> simp [elementOffset, h]

theorem admitted_pointerAfter {rs : List Region} {inc : Bool} {p : U32} {esize j n : Nat} (hpos : 0 < esize)
    (hj : j < n) (fits : p.toNat + rangeLen inc n esize ≤ 2 ^ 32)
    (h : admitted rs p.toNat (rangeLen inc n esize) = true) :
    admitted rs (pointerAfter inc p esize j).toNat (rangeLen inc (n - j) esize) = true := by
  rw [admitted_iff_emptyOrInside] at h ⊢
  rw [toNat_pointerAfter hpos hj fits]
  have hrest := elementOffset_add_rangeLen_le inc esize hj.le
  exact h.part (List.Subset.refl _) (by omega) (by omega)

/-- The elements a running channel has still to move stay where they were admitted, one element after another (R201). -/
theorem ChannelInv.afterElements {k : Config} {ch : Channel} (h : ChannelInv k ch) (hk : k.wf) {j : Nat}
    (hj : j ≤ ch.remaining.toNat) : ChannelInv k (ch.afterElements j) := by
  obtain ⟨hconfigured, hregisters, hrun⟩ := id h
  have hleft := Channel.toNat_remaining_afterElements hj
  have hmore (hne : (ch.afterElements j).remaining ≠ 0) : j < ch.remaining.toNat := by
    have := toNat_ne_zero hne
    omega
  refine ⟨fun hne => hconfigured (Channel.running_of_lt (hmore hne)), hregisters, fun hne => ?_⟩
  have hlt := hmore hne
  have hne := Channel.running_of_lt hlt
  obtain ⟨hrd, hwr, hread, hwrite⟩ := hrun hne
  have hpos := (h.size hne).pos
  have fitsRead := h.read_fits hk hne
  have fitsWrite := h.write_fits hk hne
  rw [hleft]
  exact ⟨aligned_pointerAfter hpos hlt fitsRead hrd, aligned_pointerAfter hpos hlt fitsWrite hwr,
    admitted_pointerAfter hpos hlt fitsRead hread, admitted_pointerAfter hpos hlt fitsWrite hwrite⟩

/-! ## Every step keeps the channels' invariant (R201) -/

section
variable {s t : State}

theorem ChannelsInv.of_eq (hs : ChannelsInv s) (bte : t.bte = s.bte) (cfg : t.cfg = s.cfg) : ChannelsInv t := by
  rw [ChannelsInv, bte, cfg]
  exact hs

/-- An absent channel reads as one after reset, which promises nothing. -/
theorem ChannelsInv.channel (hs : ChannelsInv s) (c : Nat) : ChannelInv s.cfg (s.channel c) := by
  by_cases hc : c < s.bte.length
  · exact hs _ (by simp [State.channel, hc])
  · simpa [State.channel, hc] using channelInv_reset s.cfg

theorem ChannelsInv.setChannel (hs : ChannelsInv s) (c : Nat) {ch : Channel} (h : ChannelInv s.cfg ch) :
    ChannelsInv (s.setChannel c ch) := by
  intro x hx
  rcases List.mem_or_eq_of_mem_set hx with hx | rfl
  · exact hs x hx
  · exact h

/-- A legal size fits the 3 bits of `esize` (R113). -/
theorem toNat_esize {esize : U32} (h : SizeOk esize.toNat) : (esize.setWidth 3).toNat = esize.toNat := by
  rw [BitVec.toNat_setWidth]
  rcases h with h | h | h <;> rw [h]

/-- CONFIGURE checks what it writes, on a channel that does not run (R182). -/
theorem configureOp_channelsInv {scan : Bool} {c src dst esize count opts : U32} (hs : ChannelsInv s)
    (h : configureOp scan c src dst esize count opts s = .ok t) : ChannelsInv t := by
  obtain ⟨hcheck, rfl⟩ := configureOp_eq_ok h
  obtain ⟨_, hsize, _, _, idle, hsrc, hdst⟩ := (configureCheck_eq_none ..).mp hcheck
  have hsize := legalSize_iff.mp hsize
  have hesize := toNat_esize hsize
  refine hs.setChannel _ (.of_idle idle ?_ ?_ ?_) <;> simp only [Channel.configure, hesize]
  · exact hsize
  · exact hsrc
  · exact hdst

/-- START checks the ranges of the elements, from bases that CONFIGURE has aligned (R184, R185). -/
theorem startOp_channelsInv {scan : Bool} {c : U32} (hs : ChannelsInv s) (h : startOp scan c s = .ok t) :
    ChannelsInv t := by
  obtain ⟨hcheck, rfl⟩ := startOp_eq_ok h
  obtain ⟨_, _, hconfigured, _, _, hread, hwrite⟩ := (startCheck_eq_none ..).mp hcheck
  obtain ⟨_, hregisters, _⟩ := hs.channel c.toNat
  obtain ⟨hsize, hsrc, hdst⟩ := hregisters hconfigured
  exact hs.setChannel _ ⟨fun _ => hconfigured, hregisters, fun _ => ⟨hsrc, hdst, hread, hwrite⟩⟩

theorem scanStartOp_channelsInv (hs : ChannelsInv s) (h : scanStartOp s = .ok t) : ChannelsInv t := by
  obtain ⟨u, v, hcfg, hstart, rfl⟩ := scanStartOp_eq_ok h
  exact (startOp_channelsInv (configureOp_channelsInv hs hcfg) hstart).of_eq rfl rfl

/-- An element step leaves the elements after the next one. -/
theorem elementOp_channelsInv (hs : ChannelsInv s) (hk : s.cfg.wf) {c : Nat} (running : (s.channel c).remaining ≠ 0) :
    ChannelsInv (elementOp c s) := by
  have hleft := toNat_ne_zero running
  have hinv := (hs.channel c).afterElements hk (j := 1) (by omega)
  rw [← Channel.advance_eq] at hinv
  exact (ChannelsInv.of_eq (t := s.store _ _ _) hs (by simp) (by simp)).setChannel c (by simpa using hinv)

theorem waitOp_bte {c : U32} (h : waitOp c s = .ok t) : t.bte = s.bte := by
  obtain ⟨_, rfl⟩ := waitOp_eq_ok h
  rfl

theorem vsyncSample_bte (s : State) : (vsyncSample s).bte = s.bte := by
  unfold vsyncSample
  split <;> [skip; split; split] <;> rfl

/-- CONFIGURE, START, SCAN_START and the element step write a channel's registers; nothing else does. -/
theorem Effect.channelsInv {a : Agent} {u t : State} (h : Effect a u t) (hk : u.cfg.wf) (hu : ChannelsInv u) :
    ChannelsInv t := by
  have cfg := h.keepsLegal.cfg
  cases h with
  | untouched h => exact hu.of_eq h.bte cfg
  | hdr _ _ h => obtain ⟨_, _, rfl⟩ := hdrOp_eq_ok h; exact hu
  | skip _ _ h => obtain ⟨_, _, _, _, rfl⟩ := skipOp_eq_ok h; exact hu
  | litrun _ _ h => obtain ⟨_, _, rfl⟩ := litrunOp_eq_ok h; exact hu
  | literal => exact hu.of_eq (by simp [literalOp]) cfg
  | repeated => exact hu.of_eq (by simp [repeatOp]) cfg
  | decompress _ _ _ h => obtain ⟨_, rfl⟩ := decompressOp_eq_ok h; exact hu
  | hostWrite _ _ h => obtain ⟨_, rfl⟩ := hostWriteOp_eq_ok h; exact hu.of_eq (by simp) cfg
  | configure _ _ h rest => exact (configureOp_channelsInv hu h).of_eq rest.bte rest.cfg
  | start _ _ h => exact startOp_channelsInv hu h
  | scanStart _ _ h => exact scanStartOp_channelsInv hu h
  | wait _ _ h rest => exact hu.of_eq (rest.bte.trans (waitOp_bte h)) cfg
  | vsyncWait _ _ h rest => cases h; exact hu.of_eq rest.bte cfg
  | vsyncSample => exact hu.of_eq (vsyncSample_bte u) cfg
  | decompressReturns | waitReturns => exact hu
  | element _ running => exact elementOp_channelsInv hu hk running

end

/-- Settles O42, by the case analysis of what a step can do. -/
theorem stepKeepsChannelInvariant : Obligations.StepKeepsChannelInvariant := by
  intro s t hk hs h
  obtain ⟨_, u, hu, _, _, heffect⟩ := step_cases h
  exact heffect.channelsInv (hu.cfg ▸ hk) (hs.of_eq hu.bte hu.cfg)

/-! ## The element step (R68, R186, R189) -/

section
variable {s : State} {c : Nat}

theorem elementStep_of_running (running : (s.channel c).remaining ≠ 0) : elementStep c s = elementOp c s :=
  if_pos (bne_iff_ne.mpr running)

/-- The value channel `c` writes next: the one at its read pointer, byte-reversed where it swaps (R186, R189). -/
abbrev State.nextElement (s : State) (c : Nat) : U32 := (s.channel c).transform (s.load (s.readAt c) (s.elemSize c))

/-- An element step stores the next element at the write pointer and moves the channel's registers on. -/
theorem elementOp_eq (c : Nat) (s : State) :
    elementOp c s =
      (s.store (s.writeAt c) (s.elemSize c) (s.nextElement c)).setChannel c (s.channel c).advance := rfl

/-- An address outside a region, as the store's test of its place reads it (R68). -/
theorem holds_one_eq_false {r : Region} {a : Nat} (h : ¬inRegion r a) : holds r a 1 = false :=
  Bool.eq_false_iff.mpr (mt holds_one_iff.mp h)

/-- To memory an element step writes the element's bytes and no others. -/
theorem elementOp_memory (memory : ¬inRegion s.cfg.display (s.writeAt c)) :
    WritesOnly s.mem (elementOp c s).mem (s.writeAt c) (s.elemSize c) (s.nextElement c) ∧
      elementOp c s = { s with mem := (elementOp c s).mem, bte := s.bte.set c (s.channel c).advance } := by
  have hplace := holds_one_eq_false memory
  refine ⟨s.store_writesOnly _ _ _ hplace, ?_⟩
  rw [elementOp_eq, s.store_memory _ _ _ hplace]
  rfl

/-- To the display port an element step appends the element to the wire (R68). -/
theorem elementOp_port (port : inRegion s.cfg.display (s.writeAt c)) :
    elementOp c s = { s with
      wire := s.wire ++ lowBytes (s.nextElement c) (s.elemSize c), bte := s.bte.set c (s.channel c).advance } := by
  rw [elementOp_eq, s.store_display _ _ _ (holds_one_iff.mpr port)]
  rfl

end

/-- Settles O39: the step is the channel's, which stores one element, to memory or to the wire. (`elementStep` without
its namespace is the model's function.) -/
theorem Transfer.elementStep : Obligations.ElementStep := by
  rintro s c ch ch' v hs turn rfl running rfl rfl
  have hstep : step s = .next (elementOp c s.passTurn) := by
    rw [step_of_turn hs turn, agentStep, elementStep_of_running (s := s.passTurn) running]
  refine ⟨fun memory => ?memory, fun port => ?port⟩
  case memory =>
    obtain ⟨hwrites, heq⟩ := elementOp_memory (s := s.passTurn) memory
    exact ⟨_, hstep, hwrites, heq⟩
  case port => rw [hstep, elementOp_port (s := s.passTurn) port]; rfl

/-! ## Two channels in either order (R202) -/

/-- Two ranges with no byte in common: a byte of the first is none of the second (R133). -/
theorem outside_of_not_shareByte {a n b m x : Nat} (h : ¬ShareByte a n b m) (hlo : a ≤ x) (hhi : x < a + n) :
    x < b ∨ b + m ≤ x := by
  by_contra hx
  exact h ⟨by omega, by omega, by omega, by omega⟩

/-- A store leaves a value elsewhere as it is. -/
theorem State.load_store_apart (s : State) {a n b m : Nat} (v : U32) (h : ¬ShareByte b m a n) :
    (s.store a n v).load b m = s.load b m := by
  rw [State.load, State.load, Memory.read_congr _ s.mem b m fun x hlo hhi => ?_]
  have := outside_of_not_shareByte h hlo hhi
  rw [State.byte_store, if_neg (by omega)]

/-- Two writes with no byte in common give the same memory in either order. -/
theorem Memory.write_comm {m : Memory} {a n v b k w : Nat} (hm : m.wf) (h : ¬ShareByte a n b k) :
    (m.write a n v).write b k w = (m.write b k w).write a n v := by
  refine Memory.ext_byte _ _ (Memory.write_wf _ _ _ _ (Memory.write_wf _ _ _ _ hm))
    (Memory.write_wf _ _ _ _ (Memory.write_wf _ _ _ _ hm)) fun x => ?_
  simp only [Memory.byte_write]
  by_cases ha : a ≤ x ∧ x < a + n
  · have hb := outside_of_not_shareByte h ha.1 ha.2
    rw [if_neg (by omega : ¬(b ≤ x ∧ x < b + k)), if_pos ha, if_pos ha]
  · rw [if_neg ha, if_neg ha]

/-- Two stores with no byte in common, at most one of them to the display port, may be made in either order. -/
theorem State.store_comm {s : State} {a n b m : Nat} {v w : U32} (hm : s.mem.wf) (h : ¬ShareByte a n b m)
    (port : ¬(inRegion s.cfg.display a ∧ inRegion s.cfg.display b)) :
    (s.store a n v).store b m w = (s.store b m w).store a n v := by
  rw [← holds_one_iff, ← holds_one_iff] at port
  cases ha : holds s.cfg.display a 1 <;> cases hb : holds s.cfg.display b 1
  · simp [State.store, ha, hb, Memory.write_comm hm h]
  · simp [State.store, ha, hb]
  · simp [State.store, ha, hb]
  · exact absurd ⟨ha, hb⟩ port

theorem State.store_setChannel (s : State) (a n : Nat) (v : U32) (c : Nat) (ch : Channel) :
    (s.setChannel c ch).store a n v = (s.store a n v).setChannel c ch := by
  unfold State.store State.setChannel
  split <;> rfl

theorem State.setChannel_comm (s : State) {c d : Nat} (h : c ≠ d) (ch dh : Channel) :
    (s.setChannel c ch).setChannel d dh = (s.setChannel d dh).setChannel c ch := by
  simp only [State.setChannel, List.set_comm ch dh h]

@[simp] theorem State.channel_store (s : State) (a n : Nat) (v : U32) (c : Nat) :
    (s.store a n v).channel c = s.channel c := by
  simp [State.channel]

theorem channel_elementOp_of_ne (s : State) {c d : Nat} (h : c ≠ d) : (elementOp d s).channel c = s.channel c := by
  simp [elementOp_eq, h]

/-- An element step leaves a value as it is that it writes no byte of. -/
theorem load_elementOp_apart {s : State} {d a n : Nat} (h : ¬ShareByte a n (s.writeAt d) (s.elemSize d)) :
    (elementOp d s).load a n = s.load a n :=
  s.load_store_apart _ h

/-- A channel's element step after another's reads and stores what it would have before, where the other writes no byte
of its next element. -/
theorem elementOp_elementOp {s : State} {c d : Nat} (hne : c ≠ d)
    (apart : ¬ShareByte (s.readAt c) (s.elemSize c) (s.writeAt d) (s.elemSize d)) :
    elementOp c (elementOp d s) =
      (((s.store (s.writeAt d) (s.elemSize d) (s.nextElement d)).store (s.writeAt c) (s.elemSize c)
        (s.nextElement c)).setChannel d (s.channel d).advance).setChannel c (s.channel c).advance := by
  rw [elementOp_eq c, State.nextElement, State.writeAt, State.elemSize, State.readAt, channel_elementOp_of_ne s hne,
    load_elementOp_apart apart, elementOp_eq d, State.store_setChannel]

theorem not_shareByte_symm {a n b m : Nat} (h : ¬ShareByte a n b m) : ¬ShareByte b m a n :=
  fun ⟨hm, hn, hba, hab⟩ => h ⟨hn, hm, hab, hba⟩

/-- Settles O44: where both channels run, the stores and the registers commute; where one does not, it has no step. -/
theorem disjointChannelsCommute : Obligations.DisjointChannelsCommute := by
  intro s c d hm hne hwrites hwriteRead hreadWrite hport
  by_cases hc : (s.channel c).remaining = 0
  · have hc' : ((elementStep d s).channel c).remaining = 0 := by
      unfold elementStep
      split
      · rwa [channel_elementOp_of_ne s hne]
      · exact hc
    rw [elementStep_of_not_running hc', elementStep_of_not_running hc]
  by_cases hd : (s.channel d).remaining = 0
  · have hd' : ((elementStep c s).channel d).remaining = 0 := by
      rw [elementStep_of_running hc, channel_elementOp_of_ne s hne.symm, hd]
    rw [elementStep_of_not_running hd', elementStep_of_not_running hd]
  rw [elementStep_of_running hc, elementStep_of_running hd,
    elementStep_of_running (by rwa [channel_elementOp_of_ne s hne]),
    elementStep_of_running (by rwa [channel_elementOp_of_ne s hne.symm]),
    elementOp_elementOp hne hreadWrite, elementOp_elementOp hne.symm (not_shareByte_symm hwriteRead),
    State.store_comm hm (not_shareByte_symm hwrites) (fun h => hport h.symm), State.setChannel_comm _ hne]

/-! ## A channel's turns one after another (R76, R203) -/

section
variable {s : State} {c : Nat}

/-- The state after `k` turns of channel `c` and no other agent, the turns themselves left out. -/
def State.afterElements (s : State) (c k : Nat) : State := (elementStep c)^[k] s

theorem afterElements_zero (s : State) (c : Nat) : s.afterElements c 0 = s := rfl

theorem afterElements_succ (s : State) (c k : Nat) :
    s.afterElements c (k + 1) = elementStep c (s.afterElements c k) :=
  Function.iterate_succ_apply' ..

theorem cfg_elementStep (s : State) (c : Nat) : (elementStep c s).cfg = s.cfg := by
  unfold elementStep
  split
  · simp [elementOp_eq]
  · rfl

theorem cfg_afterElements (s : State) (c k : Nat) : (s.afterElements c k).cfg = s.cfg := by
  induction k with
  | zero => rfl
  | succ k ih => rw [afterElements_succ, cfg_elementStep, ih]

theorem safe_afterElements (hs : s.safe) (c k : Nat) : (s.afterElements c k).safe := by
  induction k with
  | zero => exact hs
  | succ k ih =>
    obtain ⟨_, _, _, _, fault, refused, _⟩ := elementStep_keeps c (s.afterElements c k)
    rw [afterElements_succ, State.safe, fault, refused]
    exact ih

/-- `s` with the turns `l` given and `n` turns taken. -/
abbrev State.withTurns (s : State) (l : List Agent) (n : Nat) : State := { s with tape := l, turns := n }

theorem store_withTurns (s : State) (l : List Agent) (n a len : Nat) (v : U32) :
    (s.withTurns l n).store a len v = (s.store a len v).withTurns l n := by
  have hcfg : (s.withTurns l n).cfg = s.cfg := rfl
  unfold State.store
  rw [hcfg]
  split <;> rfl

/-- An element step reads and writes nothing of the schedule. -/
theorem elementStep_withTurns (s : State) (c : Nat) (l : List Agent) (n : Nat) :
    elementStep c (s.withTurns l n) = (elementStep c s).withTurns l n := by
  have hbusy : (s.withTurns l n).channelBusy c = s.channelBusy c := rfl
  unfold elementStep
  rw [hbusy]
  split
  · rw [elementOp_eq, store_withTurns]
    rfl
  · rfl

/-- Turns given to one channel are its element steps, one after another. -/
theorem run_channel (hs : s.safe) (c k : Nat) (l : List Agent) :
    core.run k (s.withTurns (List.replicate k (.bte c) ++ l) s.turns) =
      .next ((s.afterElements c k).withTurns l (s.turns + k)) := by
  induction k generalizing l with
  | zero => rfl
  | succ k ih =>
    have hlast : step ((s.afterElements c k).withTurns (.bte c :: l) (s.turns + k)) =
        .next ((s.afterElements c (k + 1)).withTurns l (s.turns + (k + 1))) := by
      rw [afterElements_succ, ← elementStep_withTurns]
      exact step_of_turn (a := .bte c) (safe_afterElements hs c k) rfl
    rw [List.replicate_succ', List.append_assoc]
    exact run_append (ih _) ((run_one _).trans hlast)

theorem lt_numCh_of_running (running : (s.channel c).remaining ≠ 0) : c < s.numCh := by
  by_contra hc
  have hc : ¬c < s.bte.length := hc
  simp [State.channel, hc, Channel.reset] at running

/-- After `k` elements the channel's registers have moved on `k` times. -/
theorem channel_afterElements {k : Nat} (hk : k ≤ (s.channel c).remaining.toNat) :
    (s.afterElements c k).channel c = (s.channel c).afterElements k := by
  induction k with
  | zero => rw [afterElements_zero, Channel.afterElements_zero]
  | succ k ih =>
    have hch := ih (by omega)
    have running : ((s.afterElements c k).channel c).remaining ≠ 0 := by
      rw [hch]
      exact Channel.afterElements_running hk
    rw [afterElements_succ, elementStep_of_running running, elementOp_eq, State.channel_setChannel,
      if_pos ⟨rfl, by simpa [State.numCh] using lt_numCh_of_running running⟩, hch, Channel.advance_afterElements]

end

/-! ## What a transfer moves (R77, R203) -/

section
variable {s : State} {c : Nat}

/-- Where element `k` of channel `c`'s transfer is read (R185). -/
def Channel.readAddr (ch : Channel) (k : Nat) : Nat := ch.rdPtr.toNat + elementOffset ch.incRd k ch.esize.toNat

/-- Where element `k` of a transfer is written (R185). -/
def Channel.writeAddr (ch : Channel) (k : Nat) : Nat := ch.wrPtr.toNat + elementOffset ch.incWr k ch.esize.toNat

/-- What the channel has still to read and what it has still to write share no byte (R205). -/
abbrev Channel.rangesApart (ch : Channel) : Prop :=
  ¬ShareByte ch.rdPtr.toNat (rangeLen ch.incRd ch.remaining.toNat ch.esize.toNat) ch.wrPtr.toNat
    (rangeLen ch.incWr ch.remaining.toNat ch.esize.toNat)

/-- The byte is none of those the channel has still to write (R185). -/
def Channel.writesPast (ch : Channel) (x : Nat) : Prop :=
  x < ch.wrPtr.toNat ∨ ch.wrPtr.toNat + rangeLen ch.incWr ch.remaining.toNat ch.esize.toNat ≤ x

/-- Element `k` of a channel's transfer, as memory holds it now: the value the channel writes for it (R186). -/
def State.element (s : State) (ch : Channel) (k : Nat) : U32 :=
  ch.transform (s.load (ch.readAddr k) ch.esize.toNat)

theorem toNat_load_lt (s : State) (a n : Nat) : (s.load a n).toNat < 256 ^ n := by
  have hread := s.mem.read_lt a n
  rw [State.load, BitVec.toNat_ofNat]
  exact (Nat.mod_le _ _).trans_lt hread

/-- The byte swap keeps a value's size (R189). -/
theorem toNat_byterev_lt {v : U32} {n : Nat} (hn : SizeOk n) (hv : v.toNat < 256 ^ n) :
    (byterev v n).toNat < 256 ^ n := by
  rcases hn with rfl | rfl | rfl
  · exact hv
  · exact byterev_two_lt v
  · exact (byterev v 4).isLt

theorem toNat_element_lt {ch : Channel} (hsize : SizeOk ch.esize.toNat) (k : Nat) :
    (s.element ch k).toNat < 256 ^ ch.esize.toNat := by
  have hload := toNat_load_lt s (ch.readAddr k) ch.esize.toNat
  unfold State.element Channel.transform
  split
  · exact toNat_byterev_lt hsize hload
  · exact hload

/-- A value stored in memory is read back (R62). -/
theorem load_store_same {a n : Nat} {v : U32} (memory : ¬inRegion s.cfg.display a) (hv : v.toNat < 256 ^ n) :
    (s.store a n v).load a n = v := by
  rw [s.store_memory _ _ _ (holds_one_eq_false memory), State.load, Memory.read_write, Nat.mod_eq_of_lt hv,
    ofNat_toNat_self]

/-- The step of element `k` of a transfer: it stores at that element's place what memory holds at its source. -/
theorem afterElements_succ_eq (hk : s.cfg.wf) (inv : ChannelInv s.cfg (s.channel c)) {k : Nat}
    (hlt : k < (s.channel c).remaining.toNat) :
    s.afterElements c (k + 1) =
      ((s.afterElements c k).store ((s.channel c).writeAddr k) (s.channel c).esize.toNat
        ((s.afterElements c k).element (s.channel c) k)).setChannel c ((s.channel c).afterElements (k + 1)) := by
  have running := Channel.running_of_lt hlt
  have hpos := (inv.size running).pos
  have hch := channel_afterElements hlt.le
  have hrunning : ((s.afterElements c k).channel c).remaining ≠ 0 := by
    rw [hch]
    exact Channel.afterElements_running hlt
  have hread : (s.afterElements c k).readAt c = (s.channel c).readAddr k := by
    rw [State.readAt, hch]
    exact toNat_pointerAfter hpos hlt (inv.read_fits hk running)
  have hwrite : (s.afterElements c k).writeAt c = (s.channel c).writeAddr k := by
    rw [State.writeAt, hch]
    exact toNat_pointerAfter hpos hlt (inv.write_fits hk running)
  rw [afterElements_succ, elementStep_of_running hrunning, elementOp_eq, State.nextElement, hread, hwrite,
    State.elemSize, hch, Channel.advance_afterElements]
  rfl

/-- After `k` elements moved to memory: the wire and every byte outside the destination are as they were, and the
elements whose place no later one takes stand in it. -/
structure MovedToMemory (s : State) (c k : Nat) (t : State) : Prop where
  wire : t.wire = s.wire
  byte : ∀ x, (s.channel c).writesPast x → t.mem.byte x = s.mem.byte x
  load : ∀ j, j < k → (s.channel c).incWr = true ∨ j + 1 = k →
    t.load ((s.channel c).writeAddr j) (s.channel c).esize.toNat = s.element (s.channel c) j

/-- Every element is written within the destination. -/
theorem writeAddr_bounds (ch : Channel) {k : Nat} (hlt : k < ch.remaining.toNat) :
    ch.wrPtr.toNat ≤ ch.writeAddr k ∧ ch.writeAddr k + ch.esize.toNat ≤
      ch.wrPtr.toNat + rangeLen ch.incWr ch.remaining.toNat ch.esize.toNat := by
  have := elementOffset_add_esize_le ch.incWr ch.esize.toNat hlt
  simp only [Channel.writeAddr]
  omega

/-- Where the destination increments, an element is written behind the earlier ones. -/
theorem writeAddr_add_esize_le {ch : Channel} (inc : ch.incWr = true) {j k : Nat} (hjk : j < k) :
    ch.writeAddr j + ch.esize.toNat ≤ ch.writeAddr k := by
  have := Nat.mul_le_mul_right ch.esize.toNat hjk
  rw [Nat.succ_mul] at this
  simp only [Channel.writeAddr, elementOffset, inc, if_true]
  omega

/-- Every element's source is as it was while bytes outside the destination are, where the ranges share no byte. -/
theorem element_of_source_kept {t : State} {ch : Channel} {k : Nat} (apart : ch.rangesApart)
    (hlt : k < ch.remaining.toNat) (byte : ∀ x, ch.writesPast x → t.mem.byte x = s.mem.byte x) :
    t.element ch k = s.element ch k := by
  have hinside := elementOffset_add_esize_le ch.incRd ch.esize.toNat hlt
  rw [State.element, State.element, State.load, State.load, Memory.read_congr _ s.mem _ _ fun x hlo hhi => byte x ?_]
  simp only [Channel.readAddr] at hlo hhi
  exact outside_of_not_shareByte apart (by omega) (by omega)

/-- A transfer to memory whose ranges share no byte, element by element. -/
theorem movedToMemory (hk : s.cfg.wf) (inv : ChannelInv s.cfg (s.channel c))
    (memory : ∀ k, k < (s.channel c).remaining.toNat → ¬inRegion s.cfg.display ((s.channel c).writeAddr k))
    (apart : (s.channel c).rangesApart) {k : Nat} (hle : k ≤ (s.channel c).remaining.toNat) :
    MovedToMemory s c k (s.afterElements c k) := by
  induction k with
  | zero => exact ⟨rfl, fun _ _ => rfl, nofun⟩
  | succ k ih =>
    obtain ⟨wire, byte, load⟩ := ih (by omega)
    have hsize : SizeOk (s.channel c).esize.toNat := inv.size (Channel.running_of_lt hle)
    obtain ⟨hfirst, hlast⟩ := writeAddr_bounds (s.channel c) hle
    have hmem := memory k hle
    rw [← cfg_afterElements s c k] at hmem
    have hplace := holds_one_eq_false hmem
    rw [afterElements_succ_eq hk inv hle, element_of_source_kept apart hle byte]
    refine ⟨?wire, fun x hx => ?byte, fun j hj hstays => ?load⟩
    case wire => rw [State.setChannel_wire, State.store_memory (h := hplace), wire]
    case byte =>
      rw [State.setChannel_mem, State.byte_store, if_neg, byte x hx]
      rcases hx with hx | hx <;> omega
    case load =>
      change ((s.afterElements c k).store _ _ _).load _ _ = _
      rcases Nat.lt_or_ge j k with hjk | hjk
      · have hinc := hstays.resolve_right (by omega)
        have hbehind := writeAddr_add_esize_le hinc hjk
        rw [State.load_store_apart _ _ fun ⟨_, _, _, _⟩ => by omega]
        exact load j hjk (.inl hinc)
      · obtain rfl : j = k := by omega
        exact load_store_same hmem (toNat_element_lt hsize j)

/-- A transfer to the display port: the elements join the wire in order, and memory is as it was. -/
theorem movedToPort (hk : s.cfg.wf) (inv : ChannelInv s.cfg (s.channel c))
    (port : ∀ k, k < (s.channel c).remaining.toNat → inRegion s.cfg.display ((s.channel c).writeAddr k))
    {k : Nat} (hle : k ≤ (s.channel c).remaining.toNat) :
    (s.afterElements c k).mem = s.mem ∧
      (s.afterElements c k).wire =
        s.wire ++ (List.range k).flatMap fun j => lowBytes (s.element (s.channel c) j) (s.channel c).esize.toNat := by
  induction k with
  | zero => exact ⟨rfl, by simp [afterElements_zero]⟩
  | succ k ih =>
    obtain ⟨mem, wire⟩ := ih (by omega)
    have hport := port k hle
    rw [← holds_one_iff, ← cfg_afterElements s c k] at hport
    have hvalue : (s.afterElements c k).element (s.channel c) k = s.element (s.channel c) k := by
      rw [State.element, State.element, State.load, State.load, mem]
    rw [afterElements_succ_eq hk inv hle, hvalue, State.store_display (h := hport)]
    exact ⟨mem, by simp [wire, List.range_succ]⟩

/-- What lies wholly inside regions of memory lies outside the display port (R64). -/
theorem not_inRegion_display {k : Config} (hk : k.wf) {a len x : Nat} (h : Inside [k.stage, k.fb] a len) (hlo : a ≤ x)
    (hhi : x < a + len) : ¬inRegion k.display x := by
  obtain ⟨r, hr, hbase, hend⟩ := h
  have hwritable : r ∈ hostWritable k := by
    simp only [hostWritable, List.mem_cons, List.not_mem_nil, or_false] at hr ⊢
    tauto
  exact not_inRegion_of_apart (apart_display_of_wf hk hwritable) ⟨by omega, by omega⟩

end

/-- Settles O43: the channel's turns move element after element, to memory or to the port. -/
theorem transferMovesEveryElement : Obligations.TransferMovesEveryElement := by
  rintro s c ch element hs hk rfl inv hcount hsrc hdst helement
  rw [← hsrc] at helement
  rw [← hcount, ← hsrc, ← hdst]
  have helement : element = s.element (s.channel c) := funext helement
  have hbounds {k : Nat} (hlt : k < (s.channel c).remaining.toNat) := writeAddr_bounds (s.channel c) hlt
  have hpos {k : Nat} (hlt : k < (s.channel c).remaining.toNat) : 0 < (s.channel c).esize.toNat :=
    (inv.size (Channel.running_of_lt hlt)).pos
  refine ⟨_, run_channel hs c _ s.tape, ?remaining, safe_afterElements hs c _, rfl, fun inside apart => ?memory,
    fun inside => ?port⟩
  case remaining =>
    have hleft := Channel.toNat_remaining_afterElements (le_refl (s.channel c).remaining.toNat)
    rw [← channel_afterElements le_rfl, Nat.sub_self] at hleft
    exact BitVec.eq_of_toNat_eq hleft
  case memory =>
    have memory (k : Nat) (hlt : k < (s.channel c).remaining.toNat) :
        ¬inRegion s.cfg.display ((s.channel c).writeAddr k) := by
      obtain ⟨hfirst, hlast⟩ := hbounds hlt
      have hsize := hpos hlt
      exact not_inRegion_display hk (inside (Channel.running_of_lt hlt)) hfirst (by omega)
    have hmoved := movedToMemory hk inv memory apart le_rfl
    rw [helement]
    refine ⟨hmoved.wire, fun inc j hj => ?_, fun fixed running => ?_, hmoved.byte⟩
    · have hload := hmoved.load j hj (.inl inc)
      rwa [Channel.writeAddr, inc] at hload
    · have hleft := toNat_ne_zero running
      have hload := hmoved.load ((s.channel c).remaining.toNat - 1) (by omega) (.inr (by omega))
      rwa [Channel.writeAddr, fixed] at hload
  case port =>
    rw [helement]
    refine movedToPort hk inv (fun k hlt => ?_) le_rfl
    obtain ⟨hfirst, hlast⟩ := hbounds hlt
    have hsize := hpos hlt
    obtain ⟨r, hr, hbase, hend⟩ := inside (Channel.running_of_lt hlt)
    obtain rfl : r = s.cfg.display := by simpa using hr
    exact ⟨by omega, by omega⟩

/-! ## CONFIGURE (R182, R183, R295) -/

/-- Two bits that differ and no bit above bit 4 (R183). -/
theorem optsValid_iff {opts : U32} : optsValid opts = true ↔ OptsOk opts := by
  have hshift : opts >>> 5 = 0 ↔ opts.toNat < 32 := by
    rw [← BitVec.toNat_inj, BitVec.toNat_ushiftRight, Nat.shiftRight_eq_div_pow]
    simp [Nat.div_eq_zero_iff]
  rw [optsValid, Bool.and_eq_true, bne_iff_ne, beq_iff_eq, hshift]

/-- The operands of CONFIGURE that name a channel, a size and options are legal (R113, R182). -/
structure ConfigureOperands (s : State) (c esize opts : U32) : Prop where
  channel : c.toNat < s.numCh
  size : SizeOk esize.toNat
  opts : OptsOk opts

section
variable {scan : Bool} {c src dst esize count opts : U32} {s : State}

theorem configureCheck_invalid (h : s.numCh ≤ c.toNat ∨ ¬SizeOk esize.toNat ∨ ¬OptsOk opts) :
    configureCheck scan c src dst esize opts s = some (.raise .configInvalid c) := by
  rcases h with hc | hsize | hopts
  · exact if_pos hc
  · simp [configureCheck, mt legalSize_iff.mp hsize]
  · simp [configureCheck, mt optsValid_iff.mp hopts]

theorem configureCheck_reserved (h : ConfigureOperands s c esize opts) (reserved : c.toNat = scanCh) :
    configureCheck false c src dst esize opts s = some .refuse := by
  rw [configureCheck, if_neg (Nat.not_le.mpr h.channel)]
  simp [legalSize_iff.mpr h.size, optsValid_iff.mpr h.opts, reserved]

/-- What is left to check of legal operands that name a channel HOST may configure. -/
theorem configureCheck_of_operands (h : ConfigureOperands s c esize opts) (notScan : c.toNat ≠ scanCh) :
    configureCheck scan c src dst esize opts s =
      if (s.channel c.toNat).remaining ≠ 0 then some (.raise .bteBusy c)
      else if src.toNat % esize.toNat ≠ 0 then some (.raise .misaligned src)
      else if dst.toNat % esize.toNat ≠ 0 then some (.raise .misaligned dst)
      else none := by
  rw [configureCheck, if_neg (Nat.not_le.mpr h.channel)]
  simp [legalSize_iff.mpr h.size, optsValid_iff.mpr h.opts, notScan, aligned]

theorem configureCheck_busy (h : ConfigureOperands s c esize opts) (notScan : c.toNat ≠ scanCh)
    (busy : (s.channel c.toNat).remaining ≠ 0) :
    configureCheck scan c src dst esize opts s = some (.raise .bteBusy c) := by
  rw [configureCheck_of_operands h notScan, if_pos busy]

theorem configureCheck_src_misaligned (h : ConfigureOperands s c esize opts) (notScan : c.toNat ≠ scanCh)
    (idle : (s.channel c.toNat).remaining = 0) (hsrc : src.toNat % esize.toNat ≠ 0) :
    configureCheck scan c src dst esize opts s = some (.raise .misaligned src) := by
  rw [configureCheck_of_operands h notScan, if_neg (not_not.mpr idle), if_pos hsrc]

theorem configureCheck_dst_misaligned (h : ConfigureOperands s c esize opts) (notScan : c.toNat ≠ scanCh)
    (idle : (s.channel c.toNat).remaining = 0) (hsrc : src.toNat % esize.toNat = 0)
    (hdst : dst.toNat % esize.toNat ≠ 0) :
    configureCheck scan c src dst esize opts s = some (.raise .misaligned dst) := by
  rw [configureCheck_of_operands h notScan, if_neg (not_not.mpr idle), if_neg (not_not.mpr hsrc), if_pos hdst]

theorem configureCheck_pass (h : ConfigureOperands s c esize opts) (notScan : c.toNat ≠ scanCh)
    (idle : (s.channel c.toNat).remaining = 0) (hsrc : src.toNat % esize.toNat = 0)
    (hdst : dst.toNat % esize.toNat = 0) : configureCheck scan c src dst esize opts s = none := by
  rw [configureCheck_of_operands h notScan, if_neg (not_not.mpr idle), if_neg (not_not.mpr hsrc),
    if_neg (not_not.mpr hdst)]

theorem configureOp_of_pass (h : configureCheck scan c src dst esize opts s = none) :
    configureOp scan c src dst esize count opts s =
      .ok (s.setChannel c.toNat ((s.channel c.toNat).configure src dst esize (countField s.cfg count) opts)) := by
  rw [configureOp, h]

theorem configureOp_of_trap {e : Trap} (h : configureCheck scan c src dst esize opts s = some e) :
    configureOp scan c src dst esize count opts s = .error e := by
  rw [configureOp, h]

theorem exec_configure_of_pass (h : configureCheck false c src dst esize opts s = none) :
    exec (.configure c src dst esize count opts) s =
      .next (s.setChannel c.toNat ((s.channel c.toNat).configure src dst esize (countField s.cfg count) opts)) := by
  rw [exec, execConfigure, configureOp_of_pass h, settle_ok]

theorem exec_configure_of_trap {e : Trap} (h : configureCheck false c src dst esize opts s = some e) :
    exec (.configure c src dst esize count opts) s = .next (s.trap e) := by
  rw [exec, execConfigure, configureOp_of_trap h, settle_error]

end

/-- Settles O34, check by check. -/
theorem configureCommand : Obligations.ConfigureCommand := by
  intro c src dst esize count opts s
  refine ⟨fun hc hsize hopts hscan idle hsrc hdst => ?pass, fun hbits => ?count, fun hinvalid => ?invalid,
    fun hc hsize hopts hscan busy => ?busy, fun hc hsize hopts hscan idle hsrc => ?src,
    fun hc hsize hopts hscan idle hsrc hdst => ?dst⟩
  case pass => exact exec_configure_of_pass (configureCheck_pass ⟨hc, hsize, hopts⟩ hscan idle hsrc hdst)
  case count => exact countField_eq_self (by rw [hbits]; exact count.isLt)
  case invalid => exact exec_configure_of_trap (configureCheck_invalid hinvalid)
  case busy => exact exec_configure_of_trap (configureCheck_busy ⟨hc, hsize, hopts⟩ hscan busy)
  case src => exact exec_configure_of_trap (configureCheck_src_misaligned ⟨hc, hsize, hopts⟩ hscan idle hsrc)
  case dst => exact exec_configure_of_trap (configureCheck_dst_misaligned ⟨hc, hsize, hopts⟩ hscan idle hsrc hdst)

/-! ## START (R184, R185, R190, R295) -/

/-- The channel may be started but for its ranges: it is configured and idle, and asks for no chain or is let ignore it
(R184, R190). -/
structure Channel.Startable (ch : Channel) (k : Config) : Prop where
  configured : ch.configured = true
  idle : ch.remaining = 0
  chain : ch.chain = true → k.chainNoop = true

/-- All the bytes the channel's transfer reads lie in one region it may read (R185). -/
abbrev Channel.ReadsInside (ch : Channel) (k : Config) : Prop :=
  EmptyOrInside (bteReadable k) ch.src.toNat (rangeLen ch.incRd ch.count.toNat ch.esize.toNat)

/-- All the bytes the channel's transfer writes lie in one region it may write (R185). -/
abbrev Channel.WritesInside (ch : Channel) (k : Config) : Prop :=
  EmptyOrInside (bteWritable k) ch.dst.toNat (rangeLen ch.incWr ch.count.toNat ch.esize.toNat)

section
variable {scan : Bool} {c : U32} {s : State}

theorem exec_start_of_pass (h : startCheck false c s = none) :
    exec (.start c) s = .next (s.setChannel c.toNat (s.channel c.toNat).load) := by
  rw [exec, execStart, startOp, h, settle_ok]

theorem exec_start_of_trap {e : Trap} (h : startCheck false c s = some e) :
    exec (.start c) s = .next (s.trap e) := by
  rw [exec, execStart, startOp, h, settle_error]

variable (hc : c.toNat < s.numCh) (notScan : c.toNat ≠ scanCh)
include hc notScan

/-- What is left to check on a channel HOST may start. -/
theorem startCheck_of_channel :
    startCheck scan c s =
      if (s.channel c.toNat).configured = false then some (.raise .notConfigured c)
      else if (s.channel c.toNat).remaining ≠ 0 then some (.raise .bteBusy c)
      else if (s.channel c.toNat).chain = true ∧ s.cfg.chainNoop = false then some .refuse
      else if ¬(s.channel c.toNat).ReadsInside s.cfg then some (.raise .access (s.channel c.toNat).src)
      else if ¬(s.channel c.toNat).WritesInside s.cfg then some (.raise .access (s.channel c.toNat).dst)
      else none := by
  rw [startCheck, if_neg (Nat.not_le.mpr hc), if_neg fun h => notScan h.1]
  simp only [← admitted_iff_emptyOrInside, Bool.not_eq_true, Bool.not_eq_true']

theorem startCheck_of_startable (h : (s.channel c.toNat).Startable s.cfg) :
    startCheck scan c s =
      if ¬(s.channel c.toNat).ReadsInside s.cfg then some (.raise .access (s.channel c.toNat).src)
      else if ¬(s.channel c.toNat).WritesInside s.cfg then some (.raise .access (s.channel c.toNat).dst)
      else none := by
  obtain ⟨configured, idle, chain⟩ := h
  rw [startCheck_of_channel hc notScan, if_neg (by simp [configured]), if_neg (not_not.mpr idle),
    if_neg fun ⟨hchain, hnoop⟩ => by simp [chain hchain] at hnoop]

theorem startCheck_pass (h : (s.channel c.toNat).Startable s.cfg) (reads : (s.channel c.toNat).ReadsInside s.cfg)
    (writes : (s.channel c.toNat).WritesInside s.cfg) : startCheck scan c s = none := by
  rw [startCheck_of_startable hc notScan h, if_neg (not_not.mpr reads), if_neg (not_not.mpr writes)]

theorem startCheck_src_outside (h : (s.channel c.toNat).Startable s.cfg)
    (reads : ¬(s.channel c.toNat).ReadsInside s.cfg) :
    startCheck scan c s = some (.raise .access (s.channel c.toNat).src) := by
  rw [startCheck_of_startable hc notScan h, if_pos reads]

theorem startCheck_dst_outside (h : (s.channel c.toNat).Startable s.cfg)
    (reads : (s.channel c.toNat).ReadsInside s.cfg) (writes : ¬(s.channel c.toNat).WritesInside s.cfg) :
    startCheck scan c s = some (.raise .access (s.channel c.toNat).dst) := by
  rw [startCheck_of_startable hc notScan h, if_neg (not_not.mpr reads), if_pos writes]

theorem startCheck_unconfigured (h : (s.channel c.toNat).configured = false) :
    startCheck scan c s = some (.raise .notConfigured c) := by
  rw [startCheck_of_channel hc notScan, if_pos h]

theorem startCheck_busy (configured : (s.channel c.toNat).configured = true)
    (busy : (s.channel c.toNat).remaining ≠ 0) : startCheck scan c s = some (.raise .bteBusy c) := by
  rw [startCheck_of_channel hc notScan, if_neg (by simp [configured]), if_pos busy]

theorem startCheck_chain (configured : (s.channel c.toNat).configured = true)
    (idle : (s.channel c.toNat).remaining = 0) (chain : (s.channel c.toNat).chain = true)
    (noop : s.cfg.chainNoop = false) : startCheck scan c s = some .refuse := by
  rw [startCheck_of_channel hc notScan, if_neg (by simp [configured]), if_neg (not_not.mpr idle),
    if_pos ⟨chain, noop⟩]

end

/-- Settles O35, check by check. -/
theorem startCommand : Obligations.StartCommand := by
  refine ⟨fun c s hc => exec_start_of_trap (if_pos hc), ?_⟩
  rintro c s ch rfl hc hscan
  refine ⟨fun configured idle chain reads writes => ?pass, fun configured => ?unconfigured,
    fun configured busy => ?busy, fun configured idle chain noop => ?chain, fun configured idle chain reads => ?src,
    fun configured idle chain reads writes => ?dst⟩
  case pass => exact exec_start_of_pass (startCheck_pass hc hscan ⟨configured, idle, chain⟩ reads writes)
  case unconfigured => exact exec_start_of_trap (startCheck_unconfigured hc hscan configured)
  case busy => exact exec_start_of_trap (startCheck_busy hc hscan configured busy)
  case chain => exact exec_start_of_trap (startCheck_chain hc hscan configured idle chain noop)
  case src => exact exec_start_of_trap (startCheck_src_outside hc hscan ⟨configured, idle, chain⟩ reads)
  case dst => exact exec_start_of_trap (startCheck_dst_outside hc hscan ⟨configured, idle, chain⟩ reads writes)

/-! ## POLL_REMAINING (R188) -/

/-- Settles O38: the operation's two cases. -/
theorem pollReturnsRemaining : Obligations.PollReturnsRemaining := by
  refine ⟨fun c s hc => ?absent, fun c s hc => ?present⟩
  case absent =>
    have hop : pollOp c s = .error (.raise .configInvalid c) := if_pos hc
    rw [exec, execPollRemaining, hop, settle_error, trap_raise]
  case present =>
    have hop : pollOp c s = .ok { s with ret := (s.channel c.toNat).remaining } := if_neg (Nat.not_le.mpr hc)
    rw [exec, execPollRemaining, hop, settle_ok]

/-! ## FILL, COPY and BULK_READ (R119, R192 to R196) -/

/-- A channel's registers after the CONFIGURE of a transfer that increments its destination and asks for no chain
(R182). -/
abbrev Channel.configuredTo (ch : Channel) (src dst : U32) (esize : BitVec 3) (n : U32) (incRd swap : Bool) : Channel :=
  { ch with
    src := src, dst := dst, esize := esize, count := n, incRd := incRd, incWr := true, bswap := swap, chain := false,
    configured := true }

/-- Under the parameters `k` the command `i` is a CONFIGURE with these operands, then the START of its channel
(R192). -/
structure TransferComposite (k : Config) (i : Instr) (c src dst esize count opts : U32) (incRd swap : Bool) : Prop where
  exec_eq : ∀ s : State, s.cfg = k →
    exec i s = settle s (andThen (configureOp false c src dst esize count opts s) [.start c])
  valid : OptsOk opts
  configure_eq : ∀ (ch : Channel) (n : U32),
    ch.configure src dst esize n opts = ch.configuredTo src dst (esize.setWidth 3) n incRd swap

theorem bswapOpt_eq (bswap : U32) : bswapOpt bswap = if decide (bswap ≠ 0) then optByteSwap else 0 := by
  by_cases h : bswap = 0 <;> simp [bswapOpt, h]

theorem transferComposite_fill (k : Config) (c dst esize count bswap : U32) :
    TransferComposite k (.fill c dst count esize bswap) c (BitVec.ofNat 32 k.fillBase) dst esize count (fillOpts bswap)
      false (decide (bswap ≠ 0)) where
  exec_eq s hs := by subst hs; rfl
  valid := by rw [fillOpts, bswapOpt_eq]; cases decide (bswap ≠ 0) <;> decide
  configure_eq ch n := by rw [fillOpts, bswapOpt_eq]; cases decide (bswap ≠ 0) <;> rfl

theorem transferComposite_copy (k : Config) (c src dst esize count bswap : U32) :
    TransferComposite k (.copy c src dst count esize bswap) c src dst esize count (copyOpts bswap) true
      (decide (bswap ≠ 0)) where
  exec_eq _ _ := rfl
  valid := by rw [copyOpts, bswapOpt_eq]; cases decide (bswap ≠ 0) <;> decide
  configure_eq ch n := by rw [copyOpts, bswapOpt_eq]; cases decide (bswap ≠ 0) <;> rfl

theorem transferComposite_bulkRead (k : Config) (c src dst count : U32) :
    TransferComposite k (.bulkRead c src dst count) c src dst 2 count bulkReadOpts true false where
  exec_eq _ _ := rfl
  valid := by decide
  configure_eq _ _ := rfl

/-- Two HOST steps run a command and the one part it leaves. -/
theorem run_two_parts {s t u : State} {i j : Instr} (hs : s.safe)
    (first : exec i { s.issuing [] with tape := .host :: s.tape, turns := s.turns + 1 } = .next t)
    (safe : t.safe) (turn : t.turn = .host) (free : t.hostWait = .none) (left : t.pending = [j])
    (second : exec j { t.passTurn with pending := [] } = .next u) :
    core.run 2 ((s.issuing [i]).scheduled [.host, .host]) = .next u := by
  have hfirst : step ((s.issuing [i]).scheduled [.host, .host]) = .next t := by
    rw [step_of_turn (s := (s.issuing [i]).scheduled [.host, .host]) (a := .host) hs rfl, agentStep]
    exact (hostStep_of_fetch rfl (hostFetch_of_pending rfl)).trans first
  have hsecond : step t = .next u := by
    rw [step_of_turn safe turn, agentStep]
    exact (hostStep_of_fetch (s := t.passTurn) free (hostFetch_of_pending left)).trans second
  exact run_append (m := 1) ((run_one _).trans hfirst) ((run_one _).trans hsecond)

section
variable {s : State} {i : Instr} {c src dst esize count opts n : U32} {incRd swap : Bool}

/-- `s` after two HOST turns, channel `c` configured and nothing left to issue. -/
abbrev State.configuredFor (s : State) (c src dst esize n : U32) (incRd swap : Bool) : State :=
  { s.issuing [] with
    turns := s.turns + 2
    bte := s.bte.set c.toNat ((s.channel c.toNat).configuredTo src dst (esize.setWidth 3) n incRd swap) }

theorem channel_configuredFor (hc : c.toNat < s.numCh) :
    (s.configuredFor c src dst esize n incRd swap).channel c.toNat =
      (s.channel c.toNat).configuredTo src dst (esize.setWidth 3) n incRd swap :=
  (s.channel_setChannel c.toNat c.toNat _).trans (if_pos ⟨rfl, hc⟩)

section
variable (h : TransferComposite s.cfg i c src dst esize count opts incRd swap)
include h

/-- Where CONFIGURE traps, so does the command, and no START is left. -/
theorem TransferComposite.exec_of_trap {e : Trap} (check : configureCheck false c src dst esize opts s = some e) :
    exec i s = .next (s.trap e) := by
  rw [h.exec_eq s rfl, configureOp_of_trap check, andThen, settle_error]

/-- Where CONFIGURE passes, the command configures the channel and leaves the START. -/
theorem TransferComposite.exec_of_pass (hn : n = countField s.cfg count)
    (check : configureCheck false c src dst esize opts s = none) :
    exec i s = .next { s with
      pending := .start c :: s.pending
      bte := s.bte.set c.toNat ((s.channel c.toNat).configuredTo src dst (esize.setWidth 3) n incRd swap) } := by
  rw [h.exec_eq s rfl, configureOp_of_pass check, andThen, settle_ok, h.configure_eq, ← hn]
  rfl

/-- Two HOST steps are the command's CONFIGURE, then its START on the channel configured. -/
theorem TransferComposite.run {u : State} (hn : n = countField s.cfg count) (hs : s.safe)
    (check : configureCheck false c src dst esize opts s = none)
    (start : exec (.start c) (s.configuredFor c src dst esize n incRd swap) = .next u) :
    core.run 2 ((s.issuing [i]).scheduled [.host, .host]) = .next u :=
  run_two_parts (j := .start c) hs
    (TransferComposite.exec_of_pass (s := { s.issuing [] with tape := .host :: s.tape, turns := s.turns + 1 }) h hn
      check)
    hs rfl rfl rfl start

end

section
variable (hc : c.toNat < s.numCh) (size : SizeOk esize.toNat)
include hc

theorem configuredFor_startable (idle : (s.channel c.toNat).remaining = 0) :
    ((s.configuredFor c src dst esize n incRd swap).channel c.toNat).Startable s.cfg := by
  rw [channel_configuredFor hc]
  exact ⟨rfl, idle, nofun⟩

include size

theorem configuredFor_readsInside :
    ((s.configuredFor c src dst esize n incRd swap).channel c.toNat).ReadsInside s.cfg ↔
      EmptyOrInside (bteReadable s.cfg) src.toNat (rangeLen incRd n.toNat esize.toNat) := by
  rw [channel_configuredFor hc, Channel.ReadsInside, toNat_esize size]

theorem configuredFor_writesInside :
    ((s.configuredFor c src dst esize n incRd swap).channel c.toNat).WritesInside s.cfg ↔
      EmptyOrInside (bteWritable s.cfg) dst.toNat (n.toNat * esize.toNat) := by
  rw [channel_configuredFor hc, Channel.WritesInside, toNat_esize size, rangeLen_increments]

/-- START loads the run registers of the channel just configured (R184). -/
theorem exec_start_configuredFor (notScan : c.toNat ≠ scanCh) (idle : (s.channel c.toNat).remaining = 0)
    (reads : EmptyOrInside (bteReadable s.cfg) src.toNat (rangeLen incRd n.toNat esize.toNat))
    (writes : EmptyOrInside (bteWritable s.cfg) dst.toNat (n.toNat * esize.toNat)) :
    exec (.start c) (s.configuredFor c src dst esize n incRd swap) =
      .next { s.issuing [] with
        turns := s.turns + 2
        bte := s.bte.set c.toNat (startedChannel src dst (esize.setWidth 3) n incRd true swap) } := by
  have hnum : c.toNat < (s.configuredFor c src dst esize n incRd swap).numCh := by simpa [State.numCh] using hc
  rw [exec_start_of_pass (startCheck_pass hnum notScan (configuredFor_startable hc idle)
    ((configuredFor_readsInside hc size).mpr reads) ((configuredFor_writesInside hc size).mpr writes)),
    channel_configuredFor hc, State.setChannel, List.set_set]
  rfl

end

/-- A composite on an idle channel with aligned addresses and ranges the engine may use: the first HOST step configures
the channel and leaves the START, two start it. -/
theorem TransferComposite.starts (h : TransferComposite s.cfg i c src dst esize count opts incRd swap)
    (hn : n = countField s.cfg count) (hs : s.safe) (hc : c.toNat < s.numCh) (notScan : c.toNat ≠ scanCh)
    (idle : (s.channel c.toNat).remaining = 0) (size : SizeOk esize.toNat) (hsrc : src.toNat % esize.toNat = 0)
    (hdst : dst.toNat % esize.toNat = 0)
    (reads : EmptyOrInside (bteReadable s.cfg) src.toNat (rangeLen incRd n.toNat esize.toNat))
    (writes : EmptyOrInside (bteWritable s.cfg) dst.toNat (n.toNat * esize.toNat)) :
    exec i s = .next { s with
        pending := .start c :: s.pending
        bte := s.bte.set c.toNat ((s.channel c.toNat).configuredTo src dst (esize.setWidth 3) n incRd swap) } ∧
      core.run 2 ((s.issuing [i]).scheduled [.host, .host]) =
        .next { s.issuing [] with
          turns := s.turns + 2
          bte := s.bte.set c.toNat (startedChannel src dst (esize.setWidth 3) n incRd true swap) } := by
  have check := configureCheck_pass (scan := false) ⟨hc, size, h.valid⟩ notScan idle hsrc hdst
  exact ⟨h.exec_of_pass hn check, h.run hn hs check (exec_start_configuredFor hc size notScan idle reads writes)⟩

/-- START's fault is recorded on the channel configured and not started. -/
theorem TransferComposite.run_of_access {a : U32}
    (h : TransferComposite s.cfg i c src dst esize count opts incRd swap) (hn : n = countField s.cfg count)
    (hs : s.safe) (check : configureCheck false c src dst esize opts s = none)
    (start : startCheck false c (s.configuredFor c src dst esize n incRd swap) = some (.raise .access a)) :
    core.run 2 ((s.issuing [i]).scheduled [.host, .host]) =
      .next { s.configuredFor c src dst esize n incRd swap with fault := ⟨true, 0x10, a⟩ } := by
  obtain ⟨hfault, _⟩ := id hs
  refine h.run hn hs check ?_
  rw [exec_start_of_trap start, trap_raise]
  exact congrArg _ (raise_of_no_fault (s := s.configuredFor c src dst esize n incRd swap) hfault .access a)

/-- The fill cell's base is an address and suits every size (R64). -/
theorem fillBase_aligned {k : Config} (hk : k.wf) {m : Nat} (size : SizeOk m) :
    (BitVec.ofNat 32 k.fillBase).toNat = k.fillBase ∧ k.fillBase % m = 0 := by
  obtain ⟨⟨hbits, _, _, hplaced⟩, _⟩ := hk
  obtain ⟨hbase, hend⟩ := hplaced k.fillCell (by simp [Config.regions])
  have hpow : 2 ^ k.addrBits ≤ 2 ^ 32 := Nat.pow_le_pow_right (by decide) hbits
  simp only [Config.fillCell] at hbase hend
  refine ⟨by rw [BitVec.toNat_ofNat, Nat.mod_eq_of_lt (by omega)], ?_⟩
  rcases size with rfl | rfl | rfl <;> omega

/-- The one element FILL reads lies in the fill cell (R193). -/
theorem fillCell_reads {k : Config} (hk : k.wf) {m : Nat} (size : SizeOk m) (count : Nat) :
    EmptyOrInside (bteReadable k) (BitVec.ofNat 32 k.fillBase).toNat (rangeLen false count m) := by
  obtain ⟨hbase, _⟩ := fillBase_aligned hk size
  have hlen : rangeLen false count m ≤ 4 := by
    simp only [rangeLen, Bool.false_eq_true, if_false]
    rcases size with rfl | rfl | rfl <;> split <;> decide
  rw [hbase]
  exact .inr ⟨k.fillCell, by simp [bteReadable], le_rfl, Nat.add_le_add_left hlen _⟩

end

/-- Settles O41: the three commands are one CONFIGURE and one START, and trap as these do. -/
theorem transferCompositesConfigureAndStart : Obligations.TransferCompositesConfigureAndStart := by
  refine ⟨?starts, ?traps⟩
  case starts =>
    intro s c src dst count n esize bswap hn hs hk hc hscan idle size hdst writes
    refine ⟨?fill, fun hsrc reads => ?copy, fun hsrc hesize reads => ?bulkRead⟩
    case fill =>
      obtain ⟨hbase, halign⟩ := fillBase_aligned hk size
      exact (transferComposite_fill s.cfg c dst esize count bswap).starts hn hs hc hscan idle size
        (by rw [hbase, halign]) hdst (fillCell_reads hk size _) writes
    case copy =>
      exact (transferComposite_copy s.cfg c src dst esize count bswap).starts hn hs hc hscan idle size hsrc hdst
        (by rw [rangeLen_increments]; exact reads) writes
    case bulkRead =>
      subst hesize
      exact (transferComposite_bulkRead s.cfg c src dst count).starts hn hs hc hscan idle size hsrc hdst
        (by rw [rangeLen_increments]; exact reads) writes
  case traps =>
    intro s i c src dst count n esize bswap incRd swap hn hi
    have hcomposite : ∃ opts, TransferComposite s.cfg i c src dst esize count opts incRd swap := by
      rcases hi with ⟨rfl, rfl, rfl, rfl⟩ | ⟨rfl, rfl, rfl⟩ | ⟨rfl, rfl, rfl, rfl⟩
      · exact ⟨_, transferComposite_fill ..⟩
      · exact ⟨_, transferComposite_copy ..⟩
      · exact ⟨_, transferComposite_bulkRead ..⟩
    obtain ⟨opts, h⟩ := hcomposite
    refine ⟨fun invalid => ?invalid, fun hc size reserved => ?reserved, fun hc size hscan =>
      ⟨fun busy => ?busy, fun idle hsrc => ?src, fun idle hsrc hdst => ?dst, fun hs idle hsrc hdst u hu =>
        ⟨fun reads => ?readAccess, fun reads writes => ?writeAccess⟩⟩⟩
    case invalid => exact h.exec_of_trap (configureCheck_invalid (invalid.imp_right .inl))
    all_goals have operands : ConfigureOperands s c esize opts := ⟨hc, size, h.valid⟩
    case reserved => exact h.exec_of_trap (configureCheck_reserved operands reserved)
    case busy => exact h.exec_of_trap (configureCheck_busy operands hscan busy)
    case src => exact h.exec_of_trap (configureCheck_src_misaligned operands hscan idle hsrc)
    case dst => exact h.exec_of_trap (configureCheck_dst_misaligned operands hscan idle hsrc hdst)
    all_goals
      have check := configureCheck_pass (scan := false) operands hscan idle hsrc hdst
      have hnum : c.toNat < (s.configuredFor c src dst esize n incRd swap).numCh := by simpa [State.numCh] using hc
      have startable := configuredFor_startable (src := src) (dst := dst) (esize := esize) (n := n) (incRd := incRd)
        (swap := swap) hc idle
      subst hu
      refine h.run_of_access hn hs check ?_
    case readAccess =>
      have outside := startCheck_src_outside (scan := false) hnum hscan startable
        (mt (configuredFor_readsInside hc size).mp reads)
      rwa [channel_configuredFor hc] at outside
    case writeAccess =>
      have outside := startCheck_dst_outside (scan := false) hnum hscan startable
        ((configuredFor_readsInside hc size).mpr reads) (mt (configuredFor_writesInside hc size).mp writes)
      rwa [channel_configuredFor hc] at outside

/-! ## WAIT, and its return in a run (R85, R187, R300) -/

/-- HOST is blocked in a WAIT on channel `c` and nothing has stopped the machine. -/
structure WaitingOn (s : State) (c : Nat) : Prop where
  safe : s.safe
  wait : s.hostWait = .onCh c
  decIdle : s.decBusy = false

section
variable {s : State} {c : Nat}

/-- The wait reads the wait itself, DEC's registers and what stops the machine only. -/
theorem WaitingOn.of_eq {t : State} (h : WaitingOn s c) (fault : t.fault = s.fault) (refused : t.refused = s.refused)
    (wait : t.hostWait = s.hostWait) (dec : t.dec = s.dec) : WaitingOn t c where
  safe := by rw [State.safe, fault, refused]; exact h.safe
  wait := wait.trans h.wait
  decIdle := by rw [State.decBusy, dec]; exact h.decIdle

theorem WaitingOn.after_elementStep (h : WaitingOn s c) (d : Nat) : WaitingOn (elementStep d s) c := by
  obtain ⟨wait, _, dec, _, fault, refused, _⟩ := elementStep_keeps d s
  exact h.of_eq fault refused wait dec

theorem channel_elementStep_of_ne (s : State) {c d : Nat} (h : c ≠ d) :
    (elementStep d s).channel c = s.channel c := by
  by_cases hd : (s.channel d).remaining = 0
  · rw [elementStep_of_not_running hd]
  · rw [elementStep_of_running hd, channel_elementOp_of_ne s h]

/-- An element step leaves one element fewer (R186). -/
theorem remaining_elementStep (running : (s.channel c).remaining ≠ 0) :
    ((elementStep c s).channel c).remaining.toNat < (s.channel c).remaining.toNat := by
  have hleft := toNat_ne_zero running
  have hone : 1 ≤ (s.channel c).remaining.toNat := by omega
  have hafter := channel_afterElements hone
  rw [afterElements_succ, afterElements_zero] at hafter
  rw [hafter, Channel.toNat_remaining_afterElements hone]
  omega

/-- A turn in which neither the channel nor HOST has a step leaves the wait and what remains as they are. -/
theorem WaitingOn.afterTurn_quiet (h : WaitingOn s c) {a : Agent} (bs : List Byte)
    (notRunning : a = .bte c → (s.channel c).remaining = 0) (blocked : a = .host → (s.channel c).remaining ≠ 0) :
    WaitingOn (s.afterTurn a bs) c ∧ (s.afterTurn a bs).channel c = s.channel c := by
  have hturn : WaitingOn (s.atTurn bs) c := ⟨h.safe, h.wait, h.decIdle⟩
  cases a with
  | host =>
    have hstep : agentStep .host (s.atTurn bs) = .next (s.atTurn bs) := hostStep_of_onCh h.wait (blocked rfl)
    rw [afterTurn_of_agentStep h.safe hstep]
    exact ⟨hturn, rfl⟩
  | dec => rw [afterTurn_dec_idle h.safe bs h.decIdle]; exact ⟨hturn, rfl⟩
  | env => rw [afterTurn_env h.safe bs]; exact ⟨⟨h.safe, h.wait, h.decIdle⟩, rfl⟩
  | bte d =>
    rw [afterTurn_bte h.safe d bs]
    refine ⟨hturn.after_elementStep d, ?_⟩
    rcases eq_or_ne c d with rfl | hne
    · rw [elementStep_of_not_running (s := s.atTurn bs) (notRunning rfl)]
      rfl
    · exact channel_elementStep_of_ne (s.atTurn bs) hne

/-- The channel's turn moves one of the elements HOST waits for. -/
theorem WaitingOn.afterTurn_channel (h : WaitingOn s c) (bs : List Byte) (running : (s.channel c).remaining ≠ 0) :
    WaitingOn (s.afterTurn (.bte c) bs) c ∧
      ((s.afterTurn (.bte c) bs).channel c).remaining.toNat < (s.channel c).remaining.toNat := by
  have hturn : WaitingOn (s.atTurn bs) c := ⟨h.safe, h.wait, h.decIdle⟩
  rw [afterTurn_bte h.safe c bs]
  exact ⟨hturn.after_elementStep c, remaining_elementStep (s := s.atTurn bs) running⟩

/-- A HOST step blocked on a channel with nothing remaining is the return of its WAIT (R187). -/
theorem hostStep_of_waited (wait : s.hostWait = .onCh c) (done : (s.channel c).remaining = 0) :
    hostStep s = .next { s with hostWait := .none } := by
  simp only [hostStep, wait, if_pos done]

end

section
variable {s : State} {f : Schedule} {p : Program} {c : Nat}

/-- Until the channel or HOST has a step, the wait and what remains stand as they are. -/
theorem WaitingOn.until {m n : Nat} (h : WaitingOn (s.runTo f p m) c) (hn : m ≤ n)
    (quiet : ∀ j, m ≤ j → j < n → (f j = .bte c → ((s.runTo f p m).channel c).remaining = 0) ∧
      (f j = .host → ((s.runTo f p m).channel c).remaining ≠ 0)) :
    WaitingOn (s.runTo f p n) c ∧ (s.runTo f p n).channel c = (s.runTo f p m).channel c := by
  induction n, hn using Nat.le_induction with
  | base => exact ⟨h, rfl⟩
  | succ n hmn ih =>
    obtain ⟨hn, hch⟩ := ih fun j hj hlt => quiet j hj (by omega)
    obtain ⟨notRunning, blocked⟩ := quiet n hmn (by omega)
    rw [← hch] at notRunning blocked
    obtain ⟨hnext, hch'⟩ := hn.afterTurn_quiet (p n) notRunning blocked
    exact ⟨hnext, hch'.trans hch⟩

/-- Once nothing remains, HOST's next turn is the return. -/
theorem WaitingOn.returns_of_done {n : Nat} (h : WaitingOn (s.runTo f p n) c) (hturns : HostTurns f)
    (done : ((s.runTo f p n).channel c).remaining = 0) : s.hostReturns f p := by
  obtain ⟨m, hm, hfm, hfirst⟩ := exists_first_turn (hturns n)
  obtain ⟨hwait, hch⟩ := h.until hm fun j hj hlt => ⟨fun _ => done, fun hfj => absurd hfj (hfirst j hj hlt)⟩
  have hstep : agentStep .host ((s.runTo f p m).atTurn (p m)) = .next { (s.runTo f p m).atTurn (p m) with
      hostWait := .none } := hostStep_of_waited hwait.wait (by rw [← done, ← hch]; rfl)
  have hturn := afterTurn_of_agentStep hwait.safe hstep
  rw [← hfm, ← runTo_succ] at hturn
  exact ⟨m + 1, by rw [hturn]; exact ⟨stopped_eq_false.mpr hwait.safe, rfl⟩⟩

/-- In a weakly fair run the channel moves every element HOST waits for, and HOST returns (R85, R300). -/
theorem WaitingOn.returns {n : Nat} (h : WaitingOn (s.runTo f p n) c) (hfair : WeaklyFair f p s)
    (hturns : HostTurns f) : s.hostReturns f p := by
  induction hw : ((s.runTo f p n).channel c).remaining.toNat using Nat.strong_induction_on generalizing n with
  | _ w ih =>
    by_cases done : ((s.runTo f p n).channel c).remaining = 0
    · exact h.returns_of_done hturns done
    · obtain ⟨m, hm, hfm, hfirst⟩ := exists_first_turn (hfair.channels n c (stopped_eq_false.mpr h.safe) done)
      obtain ⟨hwait, hch⟩ := h.until hm fun j hj hlt => ⟨fun hfj => absurd hfj (hfirst j hj hlt), fun _ => done⟩
      obtain ⟨hnext, hless⟩ := hwait.afterTurn_channel (p m) (by rw [hch]; exact done)
      rw [← hfm, ← runTo_succ] at hnext hless
      exact ih _ (by rwa [hch, hw] at hless) hnext rfl

end

/-- Settles O37: the operation's cases, the return as HOST's step, and in a fair run the channel's elements come to an
end. -/
theorem waitBlocksUntilNothingRemains : Obligations.WaitBlocksUntilNothingRemains := by
  refine ⟨fun c s hc => ?absent, fun c s hc => ⟨fun done => ?returns, fun running => ?blocks⟩,
    fun s c hs turn wait done => ?step, fun f p s c hs hhost hfair hturns wait => ?run⟩
  case absent =>
    have hop : waitOp c s = .error (.raise .configInvalid c) := if_pos hc
    rw [exec, execWait, hop, settle_error, trap_raise]
  case returns => rw [exec, execWait, waitOp_of_channel hc, if_pos done, settle_ok]
  case blocks => rw [exec, execWait, waitOp_of_channel hc, if_neg running, settle_ok]
  case step =>
    rw [step_of_turn hs turn, agentStep]
    exact hostStep_of_waited (s := s.passTurn) wait done
  case run =>
    have decIdle := HostInv.not_busy hhost (by simp [wait])
    exact WaitingOn.returns (n := 0) ⟨hs, wait, decIdle⟩ hfair hturns

end Sys2Proof.Machine

/-! SUPPORT and the settled statements of the family 43_scanout.md: the scanout channel's invariant (O49), its progress
(O48) and where a flush begins (O46, O50), the reserved channel (O36), the wait for the edge (O45), the single steps of
ENV and of FLUSH_PROGRESS (O11, O47), and whole runs of CLEAR, FLUSH and DRAW_END (O52 to O54). -/

namespace Sys2Proof.Machine

/-! ## ENV and FLUSH_PROGRESS (R222, R226) -/

/-- Settles O11: the step is ENV's. -/
theorem envTogglesTheSignal : Obligations.EnvTogglesTheSignal := by
  intro s hs turn
  rw [step_of_turn hs turn, agentStep]
  rfl

/-- Settles O47: the offset is 0 before the first SCAN_START, and what has been sent after it. -/
theorem flushProgressReturnsTheOffset : Obligations.FlushProgressReturnsTheOffset := by
  intro s
  refine ⟨fun before => ?before, fun after => ?after⟩ <;> rw [exec, execFlushProgress, flushProgressOp, settle_ok]
  case before => rw [State.flushOffset, before]; rfl
  case after => rw [State.flushOffset, if_pos after]; rfl

/-! ## The regions a flush and a CLEAR use (R64, R237) -/

section
variable {k : Config}

/-- Every region ends at `2^32` at the latest (R64). -/
theorem region_end_le (hk : k.wf) {r : Region} (hr : r ∈ k.regions) : r.base + r.size ≤ 2 ^ 32 := by
  obtain ⟨⟨hbits, _, _, hplaced⟩, _⟩ := hk
  obtain ⟨_, hend⟩ := hplaced r hr
  exact hend.trans (Nat.pow_le_pow_right (by decide) hbits)

/-- A region that is not empty starts at an address of 32 bits (R64). -/
theorem toNat_base (hk : k.wf) {r : Region} (hr : r ∈ k.regions) (bytes : 0 < r.size) :
    (BitVec.ofNat 32 r.base).toNat = r.base := by
  have hend := region_end_le hk hr
  rw [BitVec.toNat_ofNat, Nat.mod_eq_of_lt (by omega)]

/-- Every region's base suits every element size (R64). -/
theorem base_aligned (hk : k.wf) {r : Region} (hr : r ∈ k.regions) {n : Nat} (size : SizeOk n) :
    (BitVec.ofNat 32 r.base).toNat % n = 0 := by
  obtain ⟨⟨_, _, _, hplaced⟩, _⟩ := hk
  obtain ⟨hbase, _⟩ := hplaced r hr
  rw [BitVec.toNat_ofNat]
  rcases size with rfl | rfl | rfl <;> omega

/-- The first bytes of a region lie inside it, or are none. -/
theorem region_emptyOrInside (hk : k.wf) {r : Region} (hr : r ∈ k.regions) {rs : List Region} (hrs : r ∈ rs)
    {len : Nat} (hlen : len ≤ r.size) : EmptyOrInside rs (BitVec.ofNat 32 r.base).toNat len := by
  by_cases h : len = 0
  · exact .inl h
  · rw [toNat_base hk hr (by omega)]
    exact .inr ⟨r, hrs, le_rfl, Nat.add_le_add_left hlen _⟩

theorem fb_mem_regions (k : Config) : k.fb ∈ k.regions := by simp [Config.regions]

theorem fillCell_mem_regions (k : Config) : k.fillCell ∈ k.regions := by simp [Config.regions]

theorem display_mem_regions (k : Config) : k.display ∈ k.regions := by simp [Config.regions]

theorem scanElemSize_sizeOk (hk : k.wf) : SizeOk k.scanElemSize := by
  obtain ⟨_, _, _, h | h⟩ := hk
  · exact .inl h
  · exact .inr (.inl h)

/-- A legal size is itself in the 3 bits of `esize` (R113). -/
theorem toNat_ofNat_esize {n : Nat} (h : SizeOk n) : (BitVec.ofNat 3 n).toNat = n := by
  rcases h with rfl | rfl | rfl <;> rfl

theorem toNat_scanElemSize (hk : k.wf) : (BitVec.ofNat 32 k.scanElemSize).toNat = k.scanElemSize := by
  rcases scanElemSize_sizeOk hk with h | h | h <;> rw [h] <;> rfl

/-- The elements of a flush are all the bytes of the framebuffer (R197). -/
theorem scanCount_mul_scanElemSize (hk : k.wf) : k.scanCount * k.scanElemSize = 2 * k.pixels := by
  obtain ⟨_, _, _, h | h⟩ := hk <;> rw [Config.scanCount, h] <;> omega

/-- A flush has elements to send where the framebuffer has pixels. -/
theorem scanCount_pos_iff (hk : k.wf) : 0 < k.scanCount ↔ 0 < k.pixels := by
  have hmul := scanCount_mul_scanElemSize hk
  obtain ⟨_, _, _, h | h⟩ := hk <;> rw [h] at hmul <;> omega

/-- The bytes of a frame fit the 32 bits of a count (R237). -/
theorem frame_lt (hk : k.wf) : 2 * k.pixels < 2 ^ 32 := by
  obtain ⟨⟨_, hbits, hframe, _⟩, _⟩ := hk
  exact hframe.trans_le (Nat.pow_le_pow_right (by decide) hbits)

theorem toNat_scanCount (hk : k.wf) : (BitVec.ofNat 32 k.scanCount).toNat = k.scanCount := by
  have hframe := frame_lt hk
  have hcount : k.scanCount ≤ 2 * k.pixels := Nat.div_le_self ..
  rw [BitVec.toNat_ofNat, Nat.mod_eq_of_lt (by omega)]

end

/-! ## The scanout channel in a flush (R197, R225) -/

/-- A channel just started keeps its invariant where START's checks and the alignment of its bases hold (R184, R201). -/
theorem startedChannel_inv {k : Config} {src dst n : U32} {esize : BitVec 3} {incRd incWr swap : Bool}
    (size : SizeOk esize.toNat) (hsrc : src.toNat % esize.toNat = 0) (hdst : dst.toNat % esize.toNat = 0)
    (reads : EmptyOrInside (bteReadable k) src.toNat (rangeLen incRd n.toNat esize.toNat))
    (writes : EmptyOrInside (bteWritable k) dst.toNat (rangeLen incWr n.toNat esize.toNat)) :
    ChannelInv k (startedChannel src dst esize n incRd incWr swap) := by
  rw [← aligned_iff] at hsrc hdst
  rw [← admitted_iff_emptyOrInside] at reads writes
  exact ⟨fun _ => rfl, fun _ => ⟨legalSize_iff.mpr size, hsrc, hdst⟩, fun _ => ⟨hsrc, hdst, reads, writes⟩⟩

/-- The scanout channel's registers when a flush starts: from the framebuffer, incrementing, to the display port, fixed,
without swap (R197). -/
def flushChannel (k : Config) : Channel :=
  startedChannel (BitVec.ofNat 32 k.fbBase) (BitVec.ofNat 32 k.displayBase) (BitVec.ofNat 3 k.scanElemSize)
    (BitVec.ofNat 32 k.scanCount) true false false

/-- `s` after SCAN_START took effect (R225). -/
def State.flushStarted (s : State) : State :=
  { s with
    bte := s.bte.set scanCh (flushChannel s.cfg)
    scanStarted := true
    wireMarks := s.wireMarks ++ [s.wire.length] }

section
variable {k : Config} (hk : k.wf)
include hk

theorem toNat_esize_flushChannel : (flushChannel k).esize.toNat = k.scanElemSize :=
  toNat_ofNat_esize (scanElemSize_sizeOk hk)

theorem toNat_remaining_flushChannel : (flushChannel k).remaining.toNat = k.scanCount := toNat_scanCount hk

theorem toNat_wrPtr_flushChannel : (flushChannel k).wrPtr.toNat = k.displayBase :=
  toNat_base hk (display_mem_regions k) (Nat.succ_pos 3)

theorem toNat_rdPtr_flushChannel (pixels : 0 < k.pixels) : (flushChannel k).rdPtr.toNat = k.fbBase :=
  toNat_base hk (fb_mem_regions k) (Nat.mul_pos (by decide) pixels)

/-- A flush reads the framebuffer and nothing else. -/
theorem flushChannel_reads : EmptyOrInside (bteReadable k) (BitVec.ofNat 32 k.fbBase).toNat
    (rangeLen true k.scanCount k.scanElemSize) := by
  rw [rangeLen_increments, scanCount_mul_scanElemSize hk]
  exact region_emptyOrInside hk (fb_mem_regions k) (by simp [bteReadable]) le_rfl

/-- A flush writes one element of the display port, again and again. -/
theorem flushChannel_writes : EmptyOrInside (bteWritable k) (BitVec.ofNat 32 k.displayBase).toNat
    (rangeLen false k.scanCount k.scanElemSize) := by
  refine region_emptyOrInside hk (display_mem_regions k) (by simp [bteWritable]) ?_
  have hsize : k.scanElemSize ≤ 4 := by rcases scanElemSize_sizeOk hk with h | h | h <;> omega
  simp only [rangeLen, Bool.false_eq_true, if_false, Config.display]
  split <;> omega

theorem flushChannel_running (pixels : 0 < k.pixels) : (flushChannel k).remaining ≠ 0 :=
  Channel.running_of_lt (k := 0) (by rw [toNat_remaining_flushChannel hk]; exact (scanCount_pos_iff hk).mpr pixels)

theorem flushChannel_inv : ChannelInv k (flushChannel k) := by
  have hsize := scanElemSize_sizeOk hk
  have hesize := toNat_ofNat_esize hsize
  refine startedChannel_inv ?_ ?_ ?_ ?_ ?_ <;> rw [hesize]
  · exact hsize
  · exact base_aligned hk (fb_mem_regions k) hsize
  · exact base_aligned hk (display_mem_regions k) hsize
  · rw [toNat_scanCount hk]; exact flushChannel_reads hk
  · rw [toNat_scanCount hk]; exact flushChannel_writes hk

end

section
variable {s t : State}

theorem channel_setChannel_self {c : Nat} (ch : Channel) (hc : c < s.numCh) : (s.setChannel c ch).channel c = ch :=
  (s.channel_setChannel c c ch).trans (if_pos ⟨rfl, hc⟩)

theorem channel_flushStarted (hc : scanCh < s.numCh) : s.flushStarted.channel scanCh = flushChannel s.cfg :=
  channel_setChannel_self _ hc

/-- SCANOUT_CFG's operands pass CONFIGURE's checks on an idle scanout channel, as a part of SCAN_START (R197). -/
theorem scanoutCfg_check (hk : s.cfg.wf) (hc : scanCh < s.numCh) (idle : (s.channel scanCh).remaining = 0) :
    configureCheck true (BitVec.ofNat 32 scanCh) (BitVec.ofNat 32 s.cfg.fbBase) (BitVec.ofNat 32 s.cfg.displayBase)
      (BitVec.ofNat 32 s.cfg.scanElemSize) scanoutOpts s = none := by
  have hsize := scanElemSize_sizeOk hk
  rw [configureCheck_eq_none, toNat_scanElemSize hk]
  exact ⟨hc, legalSize_iff.mpr hsize, by decide, fun _ => rfl, idle,
    aligned_iff.mpr (base_aligned hk (fb_mem_regions s.cfg) hsize),
    aligned_iff.mpr (base_aligned hk (display_mem_regions s.cfg) hsize)⟩

/-- The scanout channel's registers after SCANOUT_CFG, which START has still to load (R197). -/
def Channel.scanConfigured (ch : Channel) (k : Config) : Channel :=
  { flushChannel k with rdPtr := ch.rdPtr, wrPtr := ch.wrPtr, remaining := ch.remaining }

theorem scanoutCfgOp_of_idle (hk : s.cfg.wf) (hc : scanCh < s.numCh) (idle : (s.channel scanCh).remaining = 0) :
    scanoutCfgOp true s = .ok (s.setChannel scanCh ((s.channel scanCh).scanConfigured s.cfg)) := by
  have hesize : (BitVec.ofNat 32 s.cfg.scanElemSize).setWidth 3 = BitVec.ofNat 3 s.cfg.scanElemSize :=
    BitVec.setWidth_ofNat_of_le (by decide) _
  rw [scanoutCfgOp, configureOp_of_pass (scanoutCfg_check hk hc idle), countField_scanCount hk, Channel.configure,
    hesize]
  rfl

/-- START's checks pass on the scanout channel just configured (R184). -/
theorem scanStart_check (hk : s.cfg.wf) (hc : scanCh < s.numCh) (idle : (s.channel scanCh).remaining = 0) :
    startCheck true (BitVec.ofNat 32 scanCh) (s.setChannel scanCh ((s.channel scanCh).scanConfigured s.cfg)) =
      none := by
  have hscan : (BitVec.ofNat 32 scanCh).toNat = scanCh := rfl
  rw [startCheck_eq_none, hscan, channel_setChannel_self _ hc]
  refine ⟨by simpa using hc, fun _ => rfl, rfl, idle, nofun, ?_, ?_⟩ <;> rw [admitted_iff_emptyOrInside]
  · have h := flushChannel_reads hk
    rwa [← toNat_scanCount hk, ← toNat_esize_flushChannel hk] at h
  · have h := flushChannel_writes hk
    rwa [← toNat_scanCount hk, ← toNat_esize_flushChannel hk] at h

/-- START loads the run registers of the scanout channel just configured (R184). -/
theorem startOp_of_scanConfigured (hk : s.cfg.wf) (hc : scanCh < s.numCh) (idle : (s.channel scanCh).remaining = 0) :
    startOp true (BitVec.ofNat 32 scanCh) (s.setChannel scanCh ((s.channel scanCh).scanConfigured s.cfg)) =
      .ok (s.setChannel scanCh (flushChannel s.cfg)) := by
  have hscan : (BitVec.ofNat 32 scanCh).toNat = scanCh := rfl
  rw [startOp, scanStart_check hk hc idle, hscan, channel_setChannel_self _ hc]
  simp only [State.setChannel, List.set_set]
  rfl

/-- SCAN_START on an idle scanout channel starts a flush (R225). -/
theorem scanStartOp_of_idle (hk : s.cfg.wf) (hc : scanCh < s.numCh) (idle : (s.channel scanCh).remaining = 0) :
    scanStartOp s = .ok s.flushStarted := by
  rw [scanStartOp, scanoutCfgOp_of_idle hk hc idle]
  simp only [startOp_of_scanConfigured hk hc idle]
  rfl

theorem exec_scanStart_of_idle (hk : s.cfg.wf) (hc : scanCh < s.numCh) (idle : (s.channel scanCh).remaining = 0) :
    exec .scanStart s = .next s.flushStarted := by
  rw [exec, execScanStart, scanStartOp_of_idle hk hc idle, settle_ok]

/-- SCAN_START takes effect on an idle scanout channel only (R225). -/
theorem scanStartOp_eq_flushStarted (hk : s.cfg.wf) (h : scanStartOp s = .ok t) :
    scanCh < s.numCh ∧ t = s.flushStarted := by
  obtain ⟨u, _, hcfg, _, _⟩ := scanStartOp_eq_ok h
  obtain ⟨hcheck, _⟩ := configureOp_eq_ok hcfg
  obtain ⟨hc, _, _, _, idle, _⟩ := (configureCheck_eq_none ..).mp hcheck
  have hstarts := scanStartOp_of_idle hk hc idle
  exact ⟨hc, Except.ok.inj (h.symm.trans hstarts)⟩

/-- A flush in flight is not started again (R197, R225). -/
theorem scanStartOp_of_running (hk : s.cfg.wf) (hc : scanCh < s.numCh) (running : (s.channel scanCh).remaining ≠ 0) :
    scanStartOp s = .error (.raise .bteBusy (BitVec.ofNat 32 scanCh)) := by
  have hlegal : legalSize (BitVec.ofNat 32 s.cfg.scanElemSize).toNat = true := by
    rw [toNat_scanElemSize hk]; exact legalSize_iff.mpr (scanElemSize_sizeOk hk)
  have hopts : optsValid scanoutOpts = true := by decide
  have hscan : (BitVec.ofNat 32 scanCh).toNat = scanCh := rfl
  have hcheck : configureCheck true (BitVec.ofNat 32 scanCh) (BitVec.ofNat 32 s.cfg.fbBase)
      (BitVec.ofNat 32 s.cfg.displayBase) (BitVec.ofNat 32 s.cfg.scanElemSize) scanoutOpts s =
        some (.raise .bteBusy (BitVec.ofNat 32 scanCh)) := by
    rw [configureCheck, hscan, hlegal, hopts, if_neg (Nat.not_le.mpr hc), if_pos running]
    rfl
  rw [scanStartOp, scanoutCfgOp, configureOp_of_trap hcheck]

end

/-- Settles O46: on an idle channel the two parts of SCAN_START take effect; on a running one the first faults. -/
theorem scanStartBeginsAFlush : Obligations.ScanStartBeginsAFlush := by
  intro s hk hc
  refine ⟨fun idle => exec_scanStart_of_idle hk hc idle, fun running => ?running⟩
  case running => rw [exec, execScanStart, scanStartOp_of_running hk hc running, settle_error, trap_raise]

/-! ## The scanout channel is HOST's through SCAN_START only (R234) -/

/-- START of `SCAN_CH` by HOST is refused, whatever the channel's registers are (R234, R299). -/
theorem startCheck_reserved {c : U32} {s : State} (hc : c.toNat < s.numCh) (reserved : c.toNat = scanCh) :
    startCheck false c s = some .refuse := by
  rw [startCheck, if_neg (Nat.not_le.mpr hc), if_pos ⟨reserved, rfl⟩]

/-- Settles O36: CONFIGURE and START check the channel they name, and SCANOUT_CFG is a CONFIGURE naming `SCAN_CH`. -/
theorem scanChannelIsReserved : Obligations.ScanChannelIsReserved := by
  intro s hscan
  refine ⟨fun c src dst esize count opts reserved size opts => ?configure, fun c reserved => ?start,
    fun hk => ?scanoutCfg⟩
  case configure =>
    exact exec_configure_of_trap (configureCheck_reserved ⟨reserved ▸ hscan, size, opts⟩ reserved)
  case start => exact exec_start_of_trap (startCheck_reserved (reserved ▸ hscan) reserved)
  case scanoutCfg =>
    have size : SizeOk (BitVec.ofNat 32 s.cfg.scanElemSize).toNat := by
      rw [toNat_scanElemSize hk]; exact scanElemSize_sizeOk hk
    exact exec_configure_of_trap
      (configureCheck_reserved ⟨hscan, size, by decide⟩ (c := BitVec.ofNat 32 scanCh) (opts := scanoutOpts) rfl)

/-! ## The wait for the edge (R223, R224) -/

/-- Settles O45: the two samples are HOST's steps, and `VSYNC_LIVE` brings first the one about, then the other. -/
theorem vsyncWaitSeesARisingEdge : Obligations.VsyncWaitSeesARisingEdge := by
  refine ⟨fun s => rfl, fun s hs turn wait => ⟨fun phase low => ?stepA, fun phase high => ?stepB⟩,
    fun f p s hs hhost wait live => ?run⟩
  case stepA =>
    rw [step_of_turn hs turn, agentStep]
    simp [hostStep, vsyncSample, wait, phase, low]
  case stepB =>
    rw [step_of_turn hs turn, agentStep]
    simp [hostStep, vsyncSample, wait, phase, high]
  case run =>
    have fromHigh (n : Nat) (hw : (s.runTo f p n).hostWait = .onVsync) (hp : (s.runTo f p n).vsPhase = .needHigh) :
        s.hostReturns f p := by
      obtain ⟨b, _, hfb, hB⟩ := live.stepB n hw hp
      obtain ⟨returned, running⟩ := stepB_taken hfb hB
      exact ⟨b + 1, running, returned⟩
    obtain ⟨_, _, hphase, _⟩ := hhost
    cases phase : s.vsPhase with
    | none => exact absurd phase (hphase.mp wait)
    | needLow =>
      obtain ⟨a, _, hfa, hA⟩ := live.stepA 0 wait phase
      obtain ⟨hw, hp⟩ := stepA_taken hfa hA
      exact fromHigh (a + 1) hw hp
    | needHigh => exact fromHigh 0 wait phase

/-! ## What a step does to the scanout (R225, R234) -/

/-- From `s` to `t` the scanout channel's registers, `scan.started` and the flush marks are the same. -/
structure ScanKept (s t : State) : Prop where
  channel : t.channel scanCh = s.channel scanCh
  started : t.scanStarted = s.scanStarted
  marks : t.wireMarks = s.wireMarks
  cfg : t.cfg = s.cfg

/-- What the step of agent `a` can make of the scanout in state `u`: nothing, one element sent, or a flush started. -/
inductive ScanEffect (a : Agent) (u : State) : State → Prop
  | kept {t} (h : ScanKept u t) : ScanEffect a u t
  | sent (running : (u.channel scanCh).remaining ≠ 0) : ScanEffect a u (elementOp scanCh u)
  | started {t} (who : a = .host) (free : u.hostWait = .none) (h : scanStartOp u = .ok t) : ScanEffect a u t

section
variable {s t u : State}

theorem ScanKept.of_eq (bte : t.bte = s.bte) (started : t.scanStarted = s.scanStarted)
    (marks : t.wireMarks = s.wireMarks) (cfg : t.cfg = s.cfg) : ScanKept s t :=
  ⟨by rw [State.channel, State.channel, bte], started, marks, cfg⟩

theorem ScanKept.trans (h : ScanKept s t) (k : ScanKept t u) : ScanKept s u :=
  ⟨k.channel.trans h.channel, k.started.trans h.started, k.marks.trans h.marks, k.cfg.trans h.cfg⟩

theorem Untouched.scanKept (h : Untouched s t) : ScanKept s t := .of_eq h.bte h.scanStarted h.wireMarks h.cfg

/-- A write of another channel's registers. -/
theorem setChannel_scanKept (s : State) {c : Nat} (ch : Channel) (h : c ≠ scanCh) : ScanKept s (s.setChannel c ch) :=
  ⟨by simp [Ne.symm h], rfl, rfl, rfl⟩

/-- CONFIGURE issued by HOST names another channel (R234). -/
theorem configureOp_scanKept {c src dst esize count opts : U32}
    (h : configureOp false c src dst esize count opts s = .ok t) : ScanKept s t := by
  obtain ⟨hcheck, rfl⟩ := configureOp_eq_ok h
  obtain ⟨_, _, _, hscan, _⟩ := (configureCheck_eq_none ..).mp hcheck
  exact setChannel_scanKept s _ fun hc => absurd (hscan hc) nofun

/-- START issued by HOST names another channel (R234). -/
theorem startOp_scanKept {c : U32} (h : startOp false c s = .ok t) : ScanKept s t := by
  obtain ⟨hcheck, rfl⟩ := startOp_eq_ok h
  obtain ⟨_, hscan, _⟩ := (startCheck_eq_none ..).mp hcheck
  exact setChannel_scanKept s _ fun hc => absurd (hscan hc) nofun

theorem elementOp_scanKept (s : State) {c : Nat} (h : c ≠ scanCh) : ScanKept s (elementOp c s) :=
  ⟨channel_elementOp_of_ne s h.symm, by simp [elementOp], by simp [elementOp], by simp [elementOp]⟩

theorem waitOp_scanKept {c : U32} (h : waitOp c s = .ok t) : ScanKept s t := by
  obtain ⟨_, rfl⟩ := waitOp_eq_ok h
  exact .of_eq rfl rfl rfl rfl

theorem vsyncWaitOp_scanKept (h : vsyncWaitOp s = .ok t) : ScanKept s t := by
  cases h
  exact .of_eq rfl rfl rfl rfl

theorem vsyncSample_scanKept (s : State) : ScanKept s (vsyncSample s) := by
  unfold vsyncSample
  split <;> [skip; split; split] <;> exact .of_eq rfl rfl rfl rfl

/-- The scanout's own element step and SCAN_START are all that touches the scanout. -/
theorem Effect.scan {a : Agent} (h : Effect a u t) : ScanEffect a u t := by
  cases h with
  | untouched h => exact .kept h.scanKept
  | hdr _ _ h => obtain ⟨_, _, rfl⟩ := hdrOp_eq_ok h; exact .kept (.of_eq rfl rfl rfl rfl)
  | skip _ _ h => obtain ⟨_, _, _, _, rfl⟩ := skipOp_eq_ok h; exact .kept (.of_eq rfl rfl rfl rfl)
  | litrun _ _ h => obtain ⟨_, _, rfl⟩ := litrunOp_eq_ok h; exact .kept (.of_eq rfl rfl rfl rfl)
  | literal =>
    exact .kept (.of_eq (by simp [literalOp]) (by simp [literalOp]) (by simp [literalOp]) (by simp [literalOp]))
  | repeated => exact .kept (.of_eq (by simp [repeatOp]) (by simp [repeatOp]) (by simp [repeatOp]) (by simp [repeatOp]))
  | decompress _ _ _ h => obtain ⟨_, rfl⟩ := decompressOp_eq_ok h; exact .kept (.of_eq rfl rfl rfl rfl)
  | hostWrite _ _ h =>
    obtain ⟨_, rfl⟩ := hostWriteOp_eq_ok h
    exact .kept (.of_eq (by simp) (by simp) (by simp) (by simp))
  | configure _ _ h rest => exact .kept ((configureOp_scanKept h).trans rest.scanKept)
  | start _ _ h => exact .kept (startOp_scanKept h)
  | scanStart who free h => exact .started who free h
  | wait _ _ h rest => exact .kept ((waitOp_scanKept h).trans rest.scanKept)
  | vsyncWait _ _ h rest => exact .kept ((vsyncWaitOp_scanKept h).trans rest.scanKept)
  | vsyncSample => exact .kept (vsyncSample_scanKept u)
  | decompressReturns | waitReturns => exact .kept (.of_eq rfl rfl rfl rfl)
  | @element c _ running =>
    by_cases hc : c = scanCh
    · subst hc; exact .sent running
    · exact .kept (elementOp_scanKept u hc)

/-- What a step does to the scanout, from `s` with its turn used up and HOST's command taken off. -/
theorem step_scan (h : step s = .next t) : ∃ u, Untouched s u ∧ ScanEffect s.turn u t := by
  obtain ⟨_, u, hu, _, _, heffect⟩ := step_cases h
  exact ⟨u, hu, heffect.scan⟩

end

/-! ## Every step keeps the scanout channel's invariant (R234, R235, R237) -/

section
variable {s t : State}

/-- The invariant reads the scanout channel, `scan.started` and the parameters only. -/
theorem ScanInv.of_kept (hs : ScanInv s) (h : ScanKept s t) : ScanInv t := by
  rw [ScanInv, h.channel, h.started, h.cfg]
  exact hs

/-- The registers of a running channel after its element step (R186). -/
theorem channel_elementOp_self {c : Nat} (running : (s.channel c).remaining ≠ 0) :
    (elementOp c s).channel c = (s.channel c).afterElements 1 := by
  have hleft := toNat_ne_zero running
  rw [← elementStep_of_running running]
  exact channel_afterElements (k := 1) (by omega)

/-- Sending an element leaves the framebuffer from the next one on (R236). -/
theorem elementOp_scanInv (hk : s.cfg.wf) (hs : ScanInv s) (running : (s.channel scanCh).remaining ≠ 0) :
    ScanInv (elementOp scanCh s) := by
  obtain ⟨hstarted, hframe, hrun⟩ := hs
  obtain ⟨hesize, hincRd, hincWr, hswap, hwrPtr, hrdPtr⟩ := hrun running
  have hcfg : (elementOp scanCh s).cfg = s.cfg := by simp [elementOp]
  have hscan : (elementOp scanCh s).scanStarted = s.scanStarted := by simp [elementOp]
  have hleft := toNat_ne_zero running
  have hafter := Channel.toNat_remaining_afterElements (ch := s.channel scanCh) (k := 1) (by omega)
  have hmul := Nat.sub_mul (s.channel scanCh).remaining.toNat 1 s.cfg.scanElemSize
  rw [ScanInv, hcfg, hscan, channel_elementOp_self running, hafter]
  refine ⟨fun before => absurd (hstarted before) running, by omega, fun more => ?_⟩
  have hmore := toNat_ne_zero more
  have hend : s.cfg.fbBase + 2 * s.cfg.pixels ≤ 2 ^ 32 := region_end_le hk (fb_mem_regions s.cfg)
  have hfits := rangeLen_increments (s.channel scanCh).remaining.toNat s.cfg.scanElemSize
  have hptr : ((s.channel scanCh).afterElements 1).rdPtr.toNat =
      (s.channel scanCh).rdPtr.toNat + s.cfg.scanElemSize := by
    have h := toNat_pointerAfter (inc := true) (p := (s.channel scanCh).rdPtr) (scanElemSize_sizeOk hk).pos
      (k := 1) (n := (s.channel scanCh).remaining.toNat) (by omega) (by omega)
    simpa [Channel.afterElements, hesize, hincRd, elementOffset] using h
  have hone := Nat.le_mul_of_pos_left s.cfg.scanElemSize (Nat.pos_of_ne_zero hleft)
  refine ⟨hesize, hincRd, hincWr, hswap, ?_, by omega⟩
  simpa [Channel.afterElements, pointerAfter, hincWr] using hwrPtr

/-- A flush starts with the whole framebuffer to send (R225). -/
theorem flushStarted_scanInv (hk : s.cfg.wf) (hc : scanCh < s.numCh) : ScanInv s.flushStarted := by
  have hcfg : s.flushStarted.cfg = s.cfg := rfl
  have hframe := scanCount_mul_scanElemSize hk
  rw [ScanInv, channel_flushStarted hc, hcfg, toNat_remaining_flushChannel hk, hframe]
  refine ⟨nofun, le_rfl, fun running =>
    ⟨toNat_esize_flushChannel hk, rfl, rfl, rfl, toNat_wrPtr_flushChannel hk, ?_⟩⟩
  have hcount := toNat_ne_zero running
  rw [toNat_remaining_flushChannel hk] at hcount
  rw [toNat_rdPtr_flushChannel hk ((scanCount_pos_iff hk).mp (Nat.pos_of_ne_zero hcount))]

theorem ScanEffect.scanInv {a : Agent} {u : State} (h : ScanEffect a u t) (hk : u.cfg.wf) (hu : ScanInv u) :
    ScanInv t := by
  cases h with
  | kept h => exact hu.of_kept h
  | sent running => exact elementOp_scanInv hk hu running
  | started _ _ h =>
    obtain ⟨hc, rfl⟩ := scanStartOp_eq_flushStarted hk h
    exact flushStarted_scanInv hk hc

end

/-- Settles O49, by the three things a step can do to the scanout. -/
theorem stepKeepsScanInvariant : Obligations.StepKeepsScanInvariant := by
  intro s t hk hs h
  obtain ⟨u, hu, heffect⟩ := step_scan h
  exact heffect.scanInv (hu.cfg ▸ hk) (hs.of_kept hu.scanKept)

/-! ## The progress of a flush (R226, R227) -/

section
variable {s t : State}

theorem ScanKept.flushOffset (h : ScanKept s t) : t.flushOffset = s.flushOffset := by
  rw [State.flushOffset, State.flushOffset, h.started, h.channel, h.cfg]

/-- An element sent leaves fewer to send (R227). -/
theorem flushOffset_le_elementOp (running : (s.channel scanCh).remaining ≠ 0) :
    s.flushOffset ≤ (elementOp scanCh s).flushOffset := by
  have hcfg : (elementOp scanCh s).cfg = s.cfg := by simp [elementOp]
  have hscan : (elementOp scanCh s).scanStarted = s.scanStarted := by simp [elementOp]
  have hless := remaining_elementStep running
  rw [elementStep_of_running running] at hless
  rw [State.flushOffset, State.flushOffset, hcfg, hscan]
  split
  · exact Nat.div_le_div_right (Nat.sub_le_sub_left (Nat.mul_le_mul_right _ hless.le) _)
  · exact le_rfl

/-- Nothing has been sent when a flush starts (R225). -/
theorem flushOffset_flushStarted (hk : s.cfg.wf) (hc : scanCh < s.numCh) : s.flushStarted.flushOffset = 0 := by
  have hstarted : s.flushStarted.scanStarted = true := rfl
  have hcfg : s.flushStarted.cfg = s.cfg := rfl
  rw [State.flushOffset, if_pos hstarted, channel_flushStarted hc, hcfg, toNat_remaining_flushChannel hk,
    scanCount_mul_scanElemSize hk, Nat.sub_self]

end

/-- Settles O48, by the three things a step can do to the scanout. -/
theorem progressIsMonotone : Obligations.ProgressIsMonotone := by
  intro s t hk h
  obtain ⟨u, hu, heffect⟩ := step_scan h
  rw [← hu.cfg] at hk
  rw [← hu.scanKept.flushOffset, ← hu.wireMarks, ← hu.wire]
  cases heffect with
  | kept h => exact .inl ⟨h.marks, h.flushOffset.ge⟩
  | sent running => exact .inl ⟨by simp [elementOp], flushOffset_le_elementOp running⟩
  | started _ _ h =>
    obtain ⟨hc, rfl⟩ := scanStartOp_eq_flushStarted hk h
    exact .inr ⟨rfl, rfl, flushOffset_flushStarted hk hc⟩

/-! ## Where a flush begins (R233, R235) -/

section
variable {s t : State}

theorem settle_wireMarks {a : Attempt} (h : settle s a = .next t)
    (ha : ∀ u, a = .ok u → u.wireMarks = s.wireMarks) : t.wireMarks = s.wireMarks := by
  rcases settle_eq_next.mp h with h | ⟨e, _, rfl⟩
  · exact ha t h
  · simp

theorem andThen_wireMarks {a : Attempt} {parts : List Instr} {u : State} {marks : List Nat}
    (h : andThen a parts = .ok u) (ha : ∀ w, a = .ok w → w.wireMarks = marks) : u.wireMarks = marks := by
  obtain ⟨w, hw, rfl⟩ := andThen_eq_ok.mp h
  exact ha w hw

theorem decStepWhen_wireMarks {st : DecState} {a : Attempt} (h : decStepWhen st s a = .next t)
    (ha : ∀ u, a = .ok u → u.wireMarks = s.wireMarks) : t.wireMarks = s.wireMarks := by
  unfold decStepWhen at h
  split at h
  · exact settle_wireMarks h ha
  · cases h; rfl

theorem configureOp_wireMarks {c src dst esize count opts : U32}
    (h : configureOp false c src dst esize count opts s = .ok t) : t.wireMarks = s.wireMarks :=
  (configureOp_scanKept h).marks

theorem waitOp_wireMarks {c : U32} (h : waitOp c s = .ok t) : t.wireMarks = s.wireMarks := (waitOp_scanKept h).marks

/-- No instruction but SCAN_START marks the wire (R33, R225). -/
theorem exec_wireMarks {i : Instr} (hi : i ≠ .scanStart) (h : exec i s = .next t) : t.wireMarks = s.wireMarks := by
  cases i with
  | scanStart => exact absurd rfl hi
  | hdr => exact decStepWhen_wireMarks h fun u hu => by obtain ⟨_, _, rfl⟩ := hdrOp_eq_ok hu; rfl
  | skip => exact decStepWhen_wireMarks h fun u hu => by obtain ⟨_, _, _, _, rfl⟩ := skipOp_eq_ok hu; rfl
  | litrun => exact decStepWhen_wireMarks h fun u hu => by obtain ⟨_, _, rfl⟩ := litrunOp_eq_ok hu; rfl
  | pixel => exact decStepWhen_wireMarks h fun u hu => by cases hu; simp [literalOp]
  | hostRead =>
    refine settle_wireMarks h fun u hu => ?_
    unfold hostReadOp at hu
    split at hu <;> cases hu
    rfl
  | hostWrite => exact settle_wireMarks h fun u hu => by obtain ⟨_, rfl⟩ := hostWriteOp_eq_ok hu; simp
  | decompress =>
    simp only [exec, execDecompress] at h
    split at h
    · cases h; rfl
    · exact settle_wireMarks h fun u hu => by obtain ⟨_, rfl⟩ := decompressOp_eq_ok hu; rfl
  | start => exact settle_wireMarks h fun u hu => (startOp_scanKept hu).marks
  | pollRemaining =>
    refine settle_wireMarks h fun u hu => ?_
    unfold pollOp at hu
    split at hu <;> cases hu
    rfl
  | flushProgress => cases h; rfl
  | configure | scanoutCfg => exact settle_wireMarks h fun _ hu => configureOp_wireMarks hu
  | wait | drawBegin => exact settle_wireMarks h fun _ hu => waitOp_wireMarks hu
  | clear => exact settle_wireMarks h fun _ hu => andThen_wireMarks hu fun _ hw => waitOp_wireMarks hw
  | fill | copy | bulkRead =>
    exact settle_wireMarks h fun _ hu => andThen_wireMarks hu fun _ hw => configureOp_wireMarks hw
  | vsyncWait | drawEnd | flush => cases h; rfl

/-- Taking a command off the queue, or a code outside the table, marks nothing. -/
theorem hostFetch_wireMarks {u : State} (h : (∃ i, s.hostFetch = .command i u) ∨ s.hostFetch = .unknown u) :
    u.wireMarks = s.wireMarks := by
  unfold State.hostFetch at h
  split at h <;> [skip; split at h] <;> simp at h <;> subst h <;> rfl

/-- HOST issues one command; where that marks the wire, the command is SCAN_START. -/
theorem hostIssue_wireMarks (h : hostIssue s = .next t) :
    t.wireMarks = s.wireMarks ∨ ∃ u, s.hostFetch = .command .scanStart u := by
  unfold hostIssue at h
  cases hfetch : s.hostFetch with
  | nothing => rw [hfetch] at h; cases h; exact .inl rfl
  | unknown u => rw [hfetch] at h; cases h; exact .inl (hostFetch_wireMarks (u := u) (.inr hfetch))
  | command i u =>
    rw [hfetch] at h
    by_cases hi : i = .scanStart
    · exact .inr ⟨u, hi ▸ rfl⟩
    · exact .inl ((exec_wireMarks hi h).trans (hostFetch_wireMarks (.inl ⟨i, hfetch⟩)))

theorem scanState_eq_idle : s.scanState = .idle ↔ (s.channel scanCh).remaining = 0 := by
  simp [State.scanState, State.channelBusy]

theorem scanState_eq_flushing : s.scanState = .flushing ↔ (s.channel scanCh).remaining ≠ 0 := by
  simp [State.scanState, State.channelBusy]

theorem scanStartOp_marks (h : scanStartOp s = .ok t) :
    t.scanStarted = true ∧ t.wireMarks = s.wireMarks ++ [s.wire.length] := by
  obtain ⟨u, v, hcfg, hstart, rfl⟩ := scanStartOp_eq_ok h
  obtain ⟨_, rfl⟩ := configureOp_eq_ok hcfg
  obtain ⟨_, rfl⟩ := startOp_eq_ok hstart
  exact ⟨rfl, rfl⟩

end

/-- Settles O50: a flush begins in a SCAN_START that takes effect, which marks the wire, and HOST marks the wire in
no other command. -/
theorem flushesBeginInScanStartOnly : Obligations.FlushesBeginInScanStartOnly := by
  intro s t h idle flushing
  rw [scanState_eq_idle] at idle
  rw [scanState_eq_flushing] at flushing
  obtain ⟨hs, _⟩ := step_cases h
  obtain ⟨u, hu, heffect⟩ := step_scan h
  rw [← hu.channel] at idle
  cases heffect with
  | kept h => exact absurd (h.channel ▸ idle) flushing
  | sent running => exact absurd idle running
  | started turn free hstart =>
    obtain ⟨hstarted, hmarks⟩ := scanStartOp_marks hstart
    rw [hu.wireMarks, hu.wire] at hmarks
    rw [hu.hostWait] at free
    have hissue : hostIssue s.passTurn = .next t := by
      rw [← h, step_of_turn hs turn, agentStep, hostStep, State.passTurn_hostWait, free]
    refine ⟨turn, free, (hostIssue_wireMarks hissue).resolve_left fun same => ?_, hstarted, hmarks⟩
    simp [hmarks] at same

/-! ## Turns given to several agents (R76) -/

/-- The turns of these agents, one after another, lead from `s` to `t`, whatever turns are given after them. The turns
themselves are left out of `s` and `t`. -/
def AgentTurns (agents : List Agent) (s t : State) : Prop :=
  ∀ l n, core.run agents.length (s.withTurns (agents ++ l) n) = .next (t.withTurns l (n + agents.length))

section
variable {s t u : State} {c : Nat}

theorem AgentTurns.trans {as bs : List Agent} (h : AgentTurns as s t) (k : AgentTurns bs t u) :
    AgentTurns (as ++ bs) s u := by
  intro l n
  rw [List.append_assoc, List.length_append, ← Nat.add_assoc]
  exact run_append (h _ n) (k l _)

/-- A turn of an agent is its step. -/
theorem AgentTurns.one {a : Agent} (hs : s.safe)
    (h : ∀ l n, agentStep a (s.withTurns l n) = .next (t.withTurns l n)) : AgentTurns [a] s t := by
  intro l n
  have hstep := step_of_turn (s := s.withTurns ([a] ++ l) n) (a := a) hs rfl
  exact (run_one _).trans (hstep.trans (h l (n + 1)))

/-- A turn of HOST is the command it issues next (R119). -/
theorem AgentTurns.issue {i : Instr} {rest : List Instr} (hs : s.safe) (free : s.hostWait = .none)
    (left : s.pending = i :: rest)
    (h : ∀ l n, exec i ({ s with pending := rest }.withTurns l n) = .next (t.withTurns l n)) :
    AgentTurns [.host] s t :=
  .one hs fun l n => (hostStep_of_fetch (s := s.withTurns l n) free (hostFetch_of_pending left)).trans (h l n)

theorem afterElements_withTurns (s : State) (c k : Nat) (l : List Agent) (n : Nat) :
    (s.withTurns l n).afterElements c k = (s.afterElements c k).withTurns l n := by
  induction k with
  | zero => rfl
  | succ k ih => rw [afterElements_succ, ih, elementStep_withTurns, afterElements_succ]

/-- Turns of one channel are its element steps. -/
theorem AgentTurns.channel (hs : s.safe) (c k : Nat) :
    AgentTurns (List.replicate k (.bte c)) s (s.afterElements c k) := by
  intro l n
  have hrun := run_channel (s := s.withTurns [] n) hs c k l
  rw [afterElements_withTurns] at hrun
  rw [List.length_replicate]
  exact hrun

/-- Turns given at the front of the schedule are the machine's next steps. -/
theorem AgentTurns.run {agents : List Agent} {k : Nat} (h : AgentTurns agents s t) (hk : agents.length = k) :
    core.run k (s.scheduled agents) = .next (t.withTurns s.tape (s.turns + k)) := by
  subst hk
  exact h s.tape s.turns

/-- An element step changes memory, the wire and the channels only. -/
theorem elementStep_frame (c : Nat) (s : State) :
    elementStep c s = { s with
      mem := (elementStep c s).mem, wire := (elementStep c s).wire, bte := (elementStep c s).bte } := by
  unfold elementStep
  split
  · rw [elementOp_eq, State.store]
    split <;> rfl
  · rfl

/-- A channel's turns change memory, the wire and the channels only. -/
theorem afterElements_frame (s : State) (c k : Nat) :
    s.afterElements c k = { s with
      mem := (s.afterElements c k).mem, wire := (s.afterElements c k).wire, bte := (s.afterElements c k).bte } := by
  induction k with
  | zero => rfl
  | succ k ih =>
    rw [afterElements_succ, elementStep_frame, ih]

theorem numCh_afterElements (s : State) (c k : Nat) : (s.afterElements c k).numCh = s.numCh := by
  induction k with
  | zero => rfl
  | succ k ih =>
    obtain ⟨_, _, _, _, _, _, _, _, hnum⟩ := elementStep_keeps c (s.afterElements c k)
    rw [afterElements_succ, hnum, ih]

/-- After a turn for each of its elements a channel has nothing remaining. -/
theorem afterElements_done {k : Nat} (hk : (s.channel c).remaining.toNat = k) :
    ((s.afterElements c k).channel c).remaining = 0 := by
  subst hk
  have hleft := Channel.toNat_remaining_afterElements (le_refl (s.channel c).remaining.toNat)
  rw [← channel_afterElements le_rfl, Nat.sub_self] at hleft
  exact BitVec.eq_of_toNat_eq hleft

/-- A WAIT on an idle channel returns in the step that issues it (R187). -/
theorem exec_wait_of_done {c : U32} (hc : c.toNat < s.numCh) (done : (s.channel c.toNat).remaining = 0) :
    exec (.wait c) s = .next { s with hostWait := .none } := by
  rw [exec, execWait, waitOp_of_channel hc, if_pos done, settle_ok]

/-- The channel moves its elements, then HOST issues its last command, a WAIT on the channel. -/
theorem AgentTurns.channel_then_wait {c : U32} {k : Nat} (hs : s.safe) (free : s.hostWait = .none)
    (left : s.pending = [.wait c]) (hc : c.toNat < s.numCh) (hk : (s.channel c.toNat).remaining.toNat = k) :
    AgentTurns (List.replicate k (.bte c.toNat) ++ [.host]) s ((s.afterElements c.toNat k).issuing []) := by
  have hwait := congrArg State.hostWait (afterElements_frame s c.toNat k)
  have hpending := congrArg State.pending (afterElements_frame s c.toNat k)
  have hnum : c.toNat < (s.afterElements c.toNat k).numCh := by rwa [numCh_afterElements]
  exact (AgentTurns.channel hs c.toNat k).trans <|
    .issue (i := .wait c) (rest := []) (safe_afterElements hs _ _) (hwait.trans free) (hpending.trans left) fun l n =>
      exec_wait_of_done (s := { s.afterElements c.toNat k with pending := [] }.withTurns l n) hnum
        (afterElements_done hk)

end

/-! ## A flush from the edge on (R223, R225, R230, R232) -/

section
variable {s : State} {i : Instr} {parts : List Instr}

/-- `s` right after HOST has seen the edge, HOST about to issue these commands (R223). -/
abbrev State.afterEdge (s : State) (parts : List Instr) : State :=
  { s.issuing parts with te := true, vsPhase := .none }

/-- A command that begins with a VSYNC_WAIT (R119): HOST samples the signal low, it rises, HOST samples it high, and the
parts after the wait are left. -/
theorem AgentTurns.edge (hs : s.safe) (low : s.te = false)
    (begins : ∀ u : State, exec i u = .next { u with
      hostWait := .onVsync, vsPhase := .needLow, pending := parts ++ u.pending }) :
    AgentTurns [.host, .host, .env, .host] (s.issuing [i]) (s.afterEdge parts) := by
  have hbegin : AgentTurns [.host] (s.issuing [i])
      { s.issuing parts with hostWait := .onVsync, vsPhase := .needLow } :=
    .issue hs rfl rfl fun l n => by rw [begins]; simp [State.issuing]
  have hlow : AgentTurns [.host] { s.issuing parts with hostWait := .onVsync, vsPhase := .needLow }
      { s.issuing parts with hostWait := .onVsync, vsPhase := .needHigh } :=
    .one hs fun l n => by simp [agentStep, hostStep, vsyncSample, low]
  have hrise : AgentTurns [.env] { s.issuing parts with hostWait := .onVsync, vsPhase := .needHigh }
      { s.issuing parts with hostWait := .onVsync, vsPhase := .needHigh, te := true } :=
    .one hs fun l n => by simp [agentStep, envStep, low]
  have hhigh : AgentTurns [.host] { s.issuing parts with hostWait := .onVsync, vsPhase := .needHigh, te := true }
      (s.afterEdge parts) :=
    .one hs fun l n => by simp [agentStep, hostStep, vsyncSample, State.issuing]
  exact ((hbegin.trans hlow).trans hrise).trans hhigh

/-- A command that is a VSYNC_WAIT and then a SCAN_START starts a flush after the edge (R230, R232). -/
theorem AgentTurns.edge_then_scanStart (hs : s.safe) (hk : s.cfg.wf) (hc : scanCh < s.numCh)
    (idle : (s.channel scanCh).remaining = 0) (low : s.te = false)
    (begins : ∀ u : State, exec i u = .next { u with
      hostWait := .onVsync, vsPhase := .needLow, pending := .scanStart :: parts ++ u.pending }) :
    AgentTurns [.host, .host, .env, .host, .host] (s.issuing [i]) (s.afterEdge parts).flushStarted :=
  (AgentTurns.edge hs low begins).trans (bs := [.host]) <|
    .issue hs rfl rfl fun l n => exec_scanStart_of_idle (s := (s.afterEdge parts).withTurns l n) hk hc idle

end

/-- Settles O54: after the edge SCAN_START starts the flush, and HOST has nothing more to issue. -/
theorem drawEndStartsAFlushAfterTheEdge : Obligations.DrawEndStartsAFlushAfterTheEdge := by
  intro s hs hk hc idle low pixels
  have hturns := AgentTurns.edge_then_scanStart (i := .drawEnd) (parts := []) hs hk hc idle low fun _ => rfl
  refine ⟨_, hturns.run rfl, hs, rfl, rfl, rfl, rfl, rfl, rfl, ?flushing, flushOffset_flushStarted hk hc, rfl⟩
  have hch : s.flushStarted.channel scanCh = flushChannel s.cfg := channel_flushStarted hc
  exact scanState_eq_flushing.mpr (hch ▸ flushChannel_running hk pixels)

/-! ## The bytes of a flush (R236) -/

/-- Byte `i` of a value read is byte `i` in memory (R62). -/
theorem Memory.byte_of_read (m : Memory) {a n i : Nat} (h : i < n) :
    m.read a n / 256 ^ i % 256 = (m.byte (a + i)).toNat := by
  induction i generalizing a n with
  | zero =>
    obtain ⟨n, rfl⟩ : ∃ k, n = k + 1 := ⟨n - 1, by omega⟩
    have := (m.byte a).isLt
    simp only [Memory.read, Nat.pow_zero, Nat.div_one, Nat.add_zero]
    omega
  | succ i ih =>
    obtain ⟨n, rfl⟩ : ∃ k, n = k + 1 := ⟨n - 1, by omega⟩
    have := (m.byte a).isLt
    have hrest : m.read a (n + 1) / 256 = m.read (a + 1) n := by simp only [Memory.read]; omega
    rw [Nat.pow_succ', ← Nat.div_div_eq_div_mul, hrest, ih (by omega), Nat.add_right_comm, Nat.add_assoc]

/-- The bytes of a value of at most 32 bits, lowest first, are those in memory in address order (R62). -/
theorem lowBytes_load (s : State) {a n : Nat} (hn : n ≤ 4) :
    lowBytes (s.load a n) n = (List.range n).map fun i => s.mem.byte (a + i) := by
  refine List.map_congr_left fun i hi => BitVec.eq_of_toNat_eq ?_
  have hlt : s.mem.read a n < 2 ^ 32 :=
    (s.mem.read_lt a n).trans_le ((Nat.pow_le_pow_right (by decide) hn).trans (by decide))
  rw [toNat_byteOf, State.load, BitVec.toNat_ofNat, Nat.mod_eq_of_lt hlt,
    Memory.byte_of_read _ (List.mem_range.mp hi)]

/-- A list read block after block is the list. -/
theorem flatMap_range_blocks {α : Type} (f : Nat → α) (n e : Nat) :
    ((List.range n).flatMap fun j => (List.range e).map fun i => f (j * e + i)) = (List.range (n * e)).map f := by
  induction n with
  | zero => simp
  | succ n ih =>
    rw [List.range_succ, List.flatMap_append, ih, Nat.succ_mul, List.range_add, List.map_append, List.map_map]
    simp

section
variable {s : State}

/-- Element `j` of a flush is framebuffer element `j` (R197). -/
theorem lowBytes_flush_element (hk : s.cfg.wf) {j : Nat} (hj : j < s.cfg.scanCount) :
    lowBytes (s.element (flushChannel s.cfg) j) s.cfg.scanElemSize =
      (List.range s.cfg.scanElemSize).map fun i => s.mem.byte (s.cfg.fbBase + (j * s.cfg.scanElemSize + i)) := by
  have hsize := scanElemSize_sizeOk hk
  have hpixels := (scanCount_pos_iff hk).mp (Nat.zero_lt_of_lt hj)
  have helement : s.element (flushChannel s.cfg) j =
      s.load (s.cfg.fbBase + j * s.cfg.scanElemSize) s.cfg.scanElemSize := by
    rw [← toNat_rdPtr_flushChannel hk hpixels, ← toNat_esize_flushChannel hk]
    rfl
  rw [helement, lowBytes_load s (by rcases hsize with h | h | h <;> omega)]
  simp only [Nat.add_assoc]

/-- A flush just started sends the framebuffer's bytes in address order, and writes no memory (R236). -/
theorem flush_sends (hk : s.cfg.wf) (hch : s.channel scanCh = flushChannel s.cfg) :
    (s.afterElements scanCh s.cfg.scanCount).mem = s.mem ∧
      (s.afterElements scanCh s.cfg.scanCount).wire = s.wire ++ s.fbBytes := by
  have hinv := flushChannel_inv hk
  have hcount := toNat_remaining_flushChannel hk
  rw [← hch] at hinv hcount
  have hmoved := movedToPort (c := scanCh) hk hinv (fun k _ => ?port) hcount.ge
  case port =>
    have haddr : (s.channel scanCh).writeAddr k = s.cfg.displayBase := by
      rw [hch, Channel.writeAddr, toNat_wrPtr_flushChannel hk]
      rfl
    rw [haddr]
    exact ⟨le_rfl, by simp [Config.display]⟩
  obtain ⟨hmem, hwire⟩ := hmoved
  refine ⟨hmem, hwire.trans (congrArg _ ?_)⟩
  rw [hch, toNat_esize_flushChannel hk, State.fbBytes, ← scanCount_mul_scanElemSize hk, ← flatMap_range_blocks]
  exact List.flatMap_congr fun j hj => lowBytes_flush_element hk (List.mem_range.mp hj)

/-- Once it has sent everything, the scanout is idle and the progress is the whole frame (R226). -/
theorem flush_ends (hk : s.cfg.wf) (hch : s.channel scanCh = flushChannel s.cfg) (started : s.scanStarted = true) :
    (s.afterElements scanCh s.cfg.scanCount).scanState = .idle ∧
      (s.afterElements scanCh s.cfg.scanCount).flushOffset = s.cfg.pixels := by
  have hdone : ((s.afterElements scanCh s.cfg.scanCount).channel scanCh).remaining = 0 :=
    afterElements_done (by rw [hch, toNat_remaining_flushChannel hk])
  have hstarted := congrArg State.scanStarted (afterElements_frame s scanCh s.cfg.scanCount)
  refine ⟨scanState_eq_idle.mpr hdone, ?_⟩
  rw [State.flushOffset, if_pos (hstarted.trans started), hdone, cfg_afterElements]
  simp

end

/-- `s` when FLUSH has started its flush after the edge and HOST has its WAIT still to issue (R232). -/
abbrev State.inFlush (s : State) : State := (s.afterEdge [.wait (BitVec.ofNat 32 scanCh)]).flushStarted

/-- Settles O53: the flush starts after the edge, the channel sends the framebuffer, and HOST's WAIT returns. -/
theorem flushSendsTheFramebuffer : Obligations.FlushSendsTheFramebuffer := by
  intro s hs hk hc idle low
  have hstart := AgentTurns.edge_then_scanStart (i := .flush) (parts := [.wait (BitVec.ofNat 32 scanCh)]) hs hk hc idle
    low fun _ => rfl
  have hch : s.inFlush.channel scanCh = flushChannel s.cfg := channel_flushStarted hc
  have hmarks := congrArg State.wireMarks (afterElements_frame s.inFlush scanCh s.cfg.scanCount)
  have hnum : scanCh < s.inFlush.numCh := by
    simpa [State.numCh, State.inFlush, State.flushStarted] using hc
  obtain ⟨hmem, hwire⟩ := flush_sends (s := s.inFlush) hk hch
  obtain ⟨hidle, hoffset⟩ := flush_ends (s := s.inFlush) hk hch rfl
  have hsent := AgentTurns.channel_then_wait (c := BitVec.ofNat 32 scanCh) (k := s.cfg.scanCount) (s := s.inFlush) hs
    rfl rfl hnum ((congrArg (·.remaining.toNat) hch).trans (toNat_remaining_flushChannel hk))
  have hturns := hstart.trans hsent
  rw [List.append_assoc]
  exact ⟨_, hturns.run (by simp), safe_afterElements (s := s.inFlush) hs _ _, rfl, rfl, rfl, hmem, hwire, hmarks,
    hidle, hoffset⟩

/-! ## The fill of a CLEAR (R193, R228) -/

/-- A CONFIGURE and its START among the parts of a composite (R119, R192): two turns of HOST start the channel. -/
theorem AgentTurns.transferComposite {s : State} {i : Instr} {c src dst esize count opts n : U32} {incRd swap : Bool}
    {rest : List Instr} (h : TransferComposite s.cfg i c src dst esize count opts incRd swap)
    (hn : n = countField s.cfg count) (hs : s.safe) (free : s.hostWait = .none) (left : s.pending = i :: rest)
    (hc : c.toNat < s.numCh) (notScan : c.toNat ≠ scanCh) (idle : (s.channel c.toNat).remaining = 0)
    (size : SizeOk esize.toNat) (hsrc : src.toNat % esize.toNat = 0) (hdst : dst.toNat % esize.toNat = 0)
    (reads : EmptyOrInside (bteReadable s.cfg) src.toNat (rangeLen incRd n.toNat esize.toNat))
    (writes : EmptyOrInside (bteWritable s.cfg) dst.toNat (n.toNat * esize.toNat)) :
    AgentTurns [.host, .host] s { s with
      pending := rest
      bte := s.bte.set c.toNat (startedChannel src dst (esize.setWidth 3) n incRd true swap) } := by
  have hconfigure : AgentTurns [.host] s { s with
      pending := .start c :: rest
      bte := s.bte.set c.toNat ((s.channel c.toNat).configuredTo src dst (esize.setWidth 3) n incRd swap) } :=
    .issue hs free left fun l m =>
      TransferComposite.exec_of_pass (s := { s with pending := rest }.withTurns l m) h hn
        (configureCheck_pass ⟨hc, size, h.valid⟩ notScan idle hsrc hdst)
  have hstart (u : State) (hu : u.bte = (s.configuredFor c src dst esize n incRd swap).bte) (hcfg : u.cfg = s.cfg) :
      exec (.start c) u = .next { u with
        bte := s.bte.set c.toNat (startedChannel src dst (esize.setWidth 3) n incRd true swap) } := by
    have hch : u.channel c.toNat = (s.configuredFor c src dst esize n incRd swap).channel c.toNat := by
      rw [State.channel, hu]; rfl
    have hnum : c.toNat < u.numCh := by simpa [State.numCh, hu] using hc
    have hcheck : startCheck false c u = none := by
      refine startCheck_pass hnum notScan ?_ ?_ ?_ <;> rw [hch, hcfg]
      · exact configuredFor_startable hc idle
      · exact (configuredFor_readsInside hc size).mpr reads
      · exact (configuredFor_writesInside hc size).mpr writes
    rw [exec_start_of_pass hcheck, hch, channel_configuredFor hc, State.setChannel, hu, List.set_set]
    rfl
  exact hconfigure.trans (.issue hs free rfl fun l m => hstart _ rfl rfl)

/-- The registers of the channel that CLEAR's fill has just started (R193, R228). -/
def clearChannel (k : Config) : Channel :=
  startedChannel (BitVec.ofNat 32 k.fillBase) (BitVec.ofNat 32 k.fbBase) 2 (BitVec.ofNat 32 k.pixels) false true
    k.clearSwap

section
variable {k : Config} (hk : k.wf)
include hk

theorem toNat_pixels : (BitVec.ofNat 32 k.pixels).toNat = k.pixels := by
  have hframe := frame_lt hk
  rw [BitVec.toNat_ofNat, Nat.mod_eq_of_lt (by omega)]

theorem countField_pixels : countField k (BitVec.ofNat 32 k.pixels) = BitVec.ofNat 32 k.pixels := by
  have hpixels := toNat_pixels hk
  obtain ⟨⟨_, _, hframe, _⟩, _⟩ := hk
  exact countField_eq_self (by omega)

theorem toNat_remaining_clearChannel : (clearChannel k).remaining.toNat = k.pixels := toNat_pixels hk

theorem toNat_rdPtr_clearChannel : (clearChannel k).rdPtr.toNat = k.fillBase :=
  toNat_base hk (fillCell_mem_regions k) (Nat.succ_pos 3)

theorem toNat_wrPtr_clearChannel (pixels : 0 < k.pixels) : (clearChannel k).wrPtr.toNat = k.fbBase :=
  toNat_base hk (fb_mem_regions k) (Nat.mul_pos (by decide) pixels)

/-- A CLEAR writes the framebuffer and nothing else. -/
theorem clearChannel_writes : EmptyOrInside (bteWritable k) (BitVec.ofNat 32 k.fbBase).toNat (k.pixels * 2) :=
  region_emptyOrInside hk (fb_mem_regions k) (by simp [bteWritable]) (Nat.mul_comm ..).le

theorem clearChannel_inv : ChannelInv k (clearChannel k) := by
  have size : SizeOk 2 := .inr (.inl rfl)
  refine startedChannel_inv size (base_aligned hk (fillCell_mem_regions k) size)
    (base_aligned hk (fb_mem_regions k) size) (fillCell_reads hk size _) ?_
  rw [rangeLen_increments, toNat_pixels hk]
  exact clearChannel_writes hk

/-- The framebuffer and the fill cell share no byte (R64). -/
theorem fb_apart_fillCell : k.fb.apart k.fillCell := by
  obtain ⟨_, hapart, _⟩ := hk
  simp only [Config.regions, List.pairwise_cons] at hapart
  obtain ⟨_, _, hfb, _⟩ := hapart
  exact hfb k.fillCell (by simp)

/-- A CLEAR's fill does not write the colour it reads. -/
theorem clearChannel_rangesApart : (clearChannel k).rangesApart := by
  rintro ⟨hread, hwrite, hlo, hhi⟩
  have hincRd : (clearChannel k).incRd = false := rfl
  have hincWr : (clearChannel k).incWr = true := rfl
  have hesize : (clearChannel k).esize.toNat = 2 := rfl
  have hcell : rangeLen false (clearChannel k).remaining.toNat 2 ≤ 2 := by
    simp only [rangeLen, Bool.false_eq_true, if_false]
    split <;> omega
  rw [hincWr, hesize, rangeLen_increments, toNat_remaining_clearChannel hk] at hwrite hlo
  rw [hincRd, hesize] at hhi
  rw [toNat_rdPtr_clearChannel hk, toNat_wrPtr_clearChannel hk (by omega)] at hlo hhi
  rcases fb_apart_fillCell hk with h | h | h | h <;> simp only [Config.fb, Config.fillCell] at h <;> omega

/-- Every byte outside the framebuffer is none that a CLEAR's fill writes. -/
theorem clearChannel_writesPast {x : Nat} (hx : ¬inRegion k.fb x) : (clearChannel k).writesPast x := by
  have hincWr : (clearChannel k).incWr = true := rfl
  have hesize : (clearChannel k).esize.toNat = 2 := rfl
  rw [Channel.writesPast, hincWr, hesize, rangeLen_increments, toNat_remaining_clearChannel hk]
  by_cases hpixels : k.pixels = 0
  · omega
  · rw [toNat_wrPtr_clearChannel hk (by omega)]
    simp only [inRegion, Config.fb] at hx
    omega

end

section
variable {s : State}

theorem clearSwapOperand_asks (k : Config) : decide (clearSwapOperand k ≠ 0) = k.clearSwap := by
  cases h : k.clearSwap <;> simp [clearSwapOperand, h]

theorem setWidth_zext32 (v : U16) : (zext32 v).setWidth 16 = v :=
  BitVec.setWidth_setWidth_of_le v (by decide) |>.trans (BitVec.setWidth_eq v)

/-- `s` with the colour in the fill cell and CLEAR's fill just started (R228). -/
def State.clearStarted (s : State) (color : U16) : State :=
  { s with
    mem := s.mem.write s.cfg.fillBase 2 color.toNat
    bte := s.bte.set fillCh (clearChannel s.cfg) }

/-- HOST's write of the colour to the fill cell (R228). -/
theorem exec_colorWrite (hk : s.cfg.wf) (color : U16) :
    exec (.hostWrite (BitVec.ofNat 32 s.cfg.fillBase) 2 (zext32 color)) s =
      .next { s with mem := s.mem.write s.cfg.fillBase 2 color.toNat } := by
  have size : SizeOk (2 : U32).toNat := .inr (.inl rfl)
  obtain ⟨hbase, halign⟩ := fillBase_aligned hk size
  have inside : Inside (hostWritable s.cfg) (BitVec.ofNat 32 s.cfg.fillBase).toNat (2 : U32).toNat := by
    rw [hbase]
    exact ⟨s.cfg.fillCell, by simp [hostWritable], le_rfl, Nat.add_le_add_left (by decide : 2 ≤ 4) _⟩
  have hcolor : (zext32 color).toNat = color.toNat := BitVec.toNat_setWidth_of_le (by decide)
  rw [exec_hostWrite_of_pass (hostAccessCheck_pass size (by rw [hbase, halign]) inside),
    s.store_memory _ _ _ (not_holds_display hk size inside), hbase, hcolor]
  rfl

/-- A CLEAR on an idle channel does not wait, and leaves the colour's write, the fill and a WAIT (R228). -/
theorem exec_clear_of_idle (hc : fillCh < s.numCh) (idle : (s.channel fillCh).remaining = 0) (color : U16) :
    exec (.clear color) s = .next { s with hostWait := .none, pending := clearTail s.cfg color ++ s.pending } := by
  obtain ⟨hclear, _⟩ := scanCompositesExpand s
  have h := hclear color hc
  rw [if_pos idle] at h
  exact h

/-- HOST's four turns of a CLEAR: the WAIT, the colour, and the fill's CONFIGURE and START (R228). -/
theorem AgentTurns.clear (hs : s.safe) (hk : s.cfg.wf) (hc : fillCh < s.numCh)
    (idle : (s.channel fillCh).remaining = 0) (color : U16) :
    AgentTurns [.host, .host, .host, .host] (s.issuing [.clear color])
      ((s.clearStarted color).issuing [.wait (BitVec.ofNat 32 fillCh)]) := by
  have hwait : AgentTurns [.host] (s.issuing [.clear color]) (s.issuing (clearTail s.cfg color ++ [])) :=
    .issue hs rfl rfl fun l n => exec_clear_of_idle (s := (s.issuing []).withTurns l n) hc idle color
  have hcolor : AgentTurns [.host] (s.issuing (clearTail s.cfg color ++ []))
      { s.issuing (clearTail s.cfg color).tail with mem := s.mem.write s.cfg.fillBase 2 color.toNat } :=
    .issue hs rfl rfl fun l n =>
      exec_colorWrite (s := (s.issuing (clearTail s.cfg color).tail).withTurns l n) hk color
  have size : SizeOk (2 : U32).toNat := .inr (.inl rfl)
  have hfill := transferComposite_fill s.cfg (BitVec.ofNat 32 fillCh) (BitVec.ofNat 32 s.cfg.fbBase) 2
    (BitVec.ofNat 32 s.cfg.pixels) (clearSwapOperand s.cfg)
  rw [clearSwapOperand_asks] at hfill
  have hstart := AgentTurns.transferComposite
    (s := { s.issuing (clearTail s.cfg color).tail with mem := s.mem.write s.cfg.fillBase 2 color.toNat })
    (rest := [.wait (BitVec.ofNat 32 fillCh)]) hfill (countField_pixels hk).symm hs rfl rfl hc (by decide) idle size
    (base_aligned hk (fillCell_mem_regions s.cfg) size) (base_aligned hk (fb_mem_regions s.cfg) size)
    (fillCell_reads hk size _) (by rw [toNat_pixels hk]; exact clearChannel_writes hk)
  exact (hwait.trans hcolor).trans hstart

/-! ## What a CLEAR leaves (R193, R228) -/

/-- The framebuffer word is the low half of the value read (R15). -/
theorem fbWord_eq_load (s : State) (i : Nat) : s.fbWord i = (s.load (s.cfg.fbBase + 2 * i) 2).setWidth 16 :=
  (BitVec.setWidth_ofNat_of_le (by decide) _).symm

/-- Every element of a CLEAR's fill is the colour, swapped where the parameters ask for it. -/
theorem element_clear (hk : s.cfg.wf) {color : U16} (hcolor : s.load s.cfg.fillBase 2 = zext32 color) (j : Nat) :
    (s.element (clearChannel s.cfg) j).setWidth 16 = if s.cfg.clearSwap then swap16 color else color := by
  have helement : s.element (clearChannel s.cfg) j = (clearChannel s.cfg).transform (s.load s.cfg.fillBase 2) := by
    rw [← toNat_rdPtr_clearChannel hk]
    rfl
  have hswap : (clearChannel s.cfg).bswap = s.cfg.clearSwap := rfl
  rw [helement, hcolor, Channel.transform, hswap]
  split
  · change (zext32 (swap16 ((zext32 color).setWidth 16))).setWidth 16 = _
    rw [setWidth_zext32, setWidth_zext32]
  · exact setWidth_zext32 color

/-- The fill of a CLEAR moves the colour to every framebuffer word. -/
theorem clear_moves (hk : s.cfg.wf) (hch : s.channel fillCh = clearChannel s.cfg) :
    MovedToMemory s fillCh s.cfg.pixels (s.afterElements fillCh s.cfg.pixels) := by
  have hinv := clearChannel_inv hk
  have hcount := toNat_remaining_clearChannel hk
  have hapart := clearChannel_rangesApart hk
  rw [← hch] at hinv hcount hapart
  refine movedToMemory hk hinv (fun j hj => ?_) hapart hcount.ge
  have hpixels : 0 < s.cfg.pixels := by omega
  obtain ⟨hfirst, hlast⟩ := writeAddr_bounds (s.channel fillCh) hj
  rw [hch] at hfirst hlast ⊢
  refine not_inRegion_display hk (len := rangeLen true (clearChannel s.cfg).remaining.toNat 2) ?_ hfirst
    (Nat.lt_of_lt_of_le (Nat.lt_add_of_pos_right (Nat.succ_pos 1)) hlast)
  rw [toNat_wrPtr_clearChannel hk hpixels, toNat_remaining_clearChannel hk, rangeLen_increments]
  exact ⟨s.cfg.fb, by simp, le_rfl, Nat.add_le_add_left (Nat.mul_comm ..).le _⟩

/-- The framebuffer words after a CLEAR's fill. -/
theorem clear_fbWord (hk : s.cfg.wf) (hch : s.channel fillCh = clearChannel s.cfg) {color : U16}
    (hcolor : s.load s.cfg.fillBase 2 = zext32 color) {i : Nat} (hi : i < s.cfg.pixels) :
    (s.afterElements fillCh s.cfg.pixels).fbWord i = if s.cfg.clearSwap then swap16 color else color := by
  have hload := (clear_moves hk hch).load i hi (.inl (by rw [hch]; rfl))
  have haddr : (clearChannel s.cfg).writeAddr i = s.cfg.fbBase + 2 * i := by
    rw [← toNat_wrPtr_clearChannel hk (by omega), Nat.mul_comm]
    rfl
  rw [hch, haddr] at hload
  rw [fbWord_eq_load, cfg_afterElements, ← element_clear hk hcolor i, ← hload]
  rfl

/-- The colour HOST wrote stands in the fill cell. -/
theorem load_colorWrite {m : Memory} (a : Nat) (color : U16) (h : s.mem = m.write a 2 color.toNat) :
    s.load a 2 = zext32 color := by
  have hlt : color.toNat < 256 ^ 2 := color.isLt
  rw [State.load, h, Memory.read_write, Nat.mod_eq_of_lt hlt]
  exact BitVec.ofNat_toNat 32 color

end

/-- Settles O52: HOST's four turns start the fill, the channel moves the colour to every word, and HOST's WAIT
returns. -/
theorem clearFillsTheFramebuffer : Obligations.ClearFillsTheFramebuffer := by
  intro s color hs hk hc idle
  have hch : (s.clearStarted color).channel fillCh = clearChannel s.cfg := channel_setChannel_self (s := s) _ hc
  have hnum : fillCh < (s.clearStarted color).numCh := by simpa [State.numCh, State.clearStarted] using hc
  have hfill := AgentTurns.channel_then_wait (c := BitVec.ofNat 32 fillCh) (k := s.cfg.pixels)
    (s := (s.clearStarted color).issuing [.wait (BitVec.ofNat 32 fillCh)]) hs rfl rfl hnum
    ((congrArg (·.remaining.toNat) hch).trans (toNat_remaining_clearChannel hk))
  have hturns := (AgentTurns.clear hs hk hc idle color).trans hfill
  have hmoves := clear_moves (s := (s.clearStarted color).issuing [.wait (BitVec.ofNat 32 fillCh)]) hk hch
  rw [List.append_assoc]
  refine ⟨_, hturns.run (by simp), safe_afterElements (s := (s.clearStarted color).issuing _) hs _ _, rfl, rfl, rfl,
    fun i hi => ?word, fun x hfb hcell => ?byte⟩
  case word =>
    exact clear_fbWord (s := (s.clearStarted color).issuing [.wait (BitVec.ofNat 32 fillCh)]) hk hch
      (load_colorWrite _ color rfl) hi
  case byte =>
    refine (hmoves.byte x ?_).trans (Memory.byte_write_outside _ _ _ _ _ ?_)
    · exact hch ▸ clearChannel_writesPast hk hfb
    · simp only [inRegion, Config.fillCell] at hcell
      omega

end Sys2Proof.Machine

/-! SUPPORT and the settled statements of the family 60_exceptions.md: what an instruction does to the fault register
and the refusal mark (O12, O13, O14), and the machine a fault or a refusal has stopped (O9). -/

namespace Sys2Proof.Machine

/-! ## Operations that take effect record no fault and set no mark (R294, R299) -/

/-- `t` has the fault register and the refusal mark of `s`. -/
structure StatusKept (s t : State) : Prop where
  fault : t.fault = s.fault
  refused : t.refused = s.refused

section
variable {s t : State}

theorem StatusKept.refl (s : State) : StatusKept s s := ⟨rfl, rfl⟩

theorem StatusKept.trans {u : State} (h : StatusKept s t) (k : StatusKept t u) : StatusKept s u :=
  ⟨k.fault.trans h.fault, k.refused.trans h.refused⟩

theorem setChannel_statusKept (s : State) (c : Nat) (ch : Channel) : StatusKept s (s.setChannel c ch) := ⟨rfl, rfl⟩

theorem store_statusKept (s : State) (a n : Nat) (v : U32) : StatusKept s (s.store a n v) := ⟨by simp, by simp⟩

theorem literalOp_statusKept (v : U16) (s : State) : StatusKept s (literalOp v s) :=
  (store_statusKept s _ _ _).trans ⟨rfl, rfl⟩

theorem hostReadOp_eq_ok {addr n : U32} (h : hostReadOp addr n s = .ok t) :
    hostAccessCheck (hostReadable s.cfg) addr n = none ∧ t = { s with ret := s.load addr.toNat n.toNat } := by
  unfold hostReadOp at h
  split at h <;> simp_all

theorem pollOp_eq_ok {c : U32} (h : pollOp c s = .ok t) :
    c.toNat < s.numCh ∧ t = { s with ret := (s.channel c.toNat).remaining } := by
  unfold pollOp at h
  split at h <;> simp_all

theorem configureOp_statusKept {scan : Bool} {c src dst esize count opts : U32}
    (h : configureOp scan c src dst esize count opts s = .ok t) : StatusKept s t := by
  obtain ⟨_, rfl⟩ := configureOp_eq_ok h
  exact setChannel_statusKept s _ _

theorem startOp_statusKept {scan : Bool} {c : U32} (h : startOp scan c s = .ok t) : StatusKept s t := by
  obtain ⟨_, rfl⟩ := startOp_eq_ok h
  exact setChannel_statusKept s _ _

theorem scanStartOp_statusKept (h : scanStartOp s = .ok t) : StatusKept s t := by
  obtain ⟨_, _, hcfg, hstart, rfl⟩ := scanStartOp_eq_ok h
  exact ((configureOp_statusKept hcfg).trans (startOp_statusKept hstart)).trans ⟨rfl, rfl⟩

theorem waitOp_statusKept {c : U32} (h : waitOp c s = .ok t) : StatusKept s t := by
  obtain ⟨_, rfl⟩ := waitOp_eq_ok h
  exact ⟨rfl, rfl⟩

theorem vsyncWaitOp_statusKept (h : vsyncWaitOp s = .ok t) : StatusKept s t := by
  cases h
  exact ⟨rfl, rfl⟩

/-- A composite keeps the status where its first part does: the others are only left to be issued (R119). -/
theorem andThen_statusKept {a : Attempt} {parts : List Instr} (h : andThen a parts = .ok t)
    (ha : ∀ u, a = .ok u → StatusKept s u) : StatusKept s t := by
  obtain ⟨u, hu, rfl⟩ := andThen_eq_ok.mp h
  exact (ha u hu).trans ⟨rfl, rfl⟩

end

/-! ## Every instruction keeps the status or takes a trap (R294, R299) -/

/-- The outcome of an instruction in state `s` is a next state, which has the fault register and the refusal mark of
`s`, or is `s` with a trap taken. -/
def KeepsOrTraps (s : State) (o : Outcome) : Prop :=
  ∃ t, o = .next t ∧ (StatusKept s t ∨ ∃ e, t = s.trap e)

section
variable {s : State}

theorem KeepsOrTraps.next {t : State} (h : StatusKept s t) : KeepsOrTraps s (.next t) := ⟨t, rfl, .inl h⟩

theorem settle_keepsOrTraps {a : Attempt} (ha : ∀ u, a = .ok u → StatusKept s u) : KeepsOrTraps s (settle s a) := by
  cases a with
  | ok t => exact .next (ha t rfl)
  | error e => exact ⟨s.trap e, rfl, .inr ⟨e, rfl⟩⟩

theorem decStepWhen_keepsOrTraps {st : DecState} {a : Attempt} (ha : ∀ u, a = .ok u → StatusKept s u) :
    KeepsOrTraps s (decStepWhen st s a) := by
  unfold decStepWhen
  split
  · exact settle_keepsOrTraps ha
  · exact .next (.refl s)

end

/-- What an instruction can do to the fault register and the refusal mark, in any state and for any agent. -/
theorem exec_keepsOrTraps (i : Instr) (s : State) : KeepsOrTraps s (exec i s) := by
  cases i with
  | hdr => exact decStepWhen_keepsOrTraps fun u hu => by obtain ⟨_, _, rfl⟩ := hdrOp_eq_ok hu; exact ⟨rfl, rfl⟩
  | skip => exact decStepWhen_keepsOrTraps fun u hu => by obtain ⟨_, _, _, _, rfl⟩ := skipOp_eq_ok hu; exact ⟨rfl, rfl⟩
  | litrun => exact decStepWhen_keepsOrTraps fun u hu => by obtain ⟨_, _, rfl⟩ := litrunOp_eq_ok hu; exact ⟨rfl, rfl⟩
  | pixel => exact decStepWhen_keepsOrTraps fun u hu => by cases hu; exact literalOp_statusKept _ s
  | hostRead => exact settle_keepsOrTraps fun u hu => by obtain ⟨_, rfl⟩ := hostReadOp_eq_ok hu; exact ⟨rfl, rfl⟩
  | hostWrite =>
    exact settle_keepsOrTraps fun u hu => by obtain ⟨_, rfl⟩ := hostWriteOp_eq_ok hu; exact store_statusKept s _ _ _
  | decompress =>
    rw [exec, execDecompress]
    split
    · exact .next ⟨rfl, rfl⟩
    · exact settle_keepsOrTraps fun u hu => by obtain ⟨_, rfl⟩ := decompressOp_eq_ok hu; exact ⟨rfl, rfl⟩
  | start => exact settle_keepsOrTraps fun _ hu => startOp_statusKept hu
  | scanStart => exact settle_keepsOrTraps fun _ hu => scanStartOp_statusKept hu
  | pollRemaining => exact settle_keepsOrTraps fun u hu => by obtain ⟨_, rfl⟩ := pollOp_eq_ok hu; exact ⟨rfl, rfl⟩
  | flushProgress => exact .next ⟨rfl, rfl⟩
  | configure | scanoutCfg => exact settle_keepsOrTraps fun _ hu => configureOp_statusKept hu
  | wait | drawBegin => exact settle_keepsOrTraps fun _ hu => waitOp_statusKept hu
  | vsyncWait => exact settle_keepsOrTraps fun _ hu => vsyncWaitOp_statusKept hu
  | clear => exact settle_keepsOrTraps fun _ hu => andThen_statusKept hu fun _ hw => waitOp_statusKept hw
  | drawEnd | flush => exact settle_keepsOrTraps fun _ hu => andThen_statusKept hu fun _ hw => vsyncWaitOp_statusKept hw
  | fill | copy | bulkRead =>
    exact settle_keepsOrTraps fun _ hu => andThen_statusKept hu fun _ hw => configureOp_statusKept hw

theorem exec_statusKept_or_trap {i : Instr} {s t : State} (h : exec i s = .next t) :
    StatusKept s t ∨ ∃ e, t = s.trap e := by
  obtain ⟨u, hu, heffect⟩ := exec_keepsOrTraps i s
  cases hu.symm.trans h
  exact heffect

/-- Settles O12: no instruction has an outcome of its own. -/
theorem everyInstructionAnswersNext : Obligations.EveryInstructionAnswersNext := fun i s =>
  (exec_keepsOrTraps i s).imp fun _ h => h.1

/-! ## Faults and refusals are precise (R294, R299) -/

/-- A second fault is not recorded (R294). -/
theorem raise_of_fault {s : State} (h : s.fault.valid = true) (f : FaultCode) (info : U32) : s.raise f info = s := by
  simp [State.raise, h]

/-- A trap that changes the fault register is the first fault raised, and changes nothing else. -/
theorem trap_precise_of_fault_ne {s : State} {e : Trap} (h : (s.trap e).fault ≠ s.fault) :
    s.fault.valid = false ∧ (s.trap e).fault.valid = true ∧ s.trap e = { s with fault := (s.trap e).fault } := by
  cases e with
  | refuse => exact absurd rfl h
  | raise f info =>
    rw [trap_raise] at h ⊢
    cases hv : s.fault.valid with
    | true => exact absurd (by rw [raise_of_fault hv]) h
    | false => rw [raise_of_no_fault hv]; exact ⟨rfl, rfl, rfl⟩

/-- A trap that changes the refusal mark is a refusal. -/
theorem trap_eq_refuse_of_refused_ne {s : State} {e : Trap} (h : (s.trap e).refused ≠ s.refused) :
    s.trap e = s.refuse := by
  cases e with
  | raise f info => exact absurd (State.raise_refused s f info) h
  | refuse => rfl

/-- Settles O13: an instruction that changes the fault register took a trap. -/
theorem faultsArePrecise : Obligations.FaultsArePrecise := by
  refine ⟨fun s f info => ⟨fun h => raise_of_no_fault h f info, fun h => raise_of_fault h f info⟩,
    fun i s t h hfault => ?_⟩
  rcases exec_statusKept_or_trap h with hkept | ⟨e, rfl⟩
  · exact absurd hkept.fault hfault
  · exact trap_precise_of_fault_ne hfault

/-- Settles O14: an instruction that changes the refusal mark took a trap. -/
theorem refusalsArePrecise : Obligations.RefusalsArePrecise := by
  intro i s t h hrefused
  rcases exec_statusKept_or_trap h with hkept | ⟨e, rfl⟩
  · exact absurd hkept.refused hrefused
  · exact trap_eq_refuse_of_refused_ne hrefused

/-! ## The machine a fault or a refusal has stopped (R296, R299) -/

/-- Settles O9: `step` looks at the fault register and the mark before it gives an agent its turn. -/
theorem stoppedMachineHasNoStep : Obligations.StoppedMachineHasNoStep := by
  refine fun s => ⟨fun hfault => ?faulted, fun hfault hrefused => ?refused⟩ <;> rw [step]
  case faulted => rw [if_pos hfault]
  case refused => rw [if_neg (by simp [hfault]), if_pos hrefused]

end Sys2Proof.Machine

/-! SUPPORT and the settled statement of the family 70_reset_and_hazards.md: writes behind the scanout cursor (O55). A
flush writes the port and not memory, and reads from the cursor on; so the runs from two memories that agree there stay
the same state but for memory. -/

namespace Sys2Proof.Machine

/-! ## A memory that agrees with the state's from the scanout cursor on (R344) -/

/-- `s` with another memory. -/
abbrev State.withMem (s : State) (m : Memory) : State := { s with mem := m }

/-- `m` holds the bytes of the memory of `s` from the flush progress on (R226). -/
def AgreesAhead (s : State) (m : Memory) : Prop :=
  ∀ x, s.cfg.fbBase + 2 * s.flushOffset ≤ x → m.byte x = s.mem.byte x

section
variable {s : State} {m : Memory}

/-- A running scanout reads no byte behind the flush progress (R226, R236). -/
theorem flushOffset_le_readAt (hs : ScanInv s) (running : (s.channel scanCh).remaining ≠ 0) :
    s.cfg.fbBase + 2 * s.flushOffset ≤ s.readAt scanCh := by
  obtain ⟨hstarted, hleft, hrun⟩ := hs
  obtain ⟨_, _, _, _, _, hcursor⟩ := hrun running
  have started : s.scanStarted = true := Bool.of_not_eq_false (mt hstarted running)
  rw [State.flushOffset, if_pos started, State.readAt]
  omega

/-- A running scanout writes to the display port (R197). -/
theorem scan_writeAt_display (hs : ScanInv s) (running : (s.channel scanCh).remaining ≠ 0) :
    inRegion s.cfg.display (s.writeAt scanCh) := by
  obtain ⟨_, _, hrun⟩ := hs
  obtain ⟨_, _, _, _, hport, _⟩ := hrun running
  rw [State.writeAt, hport]
  exact ⟨le_rfl, by simp [Config.display]⟩

/-- Both memories hold the same next element. -/
theorem nextElement_withMem (hs : ScanInv s) (agree : AgreesAhead s m)
    (running : (s.channel scanCh).remaining ≠ 0) :
    (s.withMem m).nextElement scanCh = s.nextElement scanCh := by
  have hahead := flushOffset_le_readAt hs running
  have hload : (s.withMem m).load (s.readAt scanCh) (s.elemSize scanCh) =
      s.load (s.readAt scanCh) (s.elemSize scanCh) :=
    congrArg (BitVec.ofNat 32) (Memory.read_congr _ _ _ _ fun x hlo _ => agree x (hahead.trans hlo))
  exact congrArg (s.channel scanCh).transform hload

/-! ## The scanout's turns from either memory (R186, R236) -/

theorem elementStep_cases (c : Nat) (s : State) :
    (s.channel c).remaining = 0 ∧ elementStep c s = s ∨
      (s.channel c).remaining ≠ 0 ∧ elementStep c s = elementOp c s := by
  by_cases idle : (s.channel c).remaining = 0
  · exact .inl ⟨idle, elementStep_of_not_running idle⟩
  · exact .inr ⟨idle, elementStep_of_running idle⟩

theorem elementStep_withMem (hs : ScanInv s) (agree : AgreesAhead s m) :
    elementStep scanCh (s.withMem m) = (elementStep scanCh s).withMem m := by
  rcases elementStep_cases scanCh s with ⟨idle, hstep⟩ | ⟨running, hstep⟩
  · rw [hstep, elementStep_of_not_running (s := s.withMem m) idle]
  · have port := scan_writeAt_display hs running
    rw [hstep, elementStep_of_running (s := s.withMem m) running, elementOp_port port,
      elementOp_port (s := s.withMem m) port, nextElement_withMem hs agree running]
    rfl

theorem scan_elementStep_mem (hs : ScanInv s) : (elementStep scanCh s).mem = s.mem := by
  rcases elementStep_cases scanCh s with ⟨_, hstep⟩ | ⟨running, hstep⟩ <;> rw [hstep]
  rw [elementOp_port (scan_writeAt_display hs running)]

theorem scan_elementStep_scanInv (hk : s.cfg.wf) (hs : ScanInv s) : ScanInv (elementStep scanCh s) := by
  rcases elementStep_cases scanCh s with ⟨_, hstep⟩ | ⟨running, hstep⟩ <;> rw [hstep]
  · exact hs
  · exact elementOp_scanInv hk hs running

theorem flushOffset_le_elementStep (s : State) : s.flushOffset ≤ (elementStep scanCh s).flushOffset := by
  rcases elementStep_cases scanCh s with ⟨_, hstep⟩ | ⟨running, hstep⟩ <;> rw [hstep]
  exact flushOffset_le_elementOp running

/-- The cursor only moves up, over a memory that stays as it is. -/
theorem AgreesAhead.after_elementStep (agree : AgreesAhead s m) (hs : ScanInv s) :
    AgreesAhead (elementStep scanCh s) m := by
  intro x hx
  have hprogress := flushOffset_le_elementStep s
  rw [cfg_elementStep] at hx
  rw [scan_elementStep_mem hs]
  exact agree x (by omega)

/-- Any number of scanout turns comes to the same state from either memory, but for memory itself. -/
theorem afterElements_withMem (hk : s.cfg.wf) (hs : ScanInv s) (agree : AgreesAhead s m) (k : Nat) :
    (s.withMem m).afterElements scanCh k = (s.afterElements scanCh k).withMem m := by
  induction k generalizing s with
  | zero => rfl
  | succ k ih =>
    calc (elementStep scanCh)^[k] (elementStep scanCh (s.withMem m))
        = ((elementStep scanCh s).withMem m).afterElements scanCh k :=
          congrArg (elementStep scanCh)^[k] (elementStep_withMem hs agree)
      _ = ((elementStep scanCh s).afterElements scanCh k).withMem m :=
          ih (by rwa [cfg_elementStep]) (scan_elementStep_scanInv hk hs) (agree.after_elementStep hs)

end

/-- Settles O55: both runs are the scanout's turns, which from either memory leave the same wire. -/
theorem writesBehindTheCursorAreNotSent : Obligations.WritesBehindTheCursorAreNotSent := by
  intro s m k hs hk inv same
  have agree : AgreesAhead s m := fun x ahead => same x (.inr ahead)
  have turns := AgentTurns.channel hs scanCh k
  have turns' := AgentTurns.channel (s := s.withMem m) hs scanCh k
  rw [afterElements_withMem hk inv agree] at turns'
  exact ⟨_, _, turns.run (List.length_replicate ..), turns'.run (List.length_replicate ..), rfl⟩

end Sys2Proof.Machine
